-- ==== Sys2Proof/Word.lean ====
section
/-! DEFINITION. The word types of the four ports (30_encoding.md R46) and the complex number of the datapath
(00_scope.md R6, R7). A bit vector stands for what the spec treats as bits; a datapath value is a real number, held as
the term that names it (notes/assumptions/1.md). -/

namespace Sys2Proof

/-- A byte of the `in` or `out` stream (10_state.md R23). -/
abbrev Byte := BitVec 8

/-- A register number, the `reg` field of a command (30_encoding.md R47). -/
abbrev RegNum := BitVec 8

/-- The contents of a configuration or status register (10_state.md R15, R16). -/
abbrev RegWord := BitVec 32

/-- A word of the `cmd` port, format `CMD` (30_encoding.md R46). -/
abbrev CmdWord := BitVec 64

/-- A word of the `rsp` port, format `RSP` (30_encoding.md R46). -/
abbrev RspWord := BitVec 64

/-- An input sample word, format `IQW` (30_encoding.md R46). -/
abbrev IqWord := BitVec 32

/-- An output sample word, format `PCMW` (30_encoding.md R46). -/
abbrev PcmWord := BitVec 16

/-- The spec's `real` (00_scope.md R6) as plain data: a term over the real operations of the rules. Machine/RealMeaning.lean
says which real number each names; nothing is rounded. -/
inductive RealNum where
  /-- a rational number -/
  | rat (q : ℚ)
  /-- some other real number, free: a parameter of the build may be any -/
  | const (id : ℕ)
  /-- `π` -/
  | pi
  /-- `a + b` -/
  | add (a b : RealNum)
  /-- `a - b` -/
  | sub (a b : RealNum)
  /-- `a · b` -/
  | mul (a b : RealNum)
  /-- `a / b` -/
  | div (a b : RealNum)
  /-- `-a` -/
  | neg (a : RealNum)
  /-- `max(0, a)` -/
  | posPart (a : RealNum)
  /-- -1 where `a < -1`, 1 where `a > 1`, else `a` -/
  | clamp (a : RealNum)
  /-- `sin(π·x)` -/
  | sinPi (x : RealNum)
  /-- `sqrt x` -/
  | sqrt (x : RealNum)
  /-- `I0 x` -/
  | i0 (x : RealNum)
  /-- `x ^ 0.4` -/
  | pow04 (x : RealNum)
  /-- `atan2(y, x) / (2π)`, where `atan2(0, 0)` is `zero` -/
  | turns (y x zero : RealNum)
  /-- `a` where `c = 0`, else `b` -/
  | ifZero (c a b : RealNum)
  deriving DecidableEq, Repr, Inhabited

/-- The spec's `cplx`: a pair of datapath numbers (00_scope.md R6). -/
structure Cplx where
  /-- in-phase coordinate, `Re` -/
  re : RealNum
  /-- quadrature coordinate, `Im` -/
  im : RealNum
  deriving DecidableEq, Repr

/-- `0 + j·0`, the initial entry of every history (10_state.md R26). -/
def Cplx.zero : Cplx := ⟨.rat 0, .rat 0⟩

/-- `1 + j·0`, the zero-phase sample of 43_fm_demod.md R89. -/
def Cplx.one : Cplx := ⟨.rat 1, .rat 0⟩

end Sys2Proof
end

