-- ==== Sys2Proof/Syntax.lean ====
section
/-! DEFINITION. The instructions: one constructor per row of the opcode table (30_encoding.md R48), the registers a
command can name (10_state.md R15, R16), and the pseudo-instructions of the assembler (30_encoding.md R55). -/

namespace Sys2Proof

/-- The six commands of the `cmd` port and the input sample of the `in` port. -/
inductive Instr where
  /-- `RESET` (45_commands.md R98) -/
  | reset
  /-- `CFGWR reg, imm` (R99) -/
  | cfgwr (reg : RegNum) (imm : RegWord)
  /-- `CFGRD reg` (R100) -/
  | cfgrd (reg : RegNum)
  /-- `START` (R101) -/
  | start
  /-- `PUSH len` (R102) -/
  | push (len : BitVec 32)
  /-- `EOS` (R103) -/
  | eos
  /-- `IQDEC`, one word of the `in` port (40_iq_decoder.md R60) -/
  | iqdec (i q : BitVec 16)
  deriving DecidableEq, Repr

/-- The ten assigned registers: seven for the configuration, three read-only. -/
inductive Reg where
  | inrate | outrate | bandwidth | modscheme | deviation | taps | atten
  | status | errcode | rsdelay
  deriving DecidableEq, Repr

/-- Pseudo-instructions (30_encoding.md R55). -/
inductive Pseudo where
  | cfgfm (inRate outRate bw dev : RegWord)
  | status
  | delay
  deriving DecidableEq, Repr

/-- A word with the port it stands on: the two encodings the opcode table has. -/
inductive PortWord where
  /-- a command word of the `cmd` port -/
  | cmd (w : CmdWord)
  /-- an input sample word of the `in` port -/
  | iq (w : IqWord)
  deriving DecidableEq, Repr

/-- Why a word is illegal, one name for each clause of 30_encoding.md R52. -/
inductive DecodeError where
  /-- the `opcode` is not one of 0x01 to 0x06 -/
  | unassignedOpcode
  /-- the `rsv` field is not zero -/
  | reservedNotZero
  /-- the `reg` field is not zero in a command that names no register -/
  | regNotZero
  /-- the `imm` field is not zero in a command that takes none -/
  | immNotZero
  /-- a `CFGWR` or `CFGRD` of an unassigned register -/
  | unassignedRegister
  /-- a `CFGWR` of a read-only status register -/
  | readOnlyRegister
  deriving DecidableEq, Repr

end Sys2Proof
end

