-- ==== Sys2Proof/Machine/Operands.lean ====
section
/-! DEFINITION. The operand forms (30_encoding.md R47): the register number, the two uses of `imm`, the fields of an
input sample word, and the byte order of every word (20_memory.md R33, 30_encoding.md R53). -/

namespace Sys2Proof.Machine

/-- The number of a register (10_state.md R15, R16). -/
def regNum : Reg → RegNum
  | .inrate => 0x00
  | .outrate => 0x01
  | .bandwidth => 0x02
  | .modscheme => 0x03
  | .deviation => 0x04
  | .taps => 0x05
  | .atten => 0x06
  | .status => 0x10
  | .errcode => 0x11
  | .rsdelay => 0x12

/-- The register a number names; `none` for an unassigned number (10_state.md R16). -/
def regOfNum (n : RegNum) : Option Reg :=
  match n.toNat with
  | 0x00 => some .inrate
  | 0x01 => some .outrate
  | 0x02 => some .bandwidth
  | 0x03 => some .modscheme
  | 0x04 => some .deviation
  | 0x05 => some .taps
  | 0x06 => some .atten
  | 0x10 => some .status
  | 0x11 => some .errcode
  | 0x12 => some .rsdelay
  | _ => none

/-- Whether `CFGWR` may write the register: the seven of 10_state.md R15. -/
def regWritable : Reg → Bool
  | .inrate | .outrate | .bandwidth | .modscheme | .deviation | .taps | .atten => true
  | .status | .errcode | .rsdelay => false

/-- `sext_32(imm)`, the integer a configuration register holds (30_encoding.md R47). -/
def sext32 (v : RegWord) : ℤ := v.toInt

/-- `zext_32(imm)`, the chunk length of a `PUSH` (30_encoding.md R47). -/
def zext32 (v : BitVec 32) : ℕ := v.toNat

/-- `sext_16`, the integer of a sample field (00_scope.md R6). -/
def sext16 (v : BitVec 16) : ℤ := v.toInt

/-- `enc16`, the 16-bit field of an integer: `k mod 65536` (00_scope.md R6). -/
def enc16 (k : ℤ) : PcmWord := BitVec.ofInt 16 k

/-- Field `i` of an input sample word: bits 15:0 (30_encoding.md R46). -/
def iqI (w : IqWord) : BitVec 16 := w.extractLsb' 0 16

/-- Field `q` of an input sample word: bits 31:16 (30_encoding.md R46). -/
def iqQ (w : IqWord) : BitVec 16 := w.extractLsb' 16 16

/-- The input sample word of four stream bytes, little-endian (20_memory.md R33). -/
def iqOfBytes (b0 b1 b2 b3 : Byte) : IqWord := b3 ++ b2 ++ b1 ++ b0

/-- The two stream bytes of an output sample, low byte first (44_quantizer.md R95). -/
def pcmBytes (v : PcmWord) : List Byte := [v.extractLsb' 0 8, v.extractLsb' 8 8]

/-- The first `n` bytes of a number, low byte first: how a word crosses a byte-wide transport
(30_encoding.md R53). -/
def bytesLE : ℕ → ℕ → List Byte
  | 0, _ => []
  | n + 1, w => BitVec.ofNat 8 w :: bytesLE n (w / 256)

/-- The number whose bytes, low byte first, are the list. -/
def natOfBytesLE : List Byte → ℕ
  | [] => 0
  | b :: bs => b.toNat + 256 * natOfBytesLE bs

end Sys2Proof.Machine
end

