-- ==== Sys2Proof/WellFormed.lean ====
section
/-! DEFINITION. Which instruction terms the encoding admits: the constraint the opcode table puts on the `reg` operand
of `CFGWR` and `CFGRD` (30_encoding.md R52). Every other operand admits every value. -/

namespace Sys2Proof

/-- `CFGWR` names one of the seven configuration registers, `CFGRD` one of the ten assigned registers. -/
def Instr.wellFormed : Instr → Bool
  | .reset => true
  | .cfgwr reg _ =>
    match Machine.regOfNum reg with
    | some r => Machine.regWritable r
    | none => false
  | .cfgrd reg => (Machine.regOfNum reg).isSome
  | .start => true
  | .push _ => true
  | .eos => true
  | .iqdec _ _ => true

end Sys2Proof
end

