-- ==== Sys2Proof/Decode.lean ====
section
/-! DEFINITION. The decoder of the two ports (30_encoding.md R46, R48, R52), total, refusing each illegal word by name,
and after it the encoder. -/

namespace Sys2Proof

open Machine

/-- Field `opcode`, bits 63:56. -/
def cmdOpcode (w : CmdWord) : BitVec 8 := w.extractLsb' 56 8
/-- Field `reg`, bits 55:48. -/
def cmdReg (w : CmdWord) : RegNum := w.extractLsb' 48 8
/-- Field `rsv`, bits 47:32. -/
def cmdRsv (w : CmdWord) : BitVec 16 := w.extractLsb' 32 16
/-- Field `imm`, bits 31:0. -/
def cmdImm (w : CmdWord) : BitVec 32 := w.extractLsb' 0 32

/-- A command that uses neither `reg` nor `imm`. -/
def decodePlain (i : Instr) (reg : RegNum) (imm : BitVec 32) : Except DecodeError Instr :=
  if reg ≠ 0 then .error .regNotZero else if imm ≠ 0 then .error .immNotZero else .ok i

/-- A command word with its reserved field already checked: the opcode map of 30_encoding.md R48. -/
def decodeFields (op : BitVec 8) (reg : RegNum) (imm : BitVec 32) : Except DecodeError Instr :=
  match op.toNat with
  | 0x01 => decodePlain .reset reg imm
  | 0x02 =>
    match regOfNum reg with
    | none => .error .unassignedRegister
    | some r => if regWritable r then .ok (.cfgwr reg imm) else .error .readOnlyRegister
  | 0x03 =>
    match regOfNum reg with
    | none => .error .unassignedRegister
    | some _ => if imm ≠ 0 then .error .immNotZero else .ok (.cfgrd reg)
  | 0x04 => decodePlain .start reg imm
  | 0x05 => if reg ≠ 0 then .error .regNotZero else .ok (.push imm)
  | 0x06 => decodePlain .eos reg imm
  | _ => .error .unassignedOpcode

/-- The command a word of the `cmd` port is, or the clause of 30_encoding.md R52 that makes it illegal. -/
def decodeCmd (w : CmdWord) : Except DecodeError Instr :=
  if cmdRsv w ≠ 0 then .error .reservedNotZero else decodeFields (cmdOpcode w) (cmdReg w) (cmdImm w)

/-- Every word of the `in` port is an input sample (30_encoding.md R48). -/
def decodeIq (w : IqWord) : Instr := .iqdec (iqI w) (iqQ w)

/-- The decoder over both ports. -/
def decode : PortWord → Except DecodeError Instr
  | .cmd w => decodeCmd w
  | .iq w => .ok (decodeIq w)

/-- The command of eight transport bytes, low byte first (30_encoding.md R53). -/
def decodeCmdBytes (bs : List Byte) : Except DecodeError Instr := decodeCmd (BitVec.ofNat 64 (natOfBytesLE bs))

/-- The input sample of four stream bytes, low byte first (20_memory.md R33). -/
def decodeIqBytes : List Byte → Option Instr
  | [b0, b1, b2, b3] => some (decodeIq (iqOfBytes b0 b1 b2 b3))
  | _ => none

/-- A command word from its four fields. -/
def cmdWord (op : BitVec 8) (reg : RegNum) (rsv : BitVec 16) (imm : BitVec 32) : CmdWord := op ++ reg ++ rsv ++ imm

/-- The words of an instruction, from the encoding columns of 30_encoding.md R48. -/
def encode : Instr → PortWord
  | .reset => .cmd (cmdWord 0x01 0 0 0)
  | .cfgwr reg imm => .cmd (cmdWord 0x02 reg 0 imm)
  | .cfgrd reg => .cmd (cmdWord 0x03 reg 0 0)
  | .start => .cmd (cmdWord 0x04 0 0 0)
  | .push len => .cmd (cmdWord 0x05 0 0 len)
  | .eos => .cmd (cmdWord 0x06 0 0 0)
  | .iqdec i q => .iq (q ++ i)

/-- The instruction the decoder reads from an opcode-table word of `nbits` bits: 64 for a command, 32 for an input
sample, laid out as the port's bytes and given to the port's decoder. -/
def decodeTableWord (nbits w : Nat) : Option Instr :=
  if nbits = 32 then decodeIqBytes (bytesLE 4 w)
  else
    match decodeCmdBytes (bytesLE 8 w) with
    | .ok i => some i
    | .error _ => none

end Sys2Proof
end

