-- ==== Sys2Proof/Config.lean ====
section
/-! DEFINITION. The implementation parameters of 00_scope.md R5 and the numeric primitives that 92_eei_decisions.md
D11 leaves to the implementation. What is plain data stands in `Build`; what is a function is an opaque constant: no
proof can see its value, so a claim holds whatever it is. -/

namespace Sys2Proof

/-- The number format of the datapath, parameters `NUMFMT` and `RND` (00_scope.md R5). -/
inductive NumFmt where
  /-- the default: exact arithmetic, `RND` the identity -/
  | exact
  /-- some finite format, with its own rounding and its own primitives, all of them free -/
  | finite (id : ℕ)
  deriving DecidableEq, Repr

/-- The tie rule of the quantizer, parameter `QTIE` (44_quantizer.md R94). -/
inductive QTie where
  /-- the default: half away from zero -/
  | halfAway
  /-- half to the even neighbour -/
  | halfEven
  /-- some other rule that picks one of the two neighbours, free -/
  | other (id : ℕ)
  deriving DecidableEq, Repr

/-- The plan of the resampler cascade, parameter `RSPLAN` (00_scope.md R5). -/
inductive PlanSel where
  /-- the default: the function of 42_resampler.md R73 -/
  | powersOfTwo
  /-- some other plan of the same ratio, free -/
  | other (id : ℕ)
  deriving DecidableEq, Repr

/-- The design `FIRDSN` computes, which 93_implementation_defined.md GK1 asks a model to keep replaceable. -/
inductive DesignSel where
  /-- the default: the formulas of 41_fir_filter.md R65 and R66 -/
  | windowedSinc
  /-- some other design of the same length, another shape parameter `β` among them: its taps are free real numbers
  (the model's choice of form: notes/assumptions/12.md) -/
  | other (id : ℕ)
  deriving DecidableEq, Repr

/-- The banks `rs_coef` of the resampler, which 92_eei_decisions.md D14 and 93_implementation_defined.md GK1 leave open
beside the design of the filter. -/
inductive BankSel where
  /-- the default: `Pi · FIRDSN` (42_resampler.md R74), by whatever design the build's `FIRDSN` has -/
  | scaledPrototype
  /-- some other banks of the same length: their entries are free real numbers, independent of every `FIRDSN` (the
  model's choice of form: notes/assumptions/12.md) -/
  | other (id : ℕ)
  deriving DecidableEq, Repr

/-- The parameters that are fixed when the hardware is built (00_scope.md R5). `LMAX` and `OUTCAP` are `none` where
the build has no bound. -/
structure Build where
  /-- `RSM`, taps per polyphase branch -/
  rsm : ℕ
  /-- `RSBW`, resampler stage cutoff factor, in (0, 0.5) -/
  rsbw : RealNum
  /-- `RSPLAN` -/
  plan : PlanSel
  /-- the coefficient design -/
  design : DesignSel
  /-- the design of the resampler's banks -/
  banks : BankSel
  /-- `NUMFMT` with `RND` -/
  fmt : NumFmt
  /-- `ATAN2_ZERO`, an angle in radians; the model's choice: one value for the build, the same at every sample
  (notes/assumptions/11.md) -/
  atan2Zero : RealNum
  /-- `QTIE` -/
  qtie : QTie
  /-- `LMAX` -/
  lmax : Option ℕ
  /-- `OUTCAP`, in bytes; no step reads it, because what a full sink does to the core is outside the spec
  (20_memory.md R44, notes/assumptions/14.md), and Safety.lean says when a sink of this size suffices -/
  outcap : Option ℕ
  deriving DecidableEq, Repr

/-- The default value of every parameter (00_scope.md R5). -/
def Build.default : Build where
  rsm := 16
  rsbw := .rat (45 / 100)
  plan := .powersOfTwo
  design := .windowedSinc
  banks := .scaledPrototype
  fmt := .exact
  atan2Zero := .rat 0
  qtie := .halfAway
  lmax := none
  outcap := none

/-- What a number format supplies to the rules: its rounding operator and its primitives
(92_eei_decisions.md D11). An argument of the stage operations, never part of a state. -/
structure Numerics where
  /-- `RND`, applied after every real primitive -/
  rnd : RealNum → RealNum
  /-- the rounding of the arithmetic of `rs_delay`, a rational number: `RND` or the identity
  (notes/assumptions/22.md) -/
  delayRnd : ℚ → ℚ
  /-- the rounding of the product `Pi · proto[j]`: `RND` or the identity (notes/assumptions/23.md) -/
  gainRnd : RealNum → RealNum
  /-- the constant `π` -/
  pi : RealNum
  /-- `sin(π·x)` as a function of `x`, the only use of `sin` (41_fir_filter.md R65) -/
  sinPi : RealNum → RealNum
  /-- `sqrt` -/
  sqrt : RealNum → RealNum
  /-- `I0`, the modified Bessel function of order zero -/
  i0 : RealNum → RealNum
  /-- `x ^ 0.4`, the only use of `pow` (10_state.md R10) -/
  pow04 : RealNum → RealNum
  /-- `2·π` in the unit in which `atan2` gives its angle -/
  fullTurn : RealNum
  /-- `atan2(y, x)`, `ATAN2_ZERO` at the origin included (43_fm_demod.md R88) -/
  atan2 : RealNum → RealNum → RealNum
  /-- a designer of taps, from `L`, `fc`, `A` and the index, in place of the formulas of 41_fir_filter.md R65 -/
  designer : Option (ℕ → RealNum → ℤ → ℕ → RealNum)
  /-- a designer of banks, from `M`, `A`, `P`, `Q` and the index, in place of the product of 42_resampler.md R74 -/
  bankDesigner : Option (ℕ → ℤ → ℕ → ℕ → ℕ → RealNum)

/-! Free constants of the exact format: the real numbers that no formula gives (notes/assumptions/1.md). -/

/-- Free: the integer part of the real number `RealNum.const id`. -/
opaque Config.constInt : ℕ → ℤ
/-- Free: the binary digits behind the point of the real number `RealNum.const id`. -/
opaque Config.constBit : ℕ → ℕ → Bool
/-- Free: the quotient by zero, which no rule reaches (93_implementation_defined.md U6). -/
opaque Config.divZero : ℚ

/-! Free constants of a finite format, one family member for each format (notes/assumptions/3.md). A number of a finite
format is rational; `RND` and the primitives may be any functions of the number they are applied to. -/

/-- Free: `RND` of a finite format. -/
opaque Config.fmtRnd : ℕ → RealNum → ℚ
/-- Free: `π` in a finite format. -/
opaque Config.fmtPi : ℕ → ℚ
/-- Free: whether a finite format applies its `RND` to the arithmetic of `rs_delay` as well, which the spec leaves open
(notes/assumptions/22.md). -/
opaque Config.fmtRoundsDelay : ℕ → Bool
/-- Free: whether a finite format applies its `RND` to the product `Pi · proto[j]`, which the spec leaves open
(notes/assumptions/23.md). -/
opaque Config.fmtRoundsGain : ℕ → Bool
/-- Free: `sin` in a finite format. -/
opaque Config.fmtSin : ℕ → RealNum → ℚ
/-- Free: `sqrt` in a finite format. -/
opaque Config.fmtSqrt : ℕ → RealNum → ℚ
/-- Free: `I0` in a finite format. -/
opaque Config.fmtI0 : ℕ → RealNum → ℚ
/-- Free: `x ^ 0.4` in a finite format. -/
opaque Config.fmtPow04 : ℕ → RealNum → ℚ
/-- Free: `atan2` in a finite format, either sign of `π` on the negative axis included
(93_implementation_defined.md U3). The model's choice: one unknown value for each format and argument, the same at every
sample (notes/assumptions/11.md). -/
opaque Config.fmtAtan2 : ℕ → RealNum → RealNum → ℚ

/-! Free constants of the other open parameters. -/

/-- Free: whether tie rule `id` takes the upper neighbour of `m + 1/2` (93_implementation_defined.md U4). -/
opaque Config.tieUp : ℕ → ℤ → Bool
/-- Free: the plan `id` gives for the ratio `P/Q` (92_eei_decisions.md D14). -/
opaque Config.plan : ℕ → ℕ → ℕ → List (ℕ × ℕ)
/-- Free: the taps of design `id`, from `L`, `fc`, `A` and the index (93_implementation_defined.md GK1): any real
numbers, `RealNum.const` among them (notes/assumptions/12.md). -/
opaque Config.designTap : ℕ → ℕ → RealNum → ℤ → ℕ → RealNum
/-- Free: the entries of the banks `id`, from `M`, `A`, `P`, `Q` and the index (92_eei_decisions.md D14): any real numbers,
independent of the taps of every design (notes/assumptions/12.md). -/
opaque Config.bankTap : ℕ → ℕ → ℤ → ℕ → ℕ → ℕ → RealNum
/-- Free: what a buffer entry outside its buffer would read as; every index is in range by construction
(20_memory.md R45), so no run reads it (notes/assumptions/6.md). -/
opaque Config.absentCoef : ℚ
/-- Free: the same for a history entry. -/
opaque Config.absentRe : ℚ
/-- Free: the same for a history entry. -/
opaque Config.absentIm : ℚ

end Sys2Proof
end

