-- ==== Sys2Proof/Machine/State.lean ====
section
/-! DEFINITION. The state of the demod core (10_state.md) as plain data, the reasons a step can stop, and the state
after reset (10_state.md R26). The block has no addressed memory (20_memory.md R30, R45): what stands for it are the two
byte streams, the register space and the stages' buffers, all fields here. -/

namespace Sys2Proof.Machine

/-- The sequencer's mode (10_state.md R11). -/
inductive Mode where
  /-- 0: after reset, configuration may be written -/
  | idle
  /-- 1: `START` succeeded, chunks are processed -/
  | run
  /-- 2: `START` found a configuration error -/
  | err
  /-- 3: end of stream was signalled -/
  | done
  deriving DecidableEq, Repr

/-- The response codes (30_encoding.md R46). -/
inductive RspCode where
  | ok | illegal | badmode | cfgerr
  deriving DecidableEq, Repr

/-- The configuration errors (60_exceptions.md R112), in the order of their codes 1 to 6. -/
inductive CfgError where
  | inrate | outrate | bandwidth | scheme | deviation | taps
  deriving DecidableEq, Repr

/-- The configuration registers (10_state.md R15), each holding a 32-bit two's-complement integer. -/
structure Cfg where
  /-- 0x00 `INRATE` -/
  inrate : RegWord
  /-- 0x01 `OUTRATE` -/
  outrate : RegWord
  /-- 0x02 `BANDWIDTH` -/
  bandwidth : RegWord
  /-- 0x03 `MODSCHEME` -/
  modscheme : RegWord
  /-- 0x04 `DEVIATION` -/
  deviation : RegWord
  /-- 0x05 `TAPS` -/
  taps : RegWord
  /-- 0x06 `ATTEN` -/
  atten : RegWord
  deriving DecidableEq, Repr

/-- The filter's coefficient set and history (10_state.md R17, R18). -/
structure FirState where
  /-- `fir_len` = `L` -/
  len : ℕ
  /-- `fir_coef[0 .. L-1]` -/
  coef : List RealNum
  /-- `fir_hist[0 .. L-1]` -/
  hist : List Cplx
  /-- `fir_head`, the index of the newest sample -/
  head : ℕ
  deriving DecidableEq, Repr

/-- One stage of the resampler cascade (10_state.md R19). -/
structure RsStage where
  /-- `rs_P[i]` -/
  p : ℕ
  /-- `rs_Q[i]` -/
  q : ℕ
  /-- `rs_coef[i][0 .. rs_P[i]·rs_M - 1]` -/
  coef : List RealNum
  /-- `rs_hist[i][0 .. rs_M - 1]` -/
  hist : List Cplx
  /-- `rs_head[i]` -/
  head : ℕ
  /-- `rs_acc[i]`, the phase accumulator -/
  acc : ℕ
  deriving DecidableEq, Repr

/-- The resampler state (10_state.md R19). -/
structure RsState where
  /-- `rs_M`, taps per branch -/
  m : ℕ
  /-- the stages, number 1 first -/
  stages : List RsStage
  /-- `rs_delay`, in input-rate samples, a rational number (42_resampler.md R80) -/
  delay : ℚ
  deriving DecidableEq, Repr

/-- `rs_ns`, the number of stages: a view of the one stored list (10_state.md R19). -/
def RsState.ns (r : RsState) : ℕ := r.stages.length

/-- The demodulator state (10_state.md R20). -/
structure FmState where
  /-- `fm_kf` -/
  kf : ℚ
  /-- `fm_prev`, or none before the first sample -/
  prev : Option Cplx
  deriving DecidableEq, Repr

/-- The flag `fm_valid`: whether the demodulator holds a previous sample (10_state.md R13 (b)). -/
def FmState.valid (f : FmState) : Bool := f.prev.isSome

/-- The objects that `START` creates and `EOS` or reset destroys (10_state.md R17 to R21, R25). -/
structure Objects where
  /-- latched `in_rate` -/
  inRate : ℤ
  /-- latched `out_rate` -/
  outRate : ℤ
  /-- latched `fir_fc` -/
  firFc : ℚ
  /-- latched `att` -/
  att : ℤ
  /-- stage 2 -/
  fir : FirState
  /-- stage 3 -/
  rs : RsState
  /-- stage 4 -/
  fm : FmState
  deriving DecidableEq, Repr

/-- An output sample (30_encoding.md R46, format `PCMW`). -/
inductive OutSample where
  /-- a word -/
  | word (v : PcmWord)
  /-- the word of `round_nearest(r)` under tie rule `t`, named by the number it is rounded from: what stands where bounds
  of `r` do not settle the integer (notes/assumptions/2.md) -/
  | rounded (t : QTie) (r : RealNum)
  deriving DecidableEq, Repr

/-- A byte of the `out` stream (10_state.md R23). Machine/OutMeaning.lean says which byte each is. -/
inductive OutByte where
  /-- a byte -/
  | byte (b : Byte)
  /-- the low byte of the word of `round_nearest(r)` under tie rule `t` -/
  | lowOf (t : QTie) (r : RealNum)
  /-- the high byte of that word -/
  | highOf (t : QTie) (r : RealNum)
  deriving DecidableEq, Repr

/-- The whole machine. -/
structure State where
  /-- the parameters of the build (00_scope.md R5): no architectural state, an argument that no step changes
  (notes/assumptions/4.md) -/
  build : Build
  /-- `mode` -/
  mode : Mode
  /-- the flag `cmderr` (10_state.md R13 (a)) -/
  cmderr : Bool
  /-- the configuration registers -/
  cfg : Cfg
  /-- 0x11 `ERRCODE` (10_state.md R16) -/
  errcode : RegWord
  /-- 0x12 `RSDELAY` (10_state.md R16) -/
  rsdelay : RegWord
  /-- the state objects, or no value (10_state.md R26) -/
  objs : Option Objects
  /-- a `PUSH` taken from `cmd` that still waits for its bytes (20_memory.md R43), with its length -/
  pushWait : Option (BitVec 32)
  /-- the `cmd` port, next word first -/
  cmdQ : List CmdWord
  /-- the `rsp` port, oldest word first -/
  rspQ : List RspWord
  /-- the `in` port, next byte first -/
  inQ : List Byte
  /-- the `out` port, oldest byte first -/
  outQ : List OutByte
  deriving DecidableEq, Repr

/-- Why the machine stops. -/
inductive Fault where
  /-- An operation reads a state object that holds no value (60_exceptions.md R125, 93_implementation_defined.md U7).
  Raised by `IQDEC` and `PUSH`; no command reaches it from reset. Safe: nothing is computed from a value that is
  not there. -/
  | noValue
  deriving DecidableEq, Repr

/-- Why the model gives a step no meaning. -/
inductive Refusal where
  /-- The instruction has no meaning in the model. Raised by no arm. Safe: nothing can be claimed of it. -/
  | notModelled (mnemonic : String)
  deriving DecidableEq, Repr

/-- What the sequencer finds when it looks for its next work (45_commands.md R97). -/
inductive Fetch where
  /-- no command word is there -/
  | idle
  /-- an illegal word was taken, leaving the state -/
  | illegal (why : DecodeError) (s : State)
  /-- a legal command was taken, or a waiting `PUSH` is resumed, leaving the state -/
  | run (i : Instr) (s : State)
  deriving DecidableEq, Repr

/-- The configuration registers after reset (10_state.md R15, R26). -/
def Cfg.reset : Cfg where
  inrate := 0
  outrate := 0
  bandwidth := 0
  modscheme := 0
  deviation := 0
  taps := 64
  atten := 70

/-- The machine right after a power-on reset with nothing queued on its ports (10_state.md R26). -/
def State.reset : State where
  build := Build.default
  mode := .idle
  cmderr := false
  cfg := Cfg.reset
  errcode := 0
  rsdelay := 0
  objs := none
  pushWait := none
  cmdQ := []
  rspQ := []
  inQ := []
  outQ := []

end Sys2Proof.Machine
end

