-- ==== Sys2Proof/Machine/Flags.lean ====
section
/-! DEFINITION. The two flags (10_state.md R13) and the status word that shows one of them (10_state.md R16). The flag
`fm_valid` is whether the demodulator holds a sample (State.lean, `FmState.valid`); `FMINIT` and `FMDEM` write it with
that sample. No arithmetic operation writes a flag. -/

namespace Sys2Proof.Machine

/-- `cmderr <- 1` (60_exceptions.md R118, R119). -/
def State.setCmderr (s : State) : State := { s with cmderr := true }

/-- The number of a mode (10_state.md R11). -/
def modeNum : Mode → BitVec 2
  | .idle => 0
  | .run => 1
  | .err => 2
  | .done => 3

/-- The contents of `STATUS`: `mode` in bits 1:0, `cmderr` in bit 2, zero above (10_state.md R16). -/
def statusWord (m : Mode) (cmderr : Bool) : RegWord := 0#29 ++ BitVec.ofBool cmderr ++ modeNum m

end Sys2Proof.Machine
end

