-- ==== Sys2Proof/Machine/Ops.lean ====
section
/-! DEFINITION. The named operations over the ports and the registers (00_scope.md R8), the three ways a command is
turned away (60_exceptions.md R115, R118, R119), each written once, and reset, the only return from them. -/

namespace Sys2Proof.Machine

/-- The number of a response code (30_encoding.md R46). -/
def rspCodeNum : RspCode → BitVec 8
  | .ok => 0x00
  | .illegal => 0x01
  | .badmode => 0x02
  | .cfgerr => 0x03

/-- A response word: `code` in bits 63:56, zero in 55:32, `value` in 31:0 (30_encoding.md R46). -/
def rspWord (c : RspCode) (value : BitVec 32) : RspWord := rspCodeNum c ++ 0#24 ++ value

/-- `Respond(code, value)` (00_scope.md R8). -/
def State.respond (s : State) (c : RspCode) (value : BitVec 32) : State :=
  { s with rspQ := s.rspQ ++ [rspWord c value] }

/-- The bytes `InRead(n)` returns (00_scope.md R8). -/
def State.inTake (s : State) (n : ℕ) : List Byte := s.inQ.take n

/-- What `InRead(n)` leaves on the `in` port: the read is consuming (20_memory.md R37). -/
def State.inDrop (s : State) (n : ℕ) : State := { s with inQ := s.inQ.drop n }

/-- Whether the `in` port holds `n` bytes (20_memory.md R43). -/
def State.inReady (s : State) (n : ℕ) : Bool := decide (n ≤ s.inQ.length)

/-- `OutWrite(b0, b1, ...)`: appends, never truncates (20_memory.md R44). -/
def State.outWrite (s : State) (bs : List OutByte) : State := { s with outQ := s.outQ ++ bs }

/-- `mode <- m` -/
def State.setMode (s : State) (m : Mode) : State := { s with mode := m }

/-- The state objects become `o` (10_state.md R25). -/
def State.setObjs (s : State) (o : Option Objects) : State := { s with objs := o }

/-- The core holds a `PUSH` of `len` bytes until they are there (20_memory.md R43). -/
def State.holdPush (s : State) (len : BitVec 32) : State := { s with pushWait := some len }

/-- `cfg[r]` as 32 bits, for every assigned register (45_commands.md R100). -/
def State.readReg (s : State) : Reg → RegWord
  | .inrate => s.cfg.inrate
  | .outrate => s.cfg.outrate
  | .bandwidth => s.cfg.bandwidth
  | .modscheme => s.cfg.modscheme
  | .deviation => s.cfg.deviation
  | .taps => s.cfg.taps
  | .atten => s.cfg.atten
  | .status => statusWord s.mode s.cmderr
  | .errcode => s.errcode
  | .rsdelay => s.rsdelay

/-- `cfg[r] <- v`; a status register is read-only (10_state.md R16) and keeps its contents. -/
def Cfg.write (c : Cfg) (r : Reg) (v : RegWord) : Cfg :=
  match r with
  | .inrate => { c with inrate := v }
  | .outrate => { c with outrate := v }
  | .bandwidth => { c with bandwidth := v }
  | .modscheme => { c with modscheme := v }
  | .deviation => { c with deviation := v }
  | .taps => { c with taps := v }
  | .atten => { c with atten := v }
  | .status | .errcode | .rsdelay => c

/-- `cfg[r] <- v` on the machine. -/
def State.writeReg (s : State) (r : Reg) (v : RegWord) : State := { s with cfg := s.cfg.write r v }

/-- The code of a configuration error (60_exceptions.md R112). -/
def cfgErrorCode : CfgError → RegWord
  | .inrate => 1
  | .outrate => 2
  | .bandwidth => 3
  | .scheme => 4
  | .deviation => 5
  | .taps => 6

/-- `raise CfgError(e)`: exactly the entry of 60_exceptions.md R115. -/
def State.raiseCfgError (s : State) (e : CfgError) : State :=
  ({ s with errcode := cfgErrorCode e, mode := .err }).respond .cfgerr (cfgErrorCode e)

/-- An illegal command (60_exceptions.md R118). -/
def State.illegalCommand (s : State) : State := s.setCmderr.respond .illegal 0

/-- A legal command in a mode that does not allow it (60_exceptions.md R119). -/
def State.badMode (s : State) : State := s.setCmderr.respond .badmode 0

/-- Reset (70_reset_and_hazards.md R126, R127): every register and flag at its reset value, every state object without
a value, the core between commands; the ports keep what they hold (10_state.md R26). The only way out of `ERR` and
`DONE` (60_exceptions.md R117). -/
def State.resetCore (s : State) : State :=
  { State.reset with build := s.build, cmdQ := s.cmdQ, rspQ := s.rspQ, inQ := s.inQ, outQ := s.outQ }

/-- Which command is allowed in which mode (45_commands.md R108). An input sample is no command and is not checked. -/
def allowedIn (i : Instr) (m : Mode) : Bool :=
  match i with
  | .reset => true
  | .cfgrd _ => true
  | .cfgwr _ _ => decide (m = .idle)
  | .start => decide (m = .idle)
  | .push _ => decide (m = .run)
  | .eos => decide (m = .run)
  | .iqdec _ _ => true

/-- Step (2) of 45_commands.md R97: a command not allowed in the current mode is turned away, else it has its effect. -/
def guardMode (i : Instr) (s : State) (effect : Host.Outcome State Fault Refusal) : Host.Outcome State Fault Refusal :=
  if allowedIn i s.mode then effect else .next s.badMode

end Sys2Proof.Machine
end

