-- ==== Sys2Proof/Machine/Reals.lean ====
section
/-! DEFINITION. The real arithmetic of the exact format (00_scope.md R6, 45_commands.md R110): every operation builds the
term of its exact result, a rational one where it is known to be rational. Nothing is decided about a number that is not
rational: a case distinction becomes part of the term. -/

namespace Sys2Proof

/-- `a + b` -/
def RealNum.plus : RealNum → RealNum → RealNum
  | .rat p, .rat q => .rat (p + q)
  | a, b => if a = .rat 0 then b else if b = .rat 0 then a else .add a b

/-- `a - b` -/
def RealNum.minus : RealNum → RealNum → RealNum
  | .rat p, .rat q => .rat (p - q)
  | a, b => if b = .rat 0 then a else .sub a b

/-- `a · b` -/
def RealNum.times : RealNum → RealNum → RealNum
  | .rat p, .rat q => .rat (p * q)
  | a, b => if a = .rat 0 ∨ b = .rat 0 then .rat 0 else .mul a b

/-- `a / b` -/
def RealNum.over : RealNum → RealNum → RealNum
  | .rat p, .rat q => if q = 0 then .div (.rat p) (.rat q) else .rat (p / q)
  | a, b => .div a b

/-- `-a` -/
def RealNum.negate : RealNum → RealNum
  | .rat p => .rat (-p)
  | a => .neg a

/-- `max(0, a)` -/
def RealNum.atLeastZero : RealNum → RealNum
  | .rat p => .rat (max 0 p)
  | a => .posPart a

/-- The clamp to the closed interval `[-1, 1]` (44_quantizer.md R93). -/
def clampUnit {K : Type*} [Ring K] [LinearOrder K] (x : K) : K := if x < -1 then -1 else if 1 < x then 1 else x

/-- The clamp to the closed interval `[-1, 1]`: `-1` where `a < -1`, `1` where `a > 1`, else `a`. -/
def RealNum.clamped : RealNum → RealNum
  | .rat q => .rat (clampUnit q)
  | a => .clamp a

/-- `a` where `c = 0`, else `b`. -/
def RealNum.whenZero (c a b : RealNum) : RealNum :=
  match c with
  | .rat q => if q = 0 then a else b
  | c => .ifZero c a b

/-- `sin(π·r)` for the `0 <= r < 2` where it is rational. -/
def sinPiRational (r : ℚ) : Option ℚ :=
  if r = 0 ∨ r = 1 then some 0
  else if r = 1 / 2 then some 1
  else if r = 3 / 2 then some (-1)
  else if r = 1 / 6 ∨ r = 5 / 6 then some (1 / 2)
  else if r = 7 / 6 ∨ r = 11 / 6 then some (-1 / 2)
  else none

/-- `sin(π·x)` -/
def RealNum.sineOfPi : RealNum → RealNum
  | .rat q =>
    match sinPiRational (q - 2 * ⌊q / 2⌋) with
    | some v => .rat v
    | none => .sinPi (.rat q)
  | x => .sinPi x

/-- The natural square root of a perfect square. -/
def natRoot (n : ℕ) : Option ℕ := if n.sqrt * n.sqrt = n then some n.sqrt else none

/-- The square root of a rational where it is rational. -/
def rootRational (q : ℚ) : Option ℚ :=
  if q < 0 then none
  else
    match natRoot q.num.natAbs, natRoot q.den with
    | some a, some b => some ((a : ℚ) / b)
    | _, _ => none

/-- `sqrt x` -/
def RealNum.root : RealNum → RealNum
  | .rat q =>
    match rootRational q with
    | some v => .rat v
    | none => .sqrt (.rat q)
  | x => .sqrt x

/-- `I0 x` -/
def RealNum.bessel (x : RealNum) : RealNum := if x = .rat 0 then .rat 1 else .i0 x

/-- `x ^ 0.4` -/
def RealNum.toThe04 (x : RealNum) : RealNum := if x = .rat 0 ∨ x = .rat 1 then x else .pow04 x

/-- The angle in turns of a rational direction on an axis or a diagonal (43_fm_demod.md R91). -/
def turnsRational (y x : ℚ) : Option ℚ :=
  if y = 0 then (if 0 < x then some 0 else some (1 / 2))
  else if x = 0 then (if 0 < y then some (1 / 4) else some (-1 / 4))
  else if y = x then (if 0 < y then some (1 / 8) else some (-3 / 8))
  else if y = -x then (if 0 < y then some (3 / 8) else some (-1 / 8))
  else none

/-- `atan2(y, x) / (2π)`, where `atan2(0, 0)` is `zero` (43_fm_demod.md R88, R91). -/
def RealNum.angleTurns (zero y x : RealNum) : RealNum :=
  match y, x with
  | .rat p, .rat q =>
    if p = 0 ∧ q = 0 then (if zero = .rat 0 then .rat 0 else .div zero (.mul (.rat 2) .pi))
    else
      match turnsRational p q with
      | some v => .rat v
      | none => .turns (.rat p) (.rat q) zero
  | y, x => .turns y x zero

end Sys2Proof
end

