-- ==== Sys2Proof/Machine/Numerics.lean ====
section
/-! DEFINITION. Real arithmetic (45_commands.md R110): the primitives of a number format, each followed by `RND` in the
order the pseudocode writes them (00_scope.md R6), complex arithmetic lane by lane (00_scope.md R7), and the two number
formats of a build. -/

namespace Sys2Proof

/-- `RND(a + b)` -/
def Numerics.add (N : Numerics) (a b : RealNum) : RealNum := N.rnd (a.plus b)
/-- `RND(a - b)` -/
def Numerics.sub (N : Numerics) (a b : RealNum) : RealNum := N.rnd (a.minus b)
/-- `RND(a · b)` -/
def Numerics.mul (N : Numerics) (a b : RealNum) : RealNum := N.rnd (a.times b)
/-- `RND(a / b)` -/
def Numerics.div (N : Numerics) (a b : RealNum) : RealNum := N.rnd (a.over b)
/-- `RND(-a)` -/
def Numerics.neg (N : Numerics) (a : RealNum) : RealNum := N.rnd a.negate

/-- `a + b` for complex numbers (00_scope.md R7). -/
def Numerics.cadd (N : Numerics) (a b : Cplx) : Cplx := ⟨N.add a.re b.re, N.add a.im b.im⟩

/-- `c · a` for a real `c` (00_scope.md R7). -/
def Numerics.cscale (N : Numerics) (c : RealNum) (a : Cplx) : Cplx := ⟨N.mul c a.re, N.mul c a.im⟩

/-- `a · b` for complex numbers (00_scope.md R7). -/
def Numerics.cmul (N : Numerics) (a b : Cplx) : Cplx :=
  ⟨N.sub (N.mul a.re b.re) (N.mul a.im b.im), N.add (N.mul a.re b.im) (N.mul a.im b.re)⟩

/-- `conj(a)` (00_scope.md R7). -/
def Numerics.conj (N : Numerics) (a : Cplx) : Cplx := ⟨a.re, N.neg a.im⟩

/-- `sinc(x) = 1 if x = 0, else sin(π·x)/(π·x)` (41_fir_filter.md R65). -/
def Numerics.sinc (N : Numerics) (x : RealNum) : RealNum :=
  x.whenZero (.rat 1) (N.div (N.rnd (N.sinPi x)) (N.mul N.pi x))

/-- `atan2(y, x)` over all points, the origin included (43_fm_demod.md R88). -/
def Numerics.angle (N : Numerics) (y x : RealNum) : RealNum := N.rnd (N.atan2 y x)

namespace Machine

/-- The exact format (92_eei_decisions.md D11, default): `RND` is the identity, angles are counted in turns, the form
43_fm_demod.md R91 gives. -/
def exactNumerics (atan2Zero : RealNum) : Numerics where
  rnd := fun x => x
  delayRnd := fun x => x
  gainRnd := fun x => x
  pi := .pi
  sinPi := RealNum.sineOfPi
  sqrt := RealNum.root
  i0 := RealNum.bessel
  pow04 := RealNum.toThe04
  fullTurn := .rat 1
  atan2 := RealNum.angleTurns atan2Zero
  designer := none
  bankDesigner := none

/-- A finite format: its numbers are rational, its rounding and every primitive are free; the products `π·x` and `2·π`
are rounded like any other real operation (00_scope.md R6). -/
def finiteNumerics (id : ℕ) (atan2Zero : RealNum) : Numerics :=
  let rnd (x : RealNum) : RealNum := .rat (Config.fmtRnd id x)
  { rnd := rnd
    delayRnd := if Config.fmtRoundsDelay id then fun q => Config.fmtRnd id (.rat q) else fun q => q
    gainRnd := if Config.fmtRoundsGain id then rnd else fun x => x
    pi := .rat (Config.fmtPi id)
    sinPi := fun x => .rat (Config.fmtSin id (rnd ((RealNum.rat (Config.fmtPi id)).times x)))
    sqrt := fun x => .rat (Config.fmtSqrt id x)
    i0 := fun x => .rat (Config.fmtI0 id x)
    pow04 := fun x => .rat (Config.fmtPow04 id x)
    fullTurn := rnd (.rat (2 * Config.fmtPi id))
    atan2 := fun y x => y.whenZero (x.whenZero atan2Zero (.rat (Config.fmtAtan2 id y x))) (.rat (Config.fmtAtan2 id y x))
    designer := none
    bankDesigner := none }

/-- The arithmetic of a number format. -/
def formatNumerics (f : NumFmt) (atan2Zero : RealNum) : Numerics :=
  match f with
  | .exact => exactNumerics atan2Zero
  | .finite id => finiteNumerics id atan2Zero

/-- The designer a build puts in place of the formulas of 41_fir_filter.md R65, if any: its taps are any real numbers, as
10_state.md R17 has them (the form of an alternative is the model's choice: notes/assumptions/12.md). -/
def designerOf (d : DesignSel) : Option (ℕ → RealNum → ℤ → ℕ → RealNum) :=
  match d with
  | .windowedSinc => none
  | .other id => some (Config.designTap id)

/-- The designer a build puts in place of the product of 42_resampler.md R74, if any: its entries are any real numbers
(92_eei_decisions.md D14; the form of an alternative is the model's choice: notes/assumptions/12.md). -/
def bankDesignerOf (d : BankSel) : Option (ℕ → ℤ → ℕ → ℕ → ℕ → RealNum) :=
  match d with
  | .scaledPrototype => none
  | .other id => some (Config.bankTap id)

/-- The numerics of a build: the arithmetic of its format and its coefficient designs. -/
def numericsOf (b : Build) : Numerics :=
  { formatNumerics b.fmt b.atan2Zero with designer := designerOf b.design, bankDesigner := bankDesignerOf b.banks }

/-- The entry `k` of a coefficient memory; every index is in range by construction (20_memory.md R45 (d)). -/
def coefAt (g : List RealNum) (k : ℕ) : RealNum := g.getD k (.rat Config.absentCoef)

/-- The entry `k` of a history; every index is in range by construction (20_memory.md R45 (d)). -/
def histAt (h : List Cplx) (k : ℕ) : Cplx := h.getD k ⟨.rat Config.absentRe, .rat Config.absentIm⟩

/-- `(head + 1) mod n`, where a circular buffer of `n` entries puts its next sample (20_memory.md R45 (d)). -/
def headNext (head n : ℕ) : ℕ := (head + 1) % n

/-- `(head - k) mod n` with the non-negative `mod` of 00_scope.md R6: the entry `k` places back. -/
def headBack (head k n : ℕ) : ℕ := ((((head : ℤ) - (k : ℤ)) % (n : ℤ))).toNat

/-- `Σ_{k < n} g[φ + k·stride] · h[(head - k) mod n]`, accumulated in ascending `k` from `0 + j·0`: the loop that
41_fir_filter.md R68 and 42_resampler.md R76 share. -/
def dotProduct (N : Numerics) (g : List RealNum) (φ stride : ℕ) (h : List Cplx) (head n : ℕ) : Cplx :=
  (List.range n).foldl
    (fun y k => N.cadd y (N.cscale (coefAt g (φ + k * stride)) (histAt h (headBack head k n)))) Cplx.zero

end Machine
end Sys2Proof
end

