-- ==== Sys2Proof/Machine/FmDemod.lean ====
section
/-! DEFINITION. Stage 4, the FM demodulator (43_fm_demod.md): `FMINIT` and one sample `FMDEM`. -/

namespace Sys2Proof.Machine

/-- `FMINIT`: `fm_kf <- DEVIATION / out_rate`, an exact quotient, and no previous sample (43_fm_demod.md R86). -/
def fmInit (deviation outRate : ℤ) : FmState where
  kf := (deviation : ℚ) / outRate
  prev := none

/-- The sample `FMDEM` compares with: the one it holds, or the zero-phase `1 + j·0` (43_fm_demod.md R87, R89). -/
def fmPrevious (f : FmState) : Cplx := f.prev.getD Cplx.one

/-- The phase step `d` from the previous sample (43_fm_demod.md R87). -/
def phaseStep (N : Numerics) (prev s : Cplx) : RealNum :=
  let z := N.cmul s (N.conj prev)
  N.angle z.im z.re

/-- `x = d / (2π·fm_kf)` (43_fm_demod.md R87). -/
def fmScale (N : Numerics) (kf : ℚ) (d : RealNum) : RealNum := N.div d (N.mul N.fullTurn (.rat kf))

/-- `FMDEM`: one sample in, one demodulated number out (43_fm_demod.md R87). -/
def fmDem (N : Numerics) (f : FmState) (s : Cplx) : FmState × RealNum :=
  ({ f with prev := some s }, fmScale N f.kf (phaseStep N (fmPrevious f) s))

/-- `FMDEM` over the outputs of the resampler, in order (45_commands.md R102). -/
def fmDemAll (N : Numerics) : FmState → List Cplx → FmState × List RealNum
  | f, [] => (f, [])
  | f, s :: rest =>
    let r := fmDem N f s
    let t := fmDemAll N r.1 rest
    (t.1, r.2 :: t.2)

end Sys2Proof.Machine
end

