-- ==== Sys2Proof/Machine/IqDecoder.lean ====
section
/-! DEFINITION. Stage 1, the IQ decoder (40_iq_decoder.md). It owns no state (10_state.md R22). -/

namespace Sys2Proof.Machine

/-- `IQDEC` on the two fields of a sample word: each coordinate divided by 32768, both divisions exact
(40_iq_decoder.md R60). -/
def iqSample (i q : BitVec 16) : Cplx := ⟨.rat (sext16 i / 32768), .rat (sext16 q / 32768)⟩

/-- The framing of `IQDECODE` (40_iq_decoder.md R61): the whole samples of a chunk in the order of their bytes; the 0
to 3 bytes that complete no sample are dropped. -/
def iqWords : List Byte → List IqWord
  | b0 :: b1 :: b2 :: b3 :: rest => iqOfBytes b0 b1 b2 b3 :: iqWords rest
  | _ => []

/-- `IQDECODE`: the samples of a chunk (40_iq_decoder.md R61). -/
def iqDecode (bs : List Byte) : List Cplx := (iqWords bs).map fun w => iqSample (iqI w) (iqQ w)

end Sys2Proof.Machine
end

