-- ==== Sys2Proof/Machine/Primitives.lean ====
section
/-! DEFINITION. Rational values near the real primitives `π`, `sin`, `sqrt`, `I0`, `x ^ 0.4` and `atan2`
(41_fir_filter.md R65, R66; 43_fm_demod.md R88), as near as one likes with growing `b`. Only the bounds of
Machine/Enclosure.lean use them: no datapath number is replaced by one. -/

namespace Sys2Proof.Machine

/-- A rational cut to `b` fraction bits. -/
def cut (b : ℕ) (x : ℚ) : ℚ := ⌊x * 2 ^ b⌋ / 2 ^ b

/-- The sum of a series from its term `t` of index `k` on: `n` terms, each the rounded product of the one before with
`ratio k`, and `rest` of the term behind them. -/
def seriesSum (round : ℚ → ℚ) (ratio : ℕ → ℚ) (rest : ℚ → ℚ) : ℕ → ℕ → ℚ → ℚ
  | 0, _, t => rest t
  | n + 1, k, t => t + seriesSum round ratio rest n (k + 1) (round (t * ratio k))

/-- `atan a` near 0: `Σ (-1)^k · a^(2k+1) / (2k+1)`. -/
def atanApprox (b : ℕ) (a : ℚ) : ℚ :=
  seriesSum (cut (b + 1)) (fun k => -(a * a) * (2 * k + 1 : ℕ) / (2 * k + 3 : ℕ)) (fun _ => 0) (b + 1) 0 a

/-- `π = 16·atan(1/5) - 4·atan(1/239)`. -/
def piApprox (b : ℕ) : ℚ := 16 * atanApprox b (1 / 5) - 4 * atanApprox b (1 / 239)

/-- `sin a = Σ (-1)^k · a^(2k+1) / (2k+1)!` -/
def sinApprox (b : ℕ) (a : ℚ) : ℚ :=
  seriesSum (cut (b + 2)) (fun k => -(a * a) / ((2 * k + 2) * (2 * k + 3) : ℕ)) (fun _ => 0) (b + 2) 0 a

/-- `sin(π·x)`: the period 2 is taken off first. -/
def sinPiApprox (b : ℕ) (x : ℚ) : ℚ := sinApprox b (cut b (piApprox b * (x - 2 * ⌊x / 2 + 1 / 2⌋)))

/-- The ratio of the terms of `I0(x) = Σ ((x/2)^m / m!)²` (41_fir_filter.md R65). -/
def i0Ratio (x : ℚ) (m : ℕ) : ℚ := x * x / 4 / ((m + 1) * (m + 1) : ℕ)

/-- How many terms of the series of `I0` are summed: enough for them to have become small. -/
def i0Terms (b : ℕ) (x : ℚ) : ℕ := b + 2 * ⌈|x|⌉.toNat

/-- At most `I0 x`: the terms rounded down, the rest of the series left out. -/
def i0Low (b : ℕ) (x : ℚ) : ℚ := seriesSum (cut b) (i0Ratio x) (fun _ => 0) (i0Terms b x) 0 1

/-- At least `I0 x`: the terms rounded up, and twice the first term of the rest. -/
def i0High (b : ℕ) (x : ℚ) : ℚ := seriesSum (fun t => -cut b (-t)) (i0Ratio x) (fun t => 2 * t) (i0Terms b x) 0 1

/-- `sqrt x`, 0 for a negative `x`. -/
def sqrtApprox (b : ℕ) (x : ℚ) : ℚ := (⌊x * 4 ^ b⌋.toNat.sqrt : ℕ) / 2 ^ b

/-- The largest `r + (sum of powers of two below 2^bits)` whose fifth power is at most `goal`. -/
def fifthRootFrom : ℕ → ℕ → ℕ → ℕ
  | 0, _, r => r
  | bits + 1, goal, r => fifthRootFrom bits goal (if (r + 2 ^ bits) ^ 5 ≤ goal then r + 2 ^ bits else r)

/-- The fifth root of a natural number, rounded down. -/
def fifthRoot (goal : ℕ) : ℕ := fifthRootFrom (Nat.log2 goal / 5 + 1) goal 0

/-- `x ^ 0.4` of `x >= 0`, the fifth root of `x²`. -/
def pow04Approx (b : ℕ) (x : ℚ) : ℚ := (fifthRoot ⌊x * x * 32 ^ b⌋.toNat : ℕ) / 2 ^ b

/-- The tangent of half the angle whose tangent is `t`. -/
def halfTangent (b : ℕ) (t : ℚ) : ℚ := cut b (t / (1 + sqrtApprox b (1 + t * t)))

/-- The angle of the direction `(1, t)` in turns, for `0 <= t <= 1`: twice halved, then the series. -/
def octantApprox (b : ℕ) (t : ℚ) : ℚ :=
  4 * atanApprox b (halfTangent b (halfTangent b (cut b t))) / (2 * piApprox b)

/-- The angle in turns of a direction `(x, y)` of the closed first quadrant. -/
def quadrantApprox (b : ℕ) (y x : ℚ) : ℚ :=
  if y ≤ x then octantApprox b (y / x) else 1 / 4 - octantApprox b (x / y)

/-- `atan2(y, x) / (2π)` away from the origin, `1/2` on the negative real axis (43_fm_demod.md R88, R91). -/
def turnsApprox (b : ℕ) (y x : ℚ) : ℚ :=
  let a := if 0 ≤ x then quadrantApprox b |y| x else 1 / 2 - quadrantApprox b |y| (-x)
  cut b (if 0 ≤ y then a else -a)

end Sys2Proof.Machine
end

