-- ==== Sys2Proof/Machine/Enclosure.lean ====
section
/-! DEFINITION. Bounds of a real number, computed from the term that names it: a closed interval of rationals in which it
lies (Laws/Enclosure.lean proves that it does). The quantizer reads an output integer off such an interval where both ends
agree on it, and so never decides anything about a number that the number itself does not settle
(notes/assumptions/2.md). -/

namespace Sys2Proof

open Machine

/-- A closed interval of real numbers with rational ends. -/
structure Interval where
  /-- the lower end -/
  lo : ℚ
  /-- the upper end -/
  hi : ℚ
  deriving DecidableEq, Repr

/-- The fraction bits that leave a rational some `b` significant bits. -/
def significantBits (b : ℕ) (x : ℚ) : ℕ := b + Nat.log2 x.den - Nat.log2 x.num.natAbs

/-- A rational at most `x` with some `b` significant bits. -/
def cutDown (b : ℕ) (x : ℚ) : ℚ := cut (significantBits b x) x

/-- A rational at least `x` with some `b` significant bits. -/
def cutUp (b : ℕ) (x : ℚ) : ℚ := -cutDown b (-x)

/-- The interval with its ends moved outward to short rationals. -/
def Interval.outward (b : ℕ) (i : Interval) : Interval := ⟨cutDown b i.lo, cutUp b i.hi⟩

/-- `c - r` to `c + r`. -/
def Interval.around (c r : ℚ) : Interval := ⟨c - r, c + r⟩

/-- The sums of two intervals. -/
def Interval.plus (i j : Interval) : Interval := ⟨i.lo + j.lo, i.hi + j.hi⟩

/-- The negatives of an interval. -/
def Interval.negate (i : Interval) : Interval := ⟨-i.hi, -i.lo⟩

/-- The products of two intervals: the extremes are at the ends. -/
def Interval.times (i j : Interval) : Interval :=
  ⟨min (min (i.lo * j.lo) (i.lo * j.hi)) (min (i.hi * j.lo) (i.hi * j.hi)),
    max (max (i.lo * j.lo) (i.lo * j.hi)) (max (i.hi * j.lo) (i.hi * j.hi))⟩

/-- Whether the interval has only numbers of one sign, 0 not among them. -/
def Interval.awayFromZero (i : Interval) : Bool := decide (0 < i.lo ∨ i.hi < 0)

/-- The inverses of an interval that is away from 0. -/
def Interval.inverse (i : Interval) : Interval := ⟨1 / i.hi, 1 / i.lo⟩

/-- The interval of `π`. -/
def piBounds (b : ℕ) : Interval := .around (piApprox b) (20 * (b + 2) / 2 ^ b)

/-- The interval of `sin(π·x)`, which moves at most four times as far as `x`. -/
def sinPiBounds (b : ℕ) (x : Interval) : Interval :=
  .around (sinPiApprox b x.lo) ((21 * b + 590531) / 2 ^ b + 4 * (x.hi - x.lo))

/-- The interval of `sqrt x`. -/
def sqrtBounds (b : ℕ) (x : Interval) : Interval :=
  ⟨max 0 (sqrtApprox b x.lo - 2 / 2 ^ b), sqrtApprox b x.hi + 2 / 2 ^ b⟩

/-- The interval of `x ^ 0.4` over non-negative numbers. -/
def pow04Bounds (b : ℕ) (x : Interval) : Option Interval :=
  if 0 ≤ x.lo then some ⟨max 0 (pow04Approx b x.lo - 2 / 2 ^ b), pow04Approx b x.hi + 2 / 2 ^ b⟩ else none

/-- The interval of `I0 x` over non-negative numbers up to 256: a longer series is not summed. -/
def i0Bounds (b : ℕ) (x : Interval) : Option Interval :=
  if 0 ≤ x.lo ∧ x.hi ≤ 256 then some ⟨i0Low b x.lo, i0High b x.hi⟩ else none

/-- The interval of the angle in turns of the directions `(1, t)`. -/
def slopeBounds (b : ℕ) (t : Interval) : Interval :=
  ⟨turnsApprox b t.lo 1 - (10 * b + 61) / 2 ^ b, turnsApprox b t.hi 1 + (10 * b + 61) / 2 ^ b⟩

/-- The interval of `atan2(y, x) / (2π)` where the directions `(x, y)` stay right, above or below of both the origin and
the negative real axis, or on that axis. -/
def turnsBounds (b : ℕ) (y x : Interval) : Option Interval :=
  if 0 < x.lo then some (slopeBounds b ((y.times x.inverse).outward b))
  else if 0 < y.lo then some ((Interval.around (1 / 4) 0).plus (slopeBounds b ((x.times y.inverse).outward b)).negate)
  else if y.hi < 0 then some ((Interval.around (-1 / 4) 0).plus (slopeBounds b ((x.times y.inverse).outward b)).negate)
  else if y.lo = 0 ∧ y.hi = 0 ∧ x.hi < 0 then some (.around (1 / 2) 0)
  else none

/-- An interval in which the real number of a term lies, with some `b` bits, or none where the bounds do not settle a case
of the term (a quotient by a number that may be 0, an angle that may be that of the origin). A number whose digits are free
has none. -/
def RealNum.enclose (b : ℕ) : RealNum → Option Interval
  | .rat q => some ⟨q, q⟩
  | .const _ => none
  | .pi => some (piBounds b)
  | .add x y => do
    let i ← x.enclose b
    let j ← y.enclose b
    return (i.plus j).outward b
  | .sub x y => do
    let i ← x.enclose b
    let j ← y.enclose b
    return (i.plus j.negate).outward b
  | .mul x y => do
    let i ← x.enclose b
    let j ← y.enclose b
    return (i.times j).outward b
  | .div x y => do
    let i ← x.enclose b
    let j ← y.enclose b
    if j.awayFromZero then some ((i.times j.inverse).outward b) else none
  | .neg x => do
    let i ← x.enclose b
    return i.negate
  | .posPart x => do
    let i ← x.enclose b
    return ⟨max 0 i.lo, max 0 i.hi⟩
  | .clamp x => do
    let i ← x.enclose b
    return ⟨clampUnit i.lo, clampUnit i.hi⟩
  | .sinPi x => do
    let i ← x.enclose b
    return (sinPiBounds b i).outward b
  | .sqrt x => do
    let i ← x.enclose b
    return sqrtBounds b i
  | .i0 x => do
    let i ← x.enclose b
    let j ← i0Bounds b i
    return j.outward b
  | .pow04 x => do
    let i ← x.enclose b
    pow04Bounds b i
  | .turns y x _ => do
    let i ← y.enclose b
    let j ← x.enclose b
    turnsBounds b i j
  | .ifZero c _ y => do
    let i ← c.enclose b
    if i.awayFromZero then y.enclose b else none

end Sys2Proof
end

