-- ==== Sys2Proof/Machine/Quantizer.lean ====
section
/-! DEFINITION. Stage 5, the output quantizer (44_quantizer.md). It owns no state (10_state.md R22). The clamp and the
rounding are exact (45_commands.md R110): they are written once for any ordered field, so that they are the same function on
the rational numbers the machine computes with and on the real numbers its terms name. -/

namespace Sys2Proof.Machine

/-- Whether a tie at `m + 1/2` goes to `m + 1` (44_quantizer.md R94). -/
def tieGoesUp (t : QTie) (m : ℤ) : Bool :=
  match t with
  | .halfAway => decide (0 ≤ m)
  | .halfEven => decide (m % 2 ≠ 0)
  | .other id => Config.tieUp id m

/-- `round_nearest(r)`: the nearest integer, a tie by the build's rule (44_quantizer.md R94). -/
def roundNearest {K : Type*} [Field K] [LinearOrder K] [FloorRing K] (t : QTie) (r : K) : ℤ :=
  let m := ⌊r⌋
  if r < m + 1 / 2 then m else if m + 1 / 2 < r then m + 1 else if tieGoesUp t m then m + 1 else m

/-- The integer `k` of 44_quantizer.md R93 for `r = c · 32767`, inside `-32767 .. 32767` whatever the format's `RND`
(R96, notes/assumptions/13.md). -/
def quantInt {K : Type*} [Field K] [LinearOrder K] [FloorRing K] (t : QTie) (r : K) : ℤ :=
  max (-32767) (min 32767 (roundNearest t r))

/-- `c · 32767`, where `c` is the number clamped to `[-1, 1]` (44_quantizer.md R93). -/
def scaledUnit (N : Numerics) (x : RealNum) : RealNum := N.mul x.clamped (.rat 32767)

/-- How many bits the bounds have. No word depends on it: it says only which are written out (notes/assumptions/2.md). -/
def boundBits : ℕ := 128

/-- The output sample of a number to be rounded: the word, where the bounds of the number have the same integer at both ends
(a rational number is its own bounds), else the number itself stands for its word. -/
def roundedSample (t : QTie) (r : RealNum) : OutSample :=
  match r.enclose boundBits with
  | some i => if quantInt t i.lo = quantInt t i.hi then .word (enc16 (quantInt t i.lo)) else .rounded t r
  | none => .rounded t r

/-- `QUANT`: the output sample of one demodulated number (44_quantizer.md R93). -/
def quant (N : Numerics) (t : QTie) (x : RealNum) : OutSample := roundedSample t (scaledUnit N x)

/-- The two bytes `OutWrite` gets for an output sample, low byte first (44_quantizer.md R93, R95). -/
def OutSample.bytes : OutSample → List OutByte
  | .word v => (pcmBytes v).map .byte
  | .rounded t r => [.lowOf t r, .highOf t r]

end Sys2Proof.Machine
end

