-- ==== Sys2Proof/Machine/FirFilter.lean ====
section
/-! DEFINITION. Stage 2, the anti-alias low-pass filter (41_fir_filter.md): its design `FIRDSN` and one sample
`FIRSTEP`. -/

namespace Sys2Proof.Machine

/-- The Kaiser shape parameter of an attenuation of `A` dB (41_fir_filter.md R66). -/
def kaiserBeta (N : Numerics) (A : ℤ) : RealNum :=
  if 50 < A then N.mul (.rat (1102 / 10000)) (N.sub (.rat A) (.rat (87 / 10)))
  else if 21 ≤ A then
    N.add (N.mul (.rat (5842 / 10000)) (N.rnd (N.pow04 (N.sub (.rat A) (.rat 21)))))
      (N.mul (.rat (7886 / 100000)) (N.sub (.rat A) (.rat 21)))
  else .rat 0

/-- The argument of the Kaiser window's square root, clamped at 0 (41_fir_filter.md R65). -/
def kaiserArg (N : Numerics) (L n : ℕ) : RealNum :=
  let u := N.sub (N.div (.rat (2 * n)) (.rat (L - 1))) (.rat 1)
  (N.sub (.rat 1) (N.mul u u)).atLeastZero

/-- The Kaiser window `w[n]` of length `L` (41_fir_filter.md R65). -/
def kaiserWindow (N : Numerics) (L : ℕ) (A : ℤ) (n : ℕ) : RealNum :=
  if L = 1 then .rat 1
  else
    let β := kaiserBeta N A
    N.div (N.rnd (N.i0 (N.mul β (N.rnd (N.sqrt (kaiserArg N L n)))))) (N.rnd (N.i0 β))

/-- The centred sinc prototype `p[n]` (41_fir_filter.md R65). -/
def sincPrototype (N : Numerics) (L : ℕ) (fc : RealNum) (n : ℕ) : RealNum :=
  let t := N.sub (.rat n) (N.div (.rat (L - 1)) (.rat 2))
  N.sinc (N.mul (N.mul (.rat 2) fc) t)

/-- `fir_coef[n]` (41_fir_filter.md R65). -/
def firTap (N : Numerics) (L : ℕ) (fc : RealNum) (A : ℤ) (n : ℕ) : RealNum :=
  N.mul (N.mul (N.mul (.rat 2) fc) (sincPrototype N L fc n)) (kaiserWindow N L A n)

/-- `FIRDSN`: the coefficient set of `L` taps, cutoff `fc`, attenuation `A` (41_fir_filter.md R65), by the formulas
above or by the build's own designer (93_implementation_defined.md GK1), whose taps are free real numbers, rounded into the
format (the model's choice: notes/assumptions/12.md). -/
def firDesign (N : Numerics) (L : ℕ) (fc : RealNum) (A : ℤ) : List RealNum :=
  (List.range L).map
    (match N.designer with
    | none => firTap N L fc A
    | some tap => fun n => N.rnd (tap L fc A n))

/-- The filter right after `START`: designed coefficients, zero history, head at `L - 1` (45_commands.md R101). -/
def firInit (N : Numerics) (L : ℕ) (fc : RealNum) (A : ℤ) : FirState where
  len := L
  coef := firDesign N L fc A
  hist := List.replicate L Cplx.zero
  head := L - 1

/-- The history after a sample is inserted (41_fir_filter.md R68, first two lines). -/
def firPush (f : FirState) (x : Cplx) : FirState :=
  { f with head := headNext f.head f.len, hist := f.hist.set (headNext f.head f.len) x }

/-- The dot product of the coefficient set with the history, newest sample first (41_fir_filter.md R68). -/
def firOutput (N : Numerics) (f : FirState) : Cplx := dotProduct N f.coef 0 1 f.hist f.head f.len

/-- `FIRSTEP`: one sample in, one sample out (41_fir_filter.md R68). -/
def firStep (N : Numerics) (f : FirState) (x : Cplx) : FirState × Cplx := (firPush f x, firOutput N (firPush f x))

end Sys2Proof.Machine
end

