-- ==== Sys2Proof/Machine/Resampler.lean ====
section
/-! DEFINITION. Stage 3, the rational polyphase resampler (42_resampler.md): the plan, the filter banks and the delay of
`RSDSN`, one stage `RSSTAGE` and the cascade `RSSTEP`. -/

namespace Sys2Proof.Machine

/-- `reduce(a, b)`: both divided by their greatest common divisor (42_resampler.md R73). -/
def reduceRatio (a b : ℕ) : ℕ × ℕ := (a / Nat.gcd a b, b / Nat.gcd a b)

/-- The ratio `P/Q` of output rate to input rate in lowest terms (42_resampler.md R72). -/
def ratioOf (inRate outRate : ℤ) : ℕ × ℕ := reduceRatio outRate.toNat inRate.toNat

/-- The largest `k >= 0` with `2^k · a <= b`, for `0 < a <= b` (42_resampler.md R73). -/
def largestPow (a b : ℕ) : ℕ := Nat.log2 (b / a)

/-- The default plan (42_resampler.md R73). -/
def defaultPlan (P Q : ℕ) : List (ℕ × ℕ) :=
  if P < Q then
    let K := largestPow P Q
    List.replicate K (1, 2) ++ [reduceRatio (2 ^ K * P) Q]
  else
    let K := largestPow Q P
    reduceRatio P (2 ^ K * Q) :: List.replicate K (2, 1)

/-- What any plan owes: at least one stage, coprime positive pairs (10_state.md R19), and the ratio `P/Q`
(42_resampler.md R82 (b)). -/
abbrev planOk (P Q : ℕ) (l : List (ℕ × ℕ)) : Prop :=
  l ≠ [] ∧ (∀ s ∈ l, 1 ≤ s.1 ∧ 1 ≤ s.2 ∧ Nat.gcd s.1 s.2 = 1) ∧
    (l.map Prod.fst).prod * Q = (l.map Prod.snd).prod * P

/-- The plan of a build: the default, or a free plan of the same ratio (92_eei_decisions.md D14). -/
def planOf (b : Build) (P Q : ℕ) : List (ℕ × ℕ) :=
  match b.plan with
  | .powersOfTwo => defaultPlan P Q
  | .other id => if planOk P Q (Config.plan id P Q) then Config.plan id P Q else defaultPlan P Q

/-- The filter bank of a stage `(P, Q)`, stored as one prototype (42_resampler.md R74), or the build's own bank of the
same length (92_eei_decisions.md D14), whose entries are free real numbers, rounded into the format (the model's choice:
notes/assumptions/12.md). Whether a finite format rounds the product `Pi · proto[j]` is left open by the spec and free in
the model (notes/assumptions/23.md). -/
def bankDesign (N : Numerics) (rsbw : RealNum) (M : ℕ) (A : ℤ) (P Q : ℕ) : List RealNum :=
  match N.bankDesigner with
  | none => (firDesign N (P * M) (N.div rsbw (.rat (max P Q : ℕ))) A).map fun c => N.gainRnd ((RealNum.rat P).times c)
  | some entry => (List.range (P * M)).map fun j => N.rnd (entry M A P Q j)

/-- A stage right after `START` (42_resampler.md R74, R75). -/
def stageInit (N : Numerics) (rsbw : RealNum) (M : ℕ) (A : ℤ) (s : ℕ × ℕ) : RsStage where
  p := s.1
  q := s.2
  coef := bankDesign N rsbw M A s.1 s.2
  hist := List.replicate M Cplx.zero
  head := M - 1
  acc := 0

/-- `D_i`, the delay of one stage in its own input samples (42_resampler.md R80). -/
def stageDelay (N : Numerics) (M P : ℕ) : ℚ := N.delayRnd ((P * M - 1) / (2 * P))

/-- `Σ D_i / ρ_i` over the stages that are left, added to `sum` in ascending `i`, `ρ` the ratio in front of them
(42_resampler.md R80). Whether a finite format rounds here is left open by the spec and free in the model
(notes/assumptions/22.md). -/
def delaySum (N : Numerics) (M : ℕ) : ℚ → ℚ → List (ℕ × ℕ) → ℚ
  | sum, _, [] => sum
  | sum, ρ, s :: rest =>
    delaySum N M (N.delayRnd (sum + N.delayRnd (stageDelay N M s.1 / ρ)))
      (N.delayRnd (ρ * N.delayRnd (s.1 / s.2))) rest

/-- `rs_delay`, in input-rate samples, a rational number (42_resampler.md R80). -/
def totalDelay (N : Numerics) (M : ℕ) (plan : List (ℕ × ℕ)) : ℚ := delaySum N M 0 1 plan

/-- The contents of `RSDELAY`: `min(floor(rs_delay · 65536), 2^32 - 1)` (45_commands.md R109 (h)), and 0 where the free
rounding of a finite format leaves a negative delay, which an unsigned register cannot hold
(notes/assumptions/22.md). -/
def delayReg (N : Numerics) (d : ℚ) : RegWord :=
  BitVec.ofInt 32 (max 0 (min ⌊N.delayRnd (d * 65536)⌋ (2 ^ 32 - 1)))

/-- `RSDSN` for a plan (42_resampler.md R73 to R75, R80). -/
def rsInit (N : Numerics) (b : Build) (A : ℤ) (plan : List (ℕ × ℕ)) : RsState where
  m := b.rsm
  stages := plan.map (stageInit N b.rsbw b.rsm A)
  delay := totalDelay N b.rsm plan

/-- The history after a sample is inserted (42_resampler.md R76, first two lines). -/
def stagePush (M : ℕ) (st : RsStage) (x : Cplx) : RsStage :=
  { st with head := headNext st.head M, hist := st.hist.set (headNext st.head M) x }

/-- The output of branch `φ` (42_resampler.md R76, inner loop). -/
def branchOutput (N : Numerics) (M : ℕ) (st : RsStage) (φ : ℕ) : Cplx :=
  dotProduct N st.coef φ st.p st.hist st.head M

/-- The `while acc < P` loop of 42_resampler.md R76: the branches visited and the accumulator it ends with. Each round
adds `Q >= 1`, so `P` rounds are enough. -/
def branchLoop (P Q : ℕ) : ℕ → ℕ → List ℕ × ℕ
  | 0, acc => ([], acc)
  | fuel + 1, acc =>
    if acc < P then
      let r := branchLoop P Q fuel (acc + Q)
      (acc :: r.1, r.2)
    else ([], acc)

/-- `RSSTAGE`: one stage takes one sample (42_resampler.md R76). -/
def rsStage (N : Numerics) (M : ℕ) (st : RsStage) (x : Cplx) : RsStage × List Cplx :=
  let pushed := stagePush M st x
  let loop := branchLoop st.p st.q st.p st.acc
  ({ pushed with acc := loop.2 - st.p }, loop.1.map (branchOutput N M pushed))

/-- `feed(i, v)` over the stages from `i` on, every output of a stage given to the next before the stage goes on
(42_resampler.md R77). The first argument is how many stages there are. -/
def feed (N : Numerics) (M : ℕ) : ℕ → List RsStage → Cplx → List RsStage × List Cplx
  | _, [], v => ([], [v])
  | 0, st :: rest, v => (st :: rest, [v])
  | n + 1, st :: rest, v =>
    let r := rsStage N M st v
    let t := r.2.foldl (fun a y => let o := feed N M n a.1 y; (o.1, a.2 ++ o.2)) (rest, [])
    (r.1 :: t.1, t.2)

/-- `RSSTEP`: the cascade takes one sample (42_resampler.md R77). -/
def rsStep (N : Numerics) (r : RsState) (x : Cplx) : RsState × List Cplx :=
  let o := feed N r.m r.stages.length r.stages x
  ({ r with stages := o.1 }, o.2)

end Sys2Proof.Machine
end

