-- ==== Sys2Proof/Machine/Pipeline.lean ====
section
/-! DEFINITION. The five stages together (45_commands.md R101, R102): the validation of the configuration
(60_exceptions.md R112 to R114), the objects `START` creates, one input sample through all stages, and a chunk. -/

namespace Sys2Proof.Machine

/-- The condition of each configuration error, on mathematical integers (60_exceptions.md R112). -/
def cfgErrorHolds (b : Build) (c : Cfg) (e : CfgError) : Bool :=
  match e with
  | .inrate => decide (c.inrate.toInt ≤ 0)
  | .outrate => decide (c.outrate.toInt < 0)
  | .bandwidth => decide (c.bandwidth.toInt ≤ 0 ∨ c.inrate.toInt ≤ 2 * c.bandwidth.toInt)
  | .scheme => decide (c.modscheme.toInt ≠ 0)
  | .deviation => decide (c.modscheme.toInt = 0 ∧ c.deviation.toInt ≤ 0)
  | .taps => decide (c.taps.toInt < 1) || (match b.lmax with | some m => decide ((m : ℤ) < c.taps.toInt) | none => false)

/-- The order in which the conditions are tried (60_exceptions.md R114). -/
def cfgErrorOrder : List CfgError := [.inrate, .outrate, .bandwidth, .scheme, .deviation, .taps]

/-- `Validate()`: the first error that holds, or none (60_exceptions.md R113). -/
def validate (b : Build) (c : Cfg) : Option CfgError := cfgErrorOrder.find? (cfgErrorHolds b c)

/-- The effective output rate: `OUTRATE`, or `INRATE` where it is unset (10_state.md R21). -/
def effectiveOutRate (c : Cfg) : ℤ := if c.outrate.toInt = 0 then c.inrate.toInt else c.outrate.toInt

/-- The state objects a successful `START` creates from the configuration (45_commands.md R101), under the numerics
`N`. -/
def createObjectsWith (N : Numerics) (b : Build) (c : Cfg) : Objects :=
  let inRate := c.inrate.toInt
  let outRate := effectiveOutRate c
  let att := c.atten.toInt
  let fc : ℚ := (c.bandwidth.toInt : ℚ) / inRate
  let ratio := ratioOf inRate outRate
  { inRate := inRate
    outRate := outRate
    firFc := fc
    att := att
    fir := firInit N c.taps.toInt.toNat (.rat fc) att
    rs := rsInit N b att (planOf b ratio.1 ratio.2)
    fm := fmInit c.deviation.toInt outRate }

/-- The state objects of the build's own number format. -/
def createObjects (b : Build) (c : Cfg) : Objects := createObjectsWith (numericsOf b) b c

/-- One input sample through stages 1 to 5, the loop body of 45_commands.md R102, under the numerics `N`: the objects
afterwards and the output words, in order. -/
def sampleStepWith (N : Numerics) (t : QTie) (o : Objects) (i q : BitVec 16) : Objects × List OutSample :=
  let f := firStep N o.fir (iqSample i q)
  let r := rsStep N o.rs f.2
  let d := fmDemAll N o.fm r.2
  ({ o with fir := f.1, rs := r.1, fm := d.1 }, d.2.map (quant N t))

/-- One input sample through the pipeline of a build. -/
def sampleStep (b : Build) (o : Objects) (i q : BitVec 16) : Objects × List OutSample :=
  sampleStepWith (numericsOf b) b.qtie o i q

/-- The samples of a chunk, one after the other, under the numerics `N` (45_commands.md R102). -/
def chunkLoopWith (N : Numerics) (t : QTie) : Objects → List IqWord → Objects × List OutSample
  | o, [] => (o, [])
  | o, w :: ws =>
    let r := sampleStepWith N t o (iqI w) (iqQ w)
    let u := chunkLoopWith N t r.1 ws
    (u.1, r.2 ++ u.2)

/-- The samples of a chunk through the pipeline of a build. -/
def chunkLoop (b : Build) (o : Objects) (ws : List IqWord) : Objects × List OutSample :=
  chunkLoopWith (numericsOf b) b.qtie o ws

/-- The bytes `OutWrite` gets for a run of output samples (44_quantizer.md R95). -/
def pcmStream (vs : List OutSample) : List OutByte := vs.flatMap OutSample.bytes

end Sys2Proof.Machine
end

