-- ==== Sys2Proof/Machine/Commands.lean ====
section
/-! DEFINITION. The meaning of every instruction: the six commands (45_commands.md R98 to R103) and the input sample
(40_iq_decoder.md R60). Each command has been taken from the `cmd` port before its meaning runs (45_commands.md R97). -/

namespace Sys2Proof.Machine

/-- `RESET` (45_commands.md R98): reset, then its one response. -/
def execReset (s : State) : Host.Outcome State Fault Refusal :=
  guardMode .reset s (.next (s.resetCore.respond .ok 0))

/-- `CFGWR reg, imm` (45_commands.md R99). An unassigned or read-only register makes the command illegal in every mode
(60_exceptions.md R118, R119). -/
def execCfgwr (reg : RegNum) (imm : RegWord) (s : State) : Host.Outcome State Fault Refusal :=
  match regOfNum reg with
  | none => .next s.illegalCommand
  | some r =>
    if regWritable r then guardMode (.cfgwr reg imm) s (.next ((s.writeReg r imm).respond .ok 0))
    else .next s.illegalCommand

/-- `CFGRD reg` (45_commands.md R100). -/
def execCfgrd (reg : RegNum) (s : State) : Host.Outcome State Fault Refusal :=
  match regOfNum reg with
  | none => .next s.illegalCommand
  | some r => guardMode (.cfgrd reg) s (.next (s.respond .ok (s.readReg r)))

/-- The effect of a `START` whose configuration is valid (45_commands.md R101). -/
def State.startRun (s : State) : State :=
  let o := createObjects s.build s.cfg
  ({ s with objs := some o, rsdelay := delayReg (numericsOf s.build) o.rs.delay, errcode := 0, mode := .run }).respond .ok 0

/-- `START` (45_commands.md R101): validation first, then either the one exception or the run. -/
def execStart (s : State) : Host.Outcome State Fault Refusal :=
  guardMode .start s
    (match validate s.build s.cfg with
    | some e => .next (s.raiseCfgError e)
    | none => .next s.startRun)

/-- The effect of a `PUSH` whose bytes are there, on objects `o` (45_commands.md R102). -/
def State.pushRun (s : State) (len : BitVec 32) (o : Objects) : State :=
  let r := chunkLoop s.build o (iqWords (s.inTake (zext32 len)))
  (((s.inDrop (zext32 len)).setObjs (some r.1)).outWrite (pcmStream r.2)).respond .ok (BitVec.ofNat 32 r.2.length)

/-- `PUSH len` (45_commands.md R102): waits until the `in` port holds `len` bytes (20_memory.md R43), then processes
them to completion. -/
def execPush (len : BitVec 32) (s : State) : Host.Outcome State Fault Refusal :=
  guardMode (.push len) s
    (if s.inReady (zext32 len) then
      match s.objs with
      | some o => .next (s.pushRun len o)
      | none => .fault .noValue
    else .next (s.holdPush len))

/-- `EOS` (45_commands.md R103): the objects are released, nothing is written to `out`. -/
def execEos (s : State) : Host.Outcome State Fault Refusal :=
  guardMode .eos s (.next ((({ s with rsdelay := 0 }).setObjs none).setMode .done |>.respond .ok 0))

/-- `IQDEC` (40_iq_decoder.md R60): the sample is emitted into the pipeline, which processes it through every stage
(00_scope.md R8, 45_commands.md R102) and writes the output samples it causes. It takes no word from `cmd` and writes no
response. -/
def execIqdec (i q : BitVec 16) (s : State) : Host.Outcome State Fault Refusal :=
  match s.objs with
  | some o =>
    let r := sampleStep s.build o i q
    .next ((s.setObjs (some r.1)).outWrite (pcmStream r.2))
  | none => .fault .noValue

end Sys2Proof.Machine
end

