-- ==== Sys2Proof/Machine/Dispatch.lean ====
section
/-! DEFINITION. One arm per instruction, each one direct call of its meaning. -/

namespace Sys2Proof.Machine

def exec (i : Instr) (s : State) : Host.Outcome State Fault Refusal :=
  match i with
  | .reset => Sys2Proof.Machine.execReset s
  | .cfgwr reg imm => Sys2Proof.Machine.execCfgwr reg imm s
  | .cfgrd reg => Sys2Proof.Machine.execCfgrd reg s
  | .start => Sys2Proof.Machine.execStart s
  | .push len => Sys2Proof.Machine.execPush len s
  | .eos => Sys2Proof.Machine.execEos s
  | .iqdec iField qField => Sys2Proof.Machine.execIqdec iField qField s

end Sys2Proof.Machine
end

