-- ==== Sys2Proof/Machine/Fetch.lean ====
section
/-! DEFINITION. How the core finds its next work (45_commands.md R97, 20_memory.md R38): there is no program counter
(10_state.md R12); commands run in the order of their arrival on the `cmd` port. -/

namespace Sys2Proof.Machine

/-- The next work of the core: a `PUSH` that waits for its bytes, else the next word of the `cmd` port, taken and
decoded (45_commands.md R97 (1), 60_exceptions.md R124). -/
def fetch (s : State) : Fetch :=
  match s.pushWait with
  | some len => .run (.push len) { s with pushWait := none }
  | none =>
    match s.cmdQ with
    | [] => .idle
    | w :: rest =>
      match decodeCmd w with
      | .ok i => .run i { s with cmdQ := rest }
      | .error e => .illegal e { s with cmdQ := rest }

/-- The command word of `PUSH 4`, the shortest chunk that holds a sample. -/
def pushFour : CmdWord := cmdWord 0x05 0 0 4

/-- The configuration of program P1 (95_test_vectors.md). -/
def sampleCfg : Cfg := { Cfg.reset with inrate := 48000, bandwidth := 12000, deviation := 12000, taps := 1 }

/-- A machine that is running: `s` itself where it runs, else `s` as program P1 has it after its `START`
(95_test_vectors.md, built with `RSM = 1`). -/
def runningState (s : State) : State :=
  match s.mode, s.objs with
  | .run, some _ => s
  | _, _ =>
    { s with
      mode := .run
      cfg := sampleCfg
      errcode := 0
      rsdelay := 0
      objs := some (createObjects { Build.default with rsm := 1 } sampleCfg) }

/-- `s` with a command word next on the `cmd` port. -/
def placeCommand (s : State) (w : ℕ) : State :=
  { s with pushWait := none, cmdQ := BitVec.ofNat 64 (natOfBytesLE (bytesLE 8 w)) :: s.cmdQ }

/-- `s` with an input sample next on the `in` port, where a running core reads it: the `in` port is read by `PUSH` alone
(20_memory.md R30), so a `PUSH 4` is next on the `cmd` port. -/
def placeSample (s : State) (w : ℕ) : State :=
  { runningState s with
    pushWait := none
    cmdQ := pushFour :: s.cmdQ
    inQ := bytesLE 4 w ++ s.inQ }

end Sys2Proof.Machine
end

