-- ==== Sys2Proof/Machine/Step.lean ====
section
/-! DEFINITION. One step of the core (45_commands.md R97), and where a test places the next instruction. -/

namespace Sys2Proof.Machine

/-- One step: an idle core stays as it is, an illegal word is turned away, a command runs to completion. -/
def step (s : State) : Host.Outcome State Fault Refusal :=
  match fetch s with
  | .idle => .next s
  | .illegal _ s' => .next s'.illegalCommand
  | .run i s' => exec i s'

/-- `s` with an opcode-table word where the next step fetches it: on the `cmd` port for a command, on the `in` port
behind a `PUSH 4` for an input sample (notes/assumptions/8.md). -/
def State.withFetchWord (s : State) (nbits w : Nat) : State :=
  if nbits = 32 then placeSample s w else placeCommand s w

end Sys2Proof.Machine
end

