-- ==== Sys2Proof/Machine/HostPort.lean ====
section
/-! DEFINITION. What the other agent, the host, can do to the four ports (10_state.md R10 (b), R23), the power-on reset
(70_reset_and_hazards.md R126), and the assembler's pseudo-instructions (30_encoding.md R54, R55). The core's step calls
none of them. -/

namespace Sys2Proof.Machine

/-- The host puts a command word on the `cmd` port. -/
def State.hostCommand (s : State) (w : CmdWord) : State := { s with cmdQ := s.cmdQ ++ [w] }

/-- The host puts bytes on the `in` port. -/
def State.hostBytes (s : State) (bs : List Byte) : State := { s with inQ := s.inQ ++ bs }

/-- The host takes the next `n` bytes of the `out` port, fewer where it holds fewer: the spec names no amount, so a claim
chooses any (notes/assumptions/15.md). -/
def State.hostTakeOut (s : State) (n : ℕ) : List OutByte × State := (s.outQ.take n, { s with outQ := s.outQ.drop n })

/-- The host takes the next `n` words of the `rsp` port, fewer where it holds fewer: the spec names no amount, so a claim
chooses any (notes/assumptions/15.md). -/
def State.hostTakeRsp (s : State) (n : ℕ) : List RspWord × State := (s.rspQ.take n, { s with rspQ := s.rspQ.drop n })

/-- The eight bytes in which a command word is sent over a byte-wide transport, low byte first (30_encoding.md R53). -/
def cmdTransport (w : CmdWord) : List Byte := bytesLE 8 w.toNat

/-- The eight bytes in which a response word is read over a byte-wide transport, low byte first (30_encoding.md R53). -/
def rspTransport (w : RspWord) : List Byte := bytesLE 8 w.toNat

/-- The power-on reset: the same event as `RESET` without the response (70_reset_and_hazards.md R126). -/
def State.powerOn (s : State) : State := s.resetCore

/-- The number of padding samples a host may send first: `ceil(RSDELAY / 65536)` (70_reset_and_hazards.md R130). -/
def paddingSamples (rsdelay : RegWord) : ℕ := (rsdelay.toNat + 65535) / 65536

/-- The padding bytes, zero samples (70_reset_and_hazards.md R130). -/
def paddingBytes (rsdelay : RegWord) : List Byte := List.replicate (4 * paddingSamples rsdelay) 0

/-- The command word of an instruction; an input sample has none. -/
def commandWord? (i : Instr) : Option CmdWord :=
  match encode i with
  | .cmd w => some w
  | .iq _ => none

/-- The expansion of a pseudo-instruction (30_encoding.md R55). -/
def expandPseudo : Pseudo → List Instr
  | .cfgfm inRate outRate bw dev =>
    [.cfgwr (regNum .inrate) inRate, .cfgwr (regNum .outrate) outRate, .cfgwr (regNum .bandwidth) bw,
      .cfgwr (regNum .modscheme) 0, .cfgwr (regNum .deviation) dev]
  | .status => [.cfgrd (regNum .status)]
  | .delay => [.cfgrd (regNum .rsdelay)]

/-- A register's name in the assembler (30_encoding.md R54). -/
def regName : Reg → String
  | .inrate => "INRATE"
  | .outrate => "OUTRATE"
  | .bandwidth => "BANDWIDTH"
  | .modscheme => "MODSCHEME"
  | .deviation => "DEVIATION"
  | .taps => "TAPS"
  | .atten => "ATTEN"
  | .status => "STATUS"
  | .errcode => "ERRCODE"
  | .rsdelay => "RSDELAY"

/-- `<reg>` in the assembler: the name, or the number where it names none (30_encoding.md R54). -/
def regText (n : RegNum) : String :=
  match regOfNum n with
  | some r => regName r
  | none => toString n.toNat

/-- A command as the assembler writes it (30_encoding.md R54); an input sample as the mnemonic of its table row. -/
def asmText : Instr → String
  | .reset => "RESET"
  | .cfgwr reg imm => "CFGWR " ++ regText reg ++ ", " ++ toString imm.toInt
  | .cfgrd reg => "CFGRD " ++ regText reg
  | .start => "START"
  | .push len => "PUSH " ++ toString len.toNat
  | .eos => "EOS"
  | .iqdec i q => "IQDEC " ++ toString i.toInt ++ ", " ++ toString q.toInt

/-- A line of a program text (30_encoding.md R54): a command, a pseudo-instruction, or an `IN:` line with the bytes the
host puts on the `in` port. -/
inductive AsmLine where
  | command (i : Instr)
  | pseudo (p : Pseudo)
  | input (bs : List Byte)
  deriving DecidableEq, Repr

/-- The words a line puts on the `cmd` port. -/
def AsmLine.words : AsmLine → List CmdWord
  | .command i => (commandWord? i).toList
  | .pseudo p => (expandPseudo p).filterMap commandWord?
  | .input _ => []

/-- The bytes a line puts on the `in` port. -/
def AsmLine.bytes : AsmLine → List Byte
  | .input bs => bs
  | _ => []

/-- The host queues a whole program text on the ports of a machine. -/
def State.hostProgram (s : State) (lines : List AsmLine) : State :=
  { s with cmdQ := s.cmdQ ++ lines.flatMap AsmLine.words, inQ := s.inQ ++ lines.flatMap AsmLine.bytes }

/-- The `<value>` operand: an integer that fits 32 bits two's complement (30_encoding.md R54). -/
def asmValue (v : ℤ) : Option RegWord := if -2 ^ 31 ≤ v ∧ v < 2 ^ 31 then some (BitVec.ofInt 32 v) else none

/-- The `<len>` operand: an unsigned integer below `2^32` (30_encoding.md R54). -/
def asmLen (n : ℕ) : Option (BitVec 32) := if n < 2 ^ 32 then some (BitVec.ofNat 32 n) else none

end Sys2Proof.Machine
end

