-- ==== Sys2Proof/Machine/RealMeaning.lean ====
section
/-! DEFINITION. The real number each term of the datapath names (00_scope.md R6), with the primitives as the spec defines
them (41_fir_filter.md R65, R66; 43_fm_demod.md R88). The statements speak of it; the step, which has to run, calls none of
it. -/

namespace Sys2Proof

/-- `I0(x) = Σ_{m>=0} ((x/2)^m / m!)²`, the modified Bessel function of order zero (41_fir_filter.md R65). -/
noncomputable def besselI0 (x : ℝ) : ℝ := ∑' m : ℕ, ((x / 2) ^ m / m.factorial) ^ 2

/-- The angle of `(x, y)` in `(-π, π]` over `2π`, `+1/2` on the negative real axis, and `zero / (2π)` at the origin
(43_fm_demod.md R88, R91). -/
noncomputable def realTurns (zero y x : ℝ) : ℝ :=
  if y = 0 ∧ x = 0 then zero / (2 * Real.pi) else Complex.arg ⟨x, y⟩ / (2 * Real.pi)

/-- The real number with the free digits of `RealNum.const id`. -/
noncomputable def realConst (id : ℕ) : ℝ :=
  Config.constInt id + ∑' j : ℕ, if Config.constBit id j then (1 : ℝ) / 2 ^ (j + 1) else 0

/-- The real number a term names. `x ^ 0.4` is applied to `x >= 0` alone (41_fir_filter.md R66); a quotient by zero, which
no rule forms, is free. -/
noncomputable def RealNum.val : RealNum → ℝ
  | .rat q => q
  | .const id => realConst id
  | .pi => Real.pi
  | .add a b => a.val + b.val
  | .sub a b => a.val - b.val
  | .mul a b => a.val * b.val
  | .div a b => if b.val = 0 then (Config.divZero : ℝ) else a.val / b.val
  | .neg a => -a.val
  | .posPart a => max 0 a.val
  | .clamp a => clampUnit a.val
  | .sinPi x => Real.sin (Real.pi * x.val)
  | .sqrt x => Real.sqrt x.val
  | .i0 x => besselI0 x.val
  | .pow04 x => |x.val| ^ (2 / 5 : ℝ)
  | .turns y x zero => realTurns zero.val y.val x.val
  | .ifZero c a b => if c.val = 0 then a.val else b.val

end Sys2Proof
end

