-- ==== Sys2Proof/Machine/OutMeaning.lean ====
section
/-! DEFINITION. Which word an output sample is and which byte stands on the `out` port (44_quantizer.md R93, R94): the exact
rounding of the real number a term names. The statements speak of it; the step, which has to run, calls none of it. -/

namespace Sys2Proof.Machine

/-- The word of an output sample. -/
noncomputable def OutSample.val : OutSample → PcmWord
  | .word v => v
  | .rounded t r => enc16 (quantInt t r.val)

/-- The byte. -/
noncomputable def OutByte.val : OutByte → Byte
  | .byte b => b
  | .lowOf t r => (enc16 (quantInt t r.val)).extractLsb' 0 8
  | .highOf t r => (enc16 (quantInt t r.val)).extractLsb' 8 8

/-- The bytes on the `out` port, oldest first (10_state.md R23). -/
noncomputable def State.outBytes (s : State) : List Byte := s.outQ.map OutByte.val

end Sys2Proof.Machine
end

