-- ==== Sys2Proof/Machine/Contract.lean ====
section
/-! DEFINITION. The stages as functions of whole sequences, and the counts the spec derives from them: what
45_commands.md R104 and R105, 42_resampler.md R77, R78 and R84 and 41_fir_filter.md R68 speak about. The step calls none
of them. -/

namespace Sys2Proof.Machine

/-- `FIRSTEP` over a sequence. -/
def firRun (N : Numerics) : FirState → List Cplx → FirState × List Cplx
  | f, [] => (f, [])
  | f, x :: xs =>
    let r := firStep N f x
    let t := firRun N r.1 xs
    (t.1, r.2 :: t.2)

/-- `RSSTAGE` over a sequence. -/
def stageRun (N : Numerics) (M : ℕ) : RsStage → List Cplx → RsStage × List Cplx
  | st, [] => (st, [])
  | st, x :: xs =>
    let r := rsStage N M st x
    let t := stageRun N M r.1 xs
    (t.1, r.2 ++ t.2)

/-- Each stage of the cascade over the whole sequence in turn (42_resampler.md R77). -/
def cascadeRun (N : Numerics) (M : ℕ) : List RsStage → List Cplx → List RsStage × List Cplx
  | [], xs => ([], xs)
  | st :: rest, xs =>
    let r := stageRun N M st xs
    let t := cascadeRun N M rest r.2
    (r.1 :: t.1, t.2)

/-- A chunk with every stage run over the whole of it in turn (45_commands.md R104). -/
def chunkByStages (N : Numerics) (t : QTie) (o : Objects) (bs : List Byte) : Objects × List OutSample :=
  let f := firRun N o.fir (iqDecode bs)
  let r := cascadeRun N o.rs.m o.rs.stages f.2
  let d := fmDemAll N o.fm r.2
  ({ o with fir := f.1, rs := { o.rs with stages := r.1 }, fm := d.1 }, d.2.map (quant N t))

/-- `max(0, ceil((n·P - a) / Q))`: the outputs of a stage with accumulator `a` given `n` inputs (42_resampler.md
R78). -/
def stageCount (P Q a n : ℕ) : ℕ := (n * P - a + (Q - 1)) / Q

/-- The outputs of a cascade with accumulators as they stand, given `n` inputs. -/
def cascadeCount : List RsStage → ℕ → ℕ
  | [], n => n
  | st :: rest, n => cascadeCount rest (stageCount st.p st.q st.acc n)

/-- `b_{rs_ns}` of 42_resampler.md R84: `b_i = ceil(b_{i-1} · rs_P[i] / rs_Q[i])`. -/
def outputBound : List RsStage → ℕ → ℕ
  | [], n => n
  | st :: rest, n => outputBound rest (stageCount st.p st.q 0 n)

/-- The stage pairs `(rs_P[i], rs_Q[i])`. -/
def stagePairs (sts : List RsStage) : List (ℕ × ℕ) := sts.map fun st => (st.p, st.q)

/-- `Π_{j} rs_P[j]/rs_Q[j]`, the ratio of a list of stages. -/
def pairsRatio (l : List (ℕ × ℕ)) : ℚ := (l.map fun s => (s.1 : ℚ) / s.2).prod

/-- `Σ_i Π_{j>i} rs_P[j]/rs_Q[j]`, the bound of 42_resampler.md R78. -/
def countSlack : List (ℕ × ℕ) → ℚ
  | [] => 0
  | _ :: rest => pairsRatio rest + countSlack rest

end Sys2Proof.Machine
end

