-- ==== Sys2Proof/Safety.lean ====
section
/-! DEFINITION. What counts as a legal state and as a finished run, in the terms the statements use. -/

namespace Sys2Proof

/-- The range 00_scope.md R5 gives the numeric parameters: `RSM >= 1` and `RSBW` in (0, 0.5). -/
abbrev Build.wf (b : Build) : Prop := 1 ≤ b.rsm ∧ 0 < b.rsbw.val ∧ b.rsbw.val < 1 / 2

namespace Machine

/-- The filter's buffers have the length of the filter and its head points into them (10_state.md R17, R18). -/
abbrev FirState.wf (f : FirState) : Prop :=
  1 ≤ f.len ∧ f.coef.length = f.len ∧ f.hist.length = f.len ∧ f.head < f.len

/-- A resampler stage: coprime positive ratio, buffers of the right length, head inside, and the phase accumulator below
`Q` (10_state.md R19, 42_resampler.md R83). -/
abbrev RsStage.wf (M : ℕ) (st : RsStage) : Prop :=
  1 ≤ st.p ∧ 1 ≤ st.q ∧ Nat.gcd st.p st.q = 1 ∧ st.coef.length = st.p * M ∧ st.hist.length = M ∧ st.head < M ∧
    st.acc < st.q

/-- The resampler: at least one stage, each legal (10_state.md R19). -/
abbrev RsState.wf (r : RsState) : Prop :=
  1 ≤ r.m ∧ r.stages ≠ [] ∧ ∀ st ∈ r.stages, st.wf r.m

/-- The state objects of a running machine (10_state.md R17 to R21). -/
abbrev Objects.wf (o : Objects) : Prop :=
  o.fir.wf ∧ o.rs.wf ∧ 0 < o.fm.kf ∧ 0 < o.inRate ∧ 0 < o.outRate ∧ 0 < o.firFc ∧ o.firFc < 1 / 2

/-- The objects are those of the configuration: what `START` latched is what the registers still hold, the stages
realize the ratio of the two rates (10_state.md R21, 20_memory.md R41, 42_resampler.md R82). -/
abbrev Objects.latchedFrom (o : Objects) (c : Cfg) : Prop :=
  o.inRate = c.inrate.toInt ∧ o.outRate = effectiveOutRate c ∧ o.att = c.atten.toInt ∧
    o.firFc = (c.bandwidth.toInt : ℚ) / c.inrate.toInt ∧ (o.fir.len : ℤ) = c.taps.toInt ∧
    o.fm.kf = (c.deviation.toInt : ℚ) / effectiveOutRate c ∧
    planOk (ratioOf c.inrate.toInt (effectiveOutRate c)).1 (ratioOf c.inrate.toInt (effectiveOutRate c)).2
      (stagePairs o.rs.stages)

/-- `rs_delay` is the delay of the plan, and `RSDELAY` shows it (42_resampler.md R80, 10_state.md R16). -/
abbrev Objects.delayShown (o : Objects) (b : Build) (rsdelay : RegWord) : Prop :=
  o.rs.delay = totalDelay (numericsOf b) o.rs.m (stagePairs o.rs.stages) ∧
    rsdelay = delayReg (numericsOf b) o.rs.delay

/-- The objects exist exactly in mode `RUN`, legal and as configured, and `RSDELAY` shows their delay there and 0
elsewhere (10_state.md R16, R25). -/
def State.objectsWf (s : State) : Bool :=
  match s.objs with
  | none => decide (s.mode ≠ .run ∧ s.rsdelay = 0)
  | some o => decide (s.mode = .run ∧ o.wf ∧ o.latchedFrom s.cfg ∧ o.delayShown s.build s.rsdelay)

/-- The legal states: the invariant of the machine. -/
abbrev State.wf (s : State) : Prop :=
  s.build.wf ∧ s.objectsWf = true ∧ (s.pushWait ≠ none → s.mode = .run) ∧ (s.mode = .err ↔ s.errcode ≠ 0) ∧
    s.errcode.toNat ≤ 6

/-- A finished run: no command is left and none is under way (70_reset_and_hazards.md R138). Every response is written
with the command it belongs to. -/
abbrev State.finished (s : State) : Prop := s.cmdQ = [] ∧ s.pushWait = none

/-- The step from `s` to `t` runs the command `i`. -/
def State.stepRuns (s : State) (i : Instr) (t : State) : Prop := (∃ s', fetch s = .run i s') ∧ step s = .next t

/-- The source's "orderly shutdown": a run of `k` steps from `s` whose last command, the one after them, is `EOS`, and
which is then finished in mode `DONE` (70_reset_and_hazards.md R138). -/
def State.orderlyShutdown (s : State) (k : ℕ) (t : State) : Prop :=
  (∃ before : State, Sys2Proof.core.run k s = .next before ∧ before.stepRuns .eos t) ∧ t.finished ∧ t.mode = .done

/-- The bytes on `out` fit the sink behind it, a sink of `OUTCAP` bytes: what a claim about a system with a finite sink
has to show at every step (93_implementation_defined.md U9, 70_reset_and_hazards.md R132). -/
def State.sinkSuffices (s : State) : Prop := ∀ cap, s.build.outcap = some cap → s.outQ.length ≤ cap

/-- The core waits inside a `PUSH` for bytes that are not there (60_exceptions.md R124): stuck until the host supplies
them. -/
abbrev State.stuckInPush (s : State) : Prop := ∃ len, s.pushWait = some len ∧ s.inQ.length < len.toNat

end Machine
end Sys2Proof
end

