-- ==== Sys2Proof/Certificates/Slice0/Obligations.lean ====
section
/-! DEFINITION. The statements about the model. -/

open Sys2Proof Sys2Proof.Machine

/-! ## Encodings -/

/-- One word of every row of 30_encoding.md R48, written out from 95_test_vectors.md V11 and V1, and one word for each
clause of R52. -/
def Obligations.SpecWordsDecode : Prop :=
  decodeCmd 0x0100000000000000 = .ok .reset ∧
  decodeCmd 0x0200000000030D40 = .ok (.cfgwr 0x00 200000) ∧
  decodeCmd 0x0312000000000000 = .ok (.cfgrd 0x12) ∧
  decodeCmd 0x0400000000000000 = .ok .start ∧
  decodeCmd 0x050000000000001C = .ok (.push 28) ∧
  decodeCmd 0x0600000000000000 = .ok .eos ∧
  decodeIqBytes [0x00, 0x40, 0x00, 0xC0] = some (.iqdec 0x4000 0xC000) ∧
  decodeCmd 0x0700000000000000 = .error .unassignedOpcode ∧
  decodeCmd 0x0400000100000000 = .error .reservedNotZero ∧
  decodeCmd 0x0401000000000000 = .error .regNotZero ∧
  decodeCmd 0x0100000000000001 = .error .immNotZero ∧
  decodeCmd 0x0207000000000000 = .error .unassignedRegister ∧
  decodeCmd 0x0210000000000005 = .error .readOnlyRegister

/-- Decoding the encoding of a well-formed instruction gives the instruction back, every operand at every value. -/
def Obligations.DecodeInvertsEncode : Prop :=
  ∀ i : Instr, i.wellFormed = true → decode (encode i) = .ok i

/-- A word that decodes is the encoding of what it decodes to, and that is well formed: each legal word has one
meaning. -/
def Obligations.EncodeInvertsDecode : Prop :=
  ∀ (w : PortWord) (i : Instr), decode w = .ok i → encode i = w ∧ i.wellFormed = true

/-- A command word is refused exactly when one of the clauses of 30_encoding.md R52 holds. -/
def Obligations.IllegalWordsAreThoseOfTheRule : Prop :=
  ∀ w : CmdWord,
    (∃ e, decodeCmd w = .error e) ↔
      (cmdOpcode w).toNat ∉ [1, 2, 3, 4, 5, 6] ∨
      cmdRsv w ≠ 0 ∨
      ((cmdOpcode w).toNat ∈ [1, 4, 5, 6] ∧ cmdReg w ≠ 0) ∨
      ((cmdOpcode w).toNat ∈ [1, 3, 4, 6] ∧ cmdImm w ≠ 0) ∨
      ((cmdOpcode w).toNat ∈ [2, 3] ∧ (cmdReg w).toNat ∉ [0, 1, 2, 3, 4, 5, 6, 0x10, 0x11, 0x12]) ∨
      ((cmdOpcode w).toNat = 2 ∧ (cmdReg w).toNat ∈ [0x10, 0x11, 0x12])

/-! ## The sequencer -/

/-- One step: an idle core stays as it is and a waiting `PUSH` is taken up again (the model's own steps,
notes/assumptions/5.md); the next word of the `cmd` port is taken and, where it decodes, run by `exec`. -/
def Obligations.StepRunsDecodedCommand : Prop :=
  ∀ s : State,
    (s.pushWait = none → s.cmdQ = [] → step s = .next s) ∧
    (∀ len, s.pushWait = some len → step s = exec (.push len) { s with pushWait := none }) ∧
    (∀ w rest i, s.pushWait = none → s.cmdQ = w :: rest → decodeCmd w = .ok i →
      step s = exec i { s with cmdQ := rest })

/-- An input sample on the `in` port behind a `PUSH 4`: the step runs the sample word's `IQDEC` by `exec` and then
writes the response with the number of samples it put on `out` (how `PUSH` and `IQDEC` hang together: notes/assumptions/9.md). -/
def Obligations.StepRunsInputSample : Prop :=
  ∀ (s : State) (b0 b1 b2 b3 : Byte) (more : List Byte) (rest : List CmdWord) (o : Objects) (i : Instr),
    s.pushWait = none → s.cmdQ = 0x0500000000000004 :: rest → s.mode = .run → s.objs = some o →
    s.inQ = b0 :: b1 :: b2 :: b3 :: more → decodeIqBytes [b0, b1, b2, b3] = some i →
    ∃ t n, exec i { s with cmdQ := rest, inQ := more } = .next t ∧ t.outQ.length = s.outQ.length + 2 * n ∧
      step s = .next { t with rspQ := s.rspQ ++ [rspWord .ok (BitVec.ofNat 32 n)] }

/-- An illegal word sets `cmderr`, is answered `ILLEGAL` and changes nothing else, in every mode; the flag then stays set
until `RESET`. -/
def Obligations.IllegalCommandChangesNothingElse : Prop :=
  (∀ (s : State) (w : CmdWord) (rest : List CmdWord) (e : DecodeError),
    s.pushWait = none → s.cmdQ = w :: rest → decodeCmd w = .error e →
    step s = .next { s with cmdQ := rest, cmderr := true, rspQ := s.rspQ ++ [0x0100000000000000] }) ∧
  ∀ s t : State, step s = .next t → s.cmderr = true → t.cmderr = false →
    s.pushWait = none ∧ ∃ rest, s.cmdQ = 0x0100000000000000 :: rest

/-- A legal command in a mode that does not allow it sets `cmderr`, is answered `BADMODE` and changes nothing else; a
command that names a register it may not name answers `ILLEGAL` first, in every mode (read so from the order of the
checks: notes/assumptions/19.md). -/
def Obligations.WrongModeCommandChangesNothingElse : Prop :=
  (∀ (i : Instr) (s : State), i.wellFormed = true →
    ((∃ reg imm, i = .cfgwr reg imm) ∧ s.mode ≠ .idle ∨ i = .start ∧ s.mode ≠ .idle ∨
      (∃ len, i = .push len) ∧ s.mode ≠ .run ∨ i = .eos ∧ s.mode ≠ .run) →
    exec i s = .next { s with cmderr := true, rspQ := s.rspQ ++ [0x0200000000000000] }) ∧
  ∀ (i : Instr) (s : State), i.wellFormed = false →
    exec i s = .next { s with cmderr := true, rspQ := s.rspQ ++ [0x0100000000000000] }

/-- The mode after any instruction, the transition relation of 45_commands.md R107, and after an illegal word, which
leaves it. `IQDEC`, no command of that table, leaves it as the loop body of `PUSH` (notes/assumptions/9.md). -/
def Obligations.ModeTransitionRelation : Prop :=
  (∀ (i : Instr) (s t : State), exec i s = .next t →
    t.mode =
      match i with
      | .reset => .idle
      | .start => if s.mode = .idle then (if validate s.build s.cfg = none then .run else .err) else s.mode
      | .eos => if s.mode = .run then .done else s.mode
      | .cfgwr _ _ | .cfgrd _ | .push _ | .iqdec _ _ => s.mode) ∧
  ∀ s t : State, step s = .next t → (∀ i s', fetch s ≠ .run i s') → t.mode = s.mode

/-- `ERR` and `DONE` are left by `RESET` alone. -/
def Obligations.ErrAndDoneAreLeftOnlyByReset : Prop :=
  ∀ s t : State, (s.mode = .err ∨ s.mode = .done) → step s = .next t → t.mode ≠ s.mode →
    t.mode = .idle ∧ s.pushWait = none ∧ ∃ rest, s.cmdQ = 0x0100000000000000 :: rest

/-- The flag `cmderr` is set by the two refusals alone, each with its response, and cleared by `RESET` alone. -/
def Obligations.CmderrRecordsRefusals : Prop :=
  ∀ s t : State, step s = .next t → s.cmderr ≠ t.cmderr →
    (t.cmderr = true → t.rspQ = s.rspQ ++ [0x0100000000000000] ∨ t.rspQ = s.rspQ ++ [0x0200000000000000]) ∧
    (t.cmderr = false →
      s.pushWait = none ∧ (∃ rest, s.cmdQ = 0x0100000000000000 :: rest) ∧ t.mode = .idle ∧
        t.rspQ = s.rspQ ++ [0x0000000000000000])

/-- Every command word taken from `cmd`, legal or not, is answered by one response word behind those already there,
written in the step that completes it; a `PUSH` that waits has none yet (the model's wait, notes/assumptions/5.md). -/
def Obligations.OneResponsePerCommand : Prop :=
  ∀ s t : State, step s = .next t → (s.pushWait ≠ none ∨ s.cmdQ ≠ []) →
    (t.pushWait = none → ∃ r, t.rspQ = s.rspQ ++ [r]) ∧ (t.pushWait ≠ none → t.rspQ = s.rspQ)

/-- The ports are queues: a step takes bytes of `in` from its front and writes `out` and `rsp` at their ends, an even
number of bytes on `out`, and takes at most one word from `cmd`. -/
def Obligations.PortsAreQueues : Prop :=
  ∀ s t : State, step s = .next t →
    (∃ n, n ≤ s.inQ.length ∧ t.inQ = s.inQ.drop n) ∧
    (∃ bs, t.outQ = s.outQ ++ bs ∧ bs.length % 2 = 0) ∧
    (∃ rs, t.rspQ = s.rspQ ++ rs) ∧
    (t.cmdQ = s.cmdQ ∨ ∃ w, s.cmdQ = w :: t.cmdQ)

/-! ## The commands -/

/-- `RESET`, word `0x0100000000000000`, in every mode: every register and flag at its reset value, no state object, the
ports as they were, one response; the power-on reset is the same without the response. -/
def Obligations.ResetCommandRestoresResetValues : Prop :=
  encode .reset = .cmd 0x0100000000000000 ∧
  ∀ s : State,
    s.powerOn =
      { build := s.build, mode := .idle, cmderr := false,
        cfg := { inrate := 0, outrate := 0, bandwidth := 0, modscheme := 0, deviation := 0, taps := 64, atten := 70 },
        errcode := 0, rsdelay := 0, objs := none, pushWait := none,
        cmdQ := s.cmdQ, rspQ := s.rspQ, inQ := s.inQ, outQ := s.outQ } ∧
    exec .reset s = .next { s.powerOn with rspQ := s.rspQ ++ [0x0000000000000000] }

/-- The machine after reset: its registers, flags and objects, that its first act is to take the next command word, and
that a `START` straight after it fails with `E_INRATE`. -/
def Obligations.ResetStateIsTheRules : Prop :=
  State.reset.mode = .idle ∧ State.reset.cmderr = false ∧ State.reset.cfg.inrate = 0 ∧ State.reset.cfg.outrate = 0 ∧
  State.reset.cfg.bandwidth = 0 ∧ State.reset.cfg.modscheme = 0 ∧ State.reset.cfg.deviation = 0 ∧
  State.reset.cfg.taps = 64 ∧ State.reset.cfg.atten = 70 ∧ State.reset.errcode = 0 ∧ State.reset.rsdelay = 0 ∧
  State.reset.objs = none ∧
  (∀ w ws i, decodeCmd w = .ok i →
    step { State.reset with cmdQ := w :: ws } = exec i { State.reset with cmdQ := ws }) ∧
  exec .start State.reset = .next { State.reset with mode := .err, errcode := 1, rspQ := [0x0300000000000001] }

/-- `CFGWR`, opcode 0x02, in every case: an unassigned or read-only register is illegal in every mode; another mode than
`IDLE` is `BADMODE`; in `IDLE` the named register holds the immediate, the other six and everything else are as
before. -/
def Obligations.CfgwrWritesOneRegister : Prop :=
  ∀ (reg : RegNum) (imm : RegWord) (s : State),
    encode (.cfgwr reg imm) = .cmd (0x02#8 ++ reg ++ 0x0000#16 ++ imm) ∧
    exec (.cfgwr reg imm) s = .next
      (if 6 < reg.toNat then { s with cmderr := true, rspQ := s.rspQ ++ [0x0100000000000000] }
       else if s.mode ≠ .idle then { s with cmderr := true, rspQ := s.rspQ ++ [0x0200000000000000] }
       else
        { s with
          cfg :=
            { inrate := if reg = 0 then imm else s.cfg.inrate
              outrate := if reg = 1 then imm else s.cfg.outrate
              bandwidth := if reg = 2 then imm else s.cfg.bandwidth
              modscheme := if reg = 3 then imm else s.cfg.modscheme
              deviation := if reg = 4 then imm else s.cfg.deviation
              taps := if reg = 5 then imm else s.cfg.taps
              atten := if reg = 6 then imm else s.cfg.atten }
          rspQ := s.rspQ ++ [0x0000000000000000] })

/-- `CFGRD` in every mode: the response carries the register's 32 bits, `STATUS` as mode number plus `cmderr` in bit 2;
nothing else changes; an unassigned register is illegal. -/
def Obligations.CfgrdAnswersEveryRegister : Prop :=
  ∀ (reg : RegNum) (s : State),
    (reg.toNat ∉ [0, 1, 2, 3, 4, 5, 6, 0x10, 0x11, 0x12] →
      exec (.cfgrd reg) s = .next { s with cmderr := true, rspQ := s.rspQ ++ [0x0100000000000000] }) ∧
    (reg.toNat ∈ [0, 1, 2, 3, 4, 5, 6, 0x10, 0x11, 0x12] →
      exec (.cfgrd reg) s = .next
        { s with rspQ := s.rspQ ++ [BitVec.setWidth 64
          (if reg = 0 then s.cfg.inrate
           else if reg = 1 then s.cfg.outrate
           else if reg = 2 then s.cfg.bandwidth
           else if reg = 3 then s.cfg.modscheme
           else if reg = 4 then s.cfg.deviation
           else if reg = 5 then s.cfg.taps
           else if reg = 6 then s.cfg.atten
           else if reg = 0x10 then
            BitVec.ofNat 32 ((match s.mode with | .idle => 0 | .run => 1 | .err => 2 | .done => 3) +
              (if s.cmderr then 4 else 0))
           else if reg = 0x11 then s.errcode else s.rsdelay)] })

/-- In every legal state `RSDELAY` reads 0 outside `RUN` and in `RUN`, in the exact format, `min(floor(rs_delay · 65536),
2^32 - 1)`; in any format it reads that of the delay as the format rounds it, or 0 where this is negative (the model's
choice, notes/assumptions/22.md). `ERRCODE` reads a code from 1 to 6 in `ERR` and 0 otherwise. -/
def Obligations.StatusRegistersFollowTheMode : Prop :=
  ∀ s : State, s.wf →
    (s.mode ≠ .run → s.readReg .rsdelay = 0) ∧
    (s.mode = .run → ∃ o, s.objs = some o ∧
      (s.build.fmt = .exact →
        ((s.readReg .rsdelay).toNat : ℤ) = min ⌊o.rs.delay * 65536⌋ (2 ^ 32 - 1)) ∧
      ((s.readReg .rsdelay).toNat : ℤ) =
        max 0 (min ⌊(numericsOf s.build).delayRnd (o.rs.delay * 65536)⌋ (2 ^ 32 - 1))) ∧
    (s.mode ≠ .err → s.readReg .errcode = 0) ∧
    (s.mode = .err → 1 ≤ (s.readReg .errcode).toNat ∧ (s.readReg .errcode).toNat ≤ 6)

/-- A `START` in `IDLE` with a bad configuration reports the lowest code whose condition holds, enters `ERR`, and changes
nothing else. -/
def Obligations.StartReportsLowestErrorCode : Prop :=
  ∀ (s : State) (k : ℕ), s.mode = .idle →
    k = (if s.cfg.inrate.toInt ≤ 0 then 1
         else if s.cfg.outrate.toInt < 0 then 2
         else if s.cfg.bandwidth.toInt ≤ 0 ∨ 2 * s.cfg.bandwidth.toInt ≥ s.cfg.inrate.toInt then 3
         else if s.cfg.modscheme.toInt ≠ 0 then 4
         else if s.cfg.deviation.toInt ≤ 0 then 5
         else if s.cfg.taps.toInt < 1 ∨ (∃ m, s.build.lmax = some m ∧ s.cfg.taps.toInt > m) then 6
         else 0) →
    (k ≠ 0 → exec .start s = .next
      { s with mode := .err, errcode := BitVec.ofNat 32 k,
               rspQ := s.rspQ ++ [0x0300000000000000 ||| BitVec.ofNat 64 k] }) ∧
    (k = 0 → ∃ t, exec .start s = .next t ∧ t.mode = .run)

/-- A `START` in `IDLE` with a valid configuration creates every state object from the registers, sets `ERRCODE` and
`RSDELAY`, enters `RUN` and answers `OK`; the rest of the machine is as before. -/
def Obligations.StartCreatesTheObjects : Prop :=
  ∀ s : State, s.mode = .idle → validate s.build s.cfg = none →
    ∃ o : Objects,
      exec .start s = .next
        { s with mode := .run, errcode := 0, rsdelay := delayReg (numericsOf s.build) o.rs.delay, objs := some o,
                 rspQ := s.rspQ ++ [0x0000000000000000] } ∧
      o.inRate = s.cfg.inrate.toInt ∧
      o.outRate = (if s.cfg.outrate.toInt ≠ 0 then s.cfg.outrate.toInt else s.cfg.inrate.toInt) ∧
      o.att = s.cfg.atten.toInt ∧
      (o.fir.len : ℤ) = s.cfg.taps.toInt ∧
      o.firFc = (s.cfg.bandwidth.toInt : ℚ) / o.inRate ∧
      o.fir.coef = firDesign (numericsOf s.build) o.fir.len (.rat o.firFc) o.att ∧
      o.fir.hist = List.replicate o.fir.len Cplx.zero ∧ o.fir.head + 1 = o.fir.len ∧
      o.rs.m = s.build.rsm ∧
      stagePairs o.rs.stages = planOf s.build
        (o.outRate.toNat / Nat.gcd o.outRate.toNat o.inRate.toNat)
        (o.inRate.toNat / Nat.gcd o.outRate.toNat o.inRate.toNat) ∧
      (∀ st ∈ o.rs.stages, st.coef = bankDesign (numericsOf s.build) s.build.rsbw o.rs.m o.att st.p st.q ∧
        st.hist = List.replicate o.rs.m Cplx.zero ∧ st.head = o.rs.m - 1 ∧ st.acc = 0) ∧
      o.rs.delay = totalDelay (numericsOf s.build) o.rs.m (stagePairs o.rs.stages) ∧
      o.fm = { kf := (s.cfg.deviation.toInt : ℚ) / o.outRate, prev := none }

/-- A `PUSH` in `RUN` whose bytes are there takes them, runs each stage over the whole chunk in turn, writes the output
words low byte first and answers with their number; everything but the stages' histories and the ports is as
before. (A byte that the model names by the number it is rounded from: notes/assumptions/2.md.) -/
def Obligations.PushRunsTheStagesOverTheChunk : Prop :=
  ∀ (len : BitVec 32) (s : State) (o : Objects), s.mode = .run → s.objs = some o →
    len.toNat ≤ s.inQ.length →
    let r := chunkByStages (numericsOf s.build) s.build.qtie o (s.inQ.take len.toNat)
    ∃ t, exec (.push len) s = .next t ∧
      t = { s with
            objs := some r.1
            inQ := s.inQ.drop len.toNat
            outQ := s.outQ ++ r.2.flatMap OutSample.bytes
            rspQ := s.rspQ ++ [BitVec.setWidth 64 (BitVec.ofNat 32 r.2.length)] } ∧
      t.outBytes = s.outBytes ++ r.2.flatMap fun v : OutSample => [v.val.setWidth 8, (v.val >>> 8).setWidth 8]

/-- A `PUSH` whose bytes are not there waits: no byte is taken, nothing but the wait is recorded; the waiting core stays
exactly as it is until the bytes are there, and then runs the `PUSH` (the model's wait, notes/assumptions/5.md). -/
def Obligations.PushWaitsForItsBytes : Prop :=
  ∀ (len : BitVec 32) (s : State),
    (s.mode = .run → s.inQ.length < len.toNat → exec (.push len) s = .next { s with pushWait := some len }) ∧
    (s.mode = .run → s.pushWait = some len → s.inQ.length < len.toNat → step s = .next s) ∧
    (∀ bs, s.pushWait = some len →
      step (s.hostBytes bs) = exec (.push len) { s with pushWait := none, inQ := s.inQ ++ bs })

/-- `PUSH 0` in a running machine reads nothing, writes nothing and answers 0. -/
def Obligations.PushZeroDoesNothing : Prop :=
  ∀ s : State, s.mode = .run → s.objs ≠ none →
    exec (.push 0) s = .next { s with rspQ := s.rspQ ++ [0x0000000000000000] }

/-- The bytes behind the last whole sample of a chunk are consumed and change nothing: a chunk with one to three stray
bytes leaves the objects, the output and the response of the chunk without them. -/
def Obligations.TrailingBytesAreDropped : Prop :=
  ∀ (s : State) (xs tail more : List Byte), s.mode = .run → s.objs ≠ none → xs.length % 4 = 0 → tail.length < 4 →
    xs.length + tail.length < 2 ^ 32 →
    ∃ t, exec (.push (BitVec.ofNat 32 xs.length)) { s with inQ := xs ++ more } = .next t ∧
      exec (.push (BitVec.ofNat 32 (xs.length + tail.length))) { s with inQ := xs ++ (tail ++ more) } = .next t ∧
      t.inQ = more

/-- Cutting a stream behind a whole sample changes neither the bytes written nor the state left, and the two counts add
up to the one; cut inside a sample, with every byte there, it can change the bytes written. -/
def Obligations.ChunkSplitInvariance : Prop :=
  (∀ (s : State) (xs ys more : List Byte), s.mode = .run → s.objs ≠ none → s.inQ = xs ++ (ys ++ more) →
    xs.length % 4 = 0 → xs.length + ys.length < 2 ^ 32 →
    ∃ t u v n k,
      exec (.push (BitVec.ofNat 32 xs.length)) s = .next t ∧
      exec (.push (BitVec.ofNat 32 ys.length)) t = .next u ∧
      exec (.push (BitVec.ofNat 32 (xs.length + ys.length))) s = .next v ∧
      { u with rspQ := [] } = { v with rspQ := [] } ∧
      u.rspQ = s.rspQ ++ [rspWord .ok (BitVec.ofNat 32 n), rspWord .ok (BitVec.ofNat 32 k)] ∧
      v.rspQ = s.rspQ ++ [rspWord .ok (BitVec.ofNat 32 (n + k))]) ∧
  ∃ (s t u v : State) (n k : BitVec 32), s.mode = .run ∧ n.toNat % 4 ≠ 0 ∧
    n.toNat + k.toNat ≤ s.inQ.length ∧ exec (.push n) s = .next t ∧ exec (.push k) t = .next u ∧
    exec (.push (n + k)) s = .next v ∧ u.outBytes ≠ v.outBytes

/-- `EOS`, word `0x0600000000000000`: in `RUN` it releases the objects, clears `RSDELAY`, enters `DONE`, answers `OK`,
writes nothing to `out`, and `STATUS` then reads 3 but for `cmderr`; in every other mode it is `BADMODE`. -/
def Obligations.EosReleasesTheObjects : Prop :=
  encode .eos = .cmd 0x0600000000000000 ∧
  ∀ s : State,
    (s.mode = .run → ∃ t, exec .eos s = .next t ∧
      t = { s with objs := none, rsdelay := 0, mode := .done, rspQ := s.rspQ ++ [0x0000000000000000] } ∧
      t.readReg .status = 3 ||| (if s.cmderr then 4 else 0)) ∧
    (s.mode ≠ .run → exec .eos s = .next { s with cmderr := true, rspQ := s.rspQ ++ [0x0200000000000000] })

/-- The five commands of `CFGFM`, run from `IDLE`, leave its operands in their registers and write five `OK`
responses; nothing else changes. -/
def Obligations.CfgfmWritesTheConfiguration : Prop :=
  ∀ (s : State) (a b c d : RegWord), s.mode = .idle → s.pushWait = none →
    s.cmdQ = (expandPseudo (.cfgfm a b c d)).filterMap commandWord? →
    Sys2Proof.core.run 5 s = .next
      { s with
        cmdQ := []
        cfg := { s.cfg with inrate := a, outrate := b, bandwidth := c, modscheme := 0, deviation := d }
        rspQ := s.rspQ ++ [0, 0, 0, 0, 0] }

/-! ## Invariants -/

/-- Every step keeps the legal states legal: the objects exist exactly in `RUN`, every buffer has its length, every head
and phase accumulator stays in range, the latched values are those of the registers, `RSDELAY` and `ERRCODE` follow the
mode. -/
def Obligations.EveryStepKeepsTheInvariant : Prop :=
  ∀ s t : State, s.wf → step s = .next t → t.wf

/-- The reset state is legal in every legal build, whatever the host queues on its ports, and so is every state right
after a power-on reset. -/
def Obligations.ResetSatisfiesTheInvariant : Prop :=
  State.reset.wf ∧
  (∀ (b : Build) (ws : List CmdWord) (bs : List Byte), b.wf →
    ({ State.reset with build := b, cmdQ := ws, inQ := bs } : State).wf) ∧
  ∀ s : State, s.build.wf → s.powerOn.wf

/-- From a legal state the machine never stops: every step has a next state. The fault is the model's
(notes/assumptions/7.md), and no legal state reaches it. -/
def Obligations.LegalStatesNeverStop : Prop :=
  ∀ s : State, s.wf → ∃ t, step s = .next t

/-- No step changes the build. -/
def Obligations.EveryStepKeepsTheBuild : Prop :=
  ∀ s t : State, step s = .next t → t.build = s.build

/-- What `START` designed or latched is never changed while the machine runs: a step from `RUN` to `RUN` keeps the
configuration, the coefficient sets, the plan, the delay, `fm_kf` and the latched values. -/
def Obligations.DesignsAreImmutableWhileRunning : Prop :=
  ∀ (s t : State) (o p : Objects), s.mode = .run → t.mode = .run → s.objs = some o → t.objs = some p →
    step s = .next t →
    t.cfg = s.cfg ∧ t.rsdelay = s.rsdelay ∧ p.inRate = o.inRate ∧ p.outRate = o.outRate ∧ p.firFc = o.firFc ∧
    p.att = o.att ∧ p.fir.len = o.fir.len ∧ p.fir.coef = o.fir.coef ∧ p.rs.m = o.rs.m ∧ p.rs.delay = o.rs.delay ∧
    p.rs.stages.map (fun st => (st.p, st.q, st.coef)) = o.rs.stages.map (fun st => (st.p, st.q, st.coef)) ∧
    p.fm.kf = o.fm.kf

/-! ## Stage 1 -/

/-- `IQDEC` in every number format: each coordinate is the field's signed integer over 32768, so it is in `[-1, 1)` and
the integer comes back exactly. -/
def Obligations.IqdecDecodesExactly : Prop :=
  ∀ i q : BitVec 16,
    iqSample i q = ⟨.rat ((i.toInt : ℚ) / 32768), .rat ((q.toInt : ℚ) / 32768)⟩ ∧
    -1 ≤ (iqSample i q).re.val ∧ (iqSample i q).re.val ≤ 32767 / 32768 ∧
    -1 ≤ (iqSample i q).im.val ∧ (iqSample i q).im.val ≤ 32767 / 32768 ∧
    BitVec.ofInt 16 ⌊(iqSample i q).re.val * 32768⌋ = i ∧ BitVec.ofInt 16 ⌊(iqSample i q).im.val * 32768⌋ = q

/-- `IQDEC` completes wherever the objects exist: the sample goes through the five stages, the words it causes are
written to `out`, low byte first, and nothing else changes (`IQDEC` as the loop body of `PUSH`: notes/assumptions/9.md; a
byte named by the number it is rounded from: notes/assumptions/2.md). -/
def Obligations.IqdecFeedsThePipeline : Prop :=
  ∀ (i q : BitVec 16) (s : State) (o : Objects), s.objs = some o →
    let N := numericsOf s.build
    let f := firStep N o.fir ⟨.rat ((i.toInt : ℚ) / 32768), .rat ((q.toInt : ℚ) / 32768)⟩
    let r := rsStep N o.rs f.2
    let d := fmDemAll N o.fm r.2
    ∃ t, exec (.iqdec i q) s = .next t ∧
      t = { s with
            objs := some { o with fir := f.1, rs := r.1, fm := d.1 }
            outQ := s.outQ ++ d.2.flatMap fun x => (quant N s.build.qtie x).bytes } ∧
      t.outBytes = s.outBytes ++ d.2.flatMap fun x =>
        [(quant N s.build.qtie x).val.setWidth 8, ((quant N s.build.qtie x).val >>> 8).setWidth 8]

/-- `IQDECODE`: a chunk of `len` bytes decodes to `floor(len/4)` samples, sample `j` from bytes `4j` to `4j + 3`, in-phase
field first and low byte first, each field a signed integer over 32768; the 0 to 3 bytes behind the last sample are
dropped. -/
def Obligations.ChunkFraming : Prop :=
  ∀ bs : List Byte, (iqDecode bs).length = bs.length / 4 ∧
    ∀ (j : ℕ) (b0 b1 b2 b3 : Byte),
      bs[4 * j]? = some b0 → bs[4 * j + 1]? = some b1 → bs[4 * j + 2]? = some b2 → bs[4 * j + 3]? = some b3 →
      (iqDecode bs)[j]? = some
        ⟨.rat (((b1 ++ b0 : BitVec 16).toInt : ℚ) / 32768), .rat (((b3 ++ b2 : BitVec 16).toInt : ℚ) / 32768)⟩

/-! ## Stage 2 -/

/-- `FIRSTEP` from the zero history is the convolution of the coefficient set with the input, coefficient 0 on the
newest sample, one output for each input; the inputs before the first are zero. In the exact format, on the real numbers
the terms name (notes/assumptions/1.md). -/
def Obligations.FirComputesTheConvolution : Prop :=
  ∀ (z : RealNum) (L : ℕ) (coef : List RealNum) (xs : List Cplx), 1 ≤ L → coef.length = L →
    let ys := (firRun (exactNumerics z) ⟨L, coef, List.replicate L Cplx.zero, L - 1⟩ xs).2
    ys.length = xs.length ∧
    ∀ (n : ℕ) (y : Cplx), ys[n]? = some y →
      y.re.val = (∑ k ∈ Finset.range L,
        if k ≤ n then (coef.getD k (.rat 0)).val * (xs.getD (n - k) Cplx.zero).re.val else 0) ∧
      y.im.val = (∑ k ∈ Finset.range L,
        if k ≤ n then (coef.getD k (.rat 0)).val * (xs.getD (n - k) Cplx.zero).im.val else 0)

/-- In the exact format a designed coefficient is `2·fc · sinc(2·fc·t) · w` with `t = n - (L-1)/2`, and the set is
symmetric (numbers as terms: notes/assumptions/1.md). -/
def Obligations.FirDesignIsSymmetric : Prop :=
  ∀ (z : RealNum) (L : ℕ) (fc : RealNum) (A : ℤ) (n : ℕ), n < L →
    (firTap (exactNumerics z) L fc A n).val =
      2 * fc.val *
        (let x := 2 * fc.val * (n - ((L : ℝ) - 1) / 2)
         if x = 0 then 1 else Real.sin (Real.pi * x) / (Real.pi * x)) *
        (kaiserWindow (exactNumerics z) L A n).val ∧
    (firTap (exactNumerics z) L fc A n).val = (firTap (exactNumerics z) L fc A (L - 1 - n)).val

/-- The centre tap of an odd length is `2·fc` exactly in the exact format (numbers as terms: notes/assumptions/1.md); a
single tap is its own centre. -/
def Obligations.FirCentreTapIsTwiceTheCutoff : Prop :=
  ∀ (z : RealNum) (m : ℕ) (fc : RealNum) (A : ℤ), (firTap (exactNumerics z) (2 * m + 1) fc A m).val = 2 * fc.val

/-! ## Stage 3 -/

/-- The default plan of any ratio in lowest terms: coprime positive stages whose ratios multiply to it, all but one of
them halving or doubling stages, and the one between 1/2 and 2. -/
def Obligations.DefaultPlanRealizesTheRatio : Prop :=
  ∀ P Q : ℕ, 1 ≤ P → 1 ≤ Q → Nat.gcd P Q = 1 →
    planOk P Q (defaultPlan P Q) ∧
    (P < Q → ∃ k a b, defaultPlan P Q = List.replicate k (1, 2) ++ [(a, b)] ∧ a ≤ b ∧ b < 2 * a) ∧
    (Q ≤ P → ∃ k a b, defaultPlan P Q = (a, b) :: List.replicate k (2, 1) ∧ b ≤ a ∧ a < 2 * b)

/-- The phase accumulator stays below `Q` and a stage's buffers keep their form. -/
def Obligations.PhaseAccumulatorStaysBelowQ : Prop :=
  ∀ (N : Numerics) (M : ℕ) (st : RsStage) (x : Cplx), st.wf M → (rsStage N M st x).1.wf M

/-- The output count of a stage: `n` inputs give `max(0, ceil((n·P - a)/Q))` outputs, and the accumulator ends at
`a + outputs·Q - n·P`. -/
def Obligations.StageOutputCount : Prop :=
  ∀ (N : Numerics) (M : ℕ) (st : RsStage) (xs : List Cplx), st.wf M →
    let outs := (stageRun N M st xs).2.length
    (outs : ℤ) = max 0 ⌈((xs.length * st.p : ℕ) - (st.acc : ℤ) : ℚ) / st.q⌉ ∧
    ((stageRun N M st xs).1.acc : ℤ) = st.acc + outs * st.q - xs.length * st.p

/-- Rate accuracy: from zero accumulators the cascade's output count exceeds `N·R` by less than a bound that does not
depend on `N`, and is never below it. -/
def Obligations.CascadeRateAccuracy : Prop :=
  ∀ (N : Numerics) (M : ℕ) (sts : List RsStage) (xs : List Cplx), sts ≠ [] → (∀ st ∈ sts, st.wf M ∧ st.acc = 0) →
    let outs : ℚ := (cascadeRun N M sts xs).2.length
    0 ≤ outs - xs.length * pairsRatio (stagePairs sts) ∧
    outs - xs.length * pairsRatio (stagePairs sts) < countSlack (stagePairs sts)

/-- The number of output samples of a `PUSH` is at most the bound of 42_resampler.md R84, whatever the accumulators
held. -/
def Obligations.PushOutputBound : Prop :=
  ∀ (s t : State) (o : Objects) (len : BitVec 32), s.mode = .run → s.objs = some o → o.wf →
    len.toNat ≤ s.inQ.length → exec (.push len) s = .next t →
    t.outQ.length ≤ s.outQ.length + 2 * outputBound o.rs.stages (len.toNat / 4)

/-- Giving every output of a stage to the next before the stage goes on (the model's `RSSTEP`) is the same as running
each stage over the whole sequence in turn. -/
def Obligations.DepthFirstEqualsStageByStage : Prop :=
  ∀ (N : Numerics) (M : ℕ) (sts : List RsStage) (x : Cplx), feed N M sts.length sts x = cascadeRun N M sts [x]

/-- The delay of a plan, in the exact format (notes/assumptions/1.md), is the sum of the stages' delays, each divided by
the ratio in front of the stage: a rational number. -/
def Obligations.DelayIsTheSumOverTheStages : Prop :=
  ∀ (z : RealNum) (M : ℕ) (l : List (ℕ × ℕ)), (∀ s ∈ l, 1 ≤ s.1 ∧ 1 ≤ s.2) →
    totalDelay (exactNumerics z) M l = ∑ i ∈ Finset.range l.length,
      (((l.getD i (1, 1)).1 : ℚ) * M - 1) / (2 * (l.getD i (1, 1)).1) / pairsRatio (l.take i)

/-! ## Stage 4 -/

/-- The angle of the exact format, in turns, has the values 43_fm_demod.md R91 lists, at every distance from the
origin, and `ATAN2_ZERO / (2π)` at the origin, one value for the build (numbers as terms: notes/assumptions/1.md, the side
of the negative real axis: notes/assumptions/11.md). -/
def Obligations.AngleExactValues : Prop :=
  ∀ (z y x : RealNum) (r : ℝ), 0 < r →
    let turns := ((exactNumerics z).angle y x).val
    (y.val = 0 ∧ x.val = r → turns = 0) ∧ (y.val = r ∧ x.val = r → turns = 1 / 8) ∧
    (y.val = r ∧ x.val = 0 → turns = 1 / 4) ∧ (y.val = r ∧ x.val = -r → turns = 3 / 8) ∧
    (y.val = 0 ∧ x.val = -r → turns = 1 / 2) ∧ (y.val = -r ∧ x.val = -r → turns = -3 / 8) ∧
    (y.val = -r ∧ x.val = 0 → turns = -1 / 4) ∧ (y.val = -r ∧ x.val = r → turns = -1 / 8) ∧
    (y.val = 0 ∧ x.val = 0 → turns = z.val / (2 * Real.pi))

/-- Away from the origin the angle of the exact format is the one in `(-1/2, 1/2]` turns that points from the origin to
`(x, y)`, so it ignores the magnitude, and so does the output word made from it, however near to the origin the point lies
(43_fm_demod.md R88, R91; numbers as terms: notes/assumptions/1.md). -/
def Obligations.AngleIgnoresMagnitude : Prop :=
  ∀ z y x : RealNum,
    let turns := ((exactNumerics z).angle y x).val
    let r := Real.sqrt (x.val ^ 2 + y.val ^ 2)
    (¬(y.val = 0 ∧ x.val = 0) →
      -1 / 2 < turns ∧ turns ≤ 1 / 2 ∧
      x.val = r * Real.cos (2 * Real.pi * turns) ∧ y.val = r * Real.sin (2 * Real.pi * turns)) ∧
    ∀ (c : ℝ) (y' x' : RealNum), 0 < c → y'.val = c * y.val → x'.val = c * x.val →
      ((exactNumerics z).angle y' x').val = turns ∧
      ∀ (kf : ℚ) (t : QTie), 0 < kf →
        (quant (exactNumerics z) t (fmScale (exactNumerics z) kf ((exactNumerics z).angle y' x'))).val =
          (quant (exactNumerics z) t (fmScale (exactNumerics z) kf ((exactNumerics z).angle y x))).val

/-- `FMDEM` in the exact format: the output is the angle of `s·conj(prev)` in turns over `fm_kf`, with `1 + j·0` before
the first sample, and `s` becomes the previous sample (numbers as terms, angles in turns: notes/assumptions/1.md). -/
def Obligations.FmdemMeasuresThePhaseStep : Prop :=
  ∀ (z : RealNum) (f : FmState) (s p : Cplx), 0 < f.kf →
    (f.prev = some p ∨ f.prev = none ∧ p = ⟨.rat 1, .rat 0⟩) →
    (fmDem (exactNumerics z) f s).1 = { f with prev := some s } ∧
    (fmDem (exactNumerics z) f s).2.val =
      realTurns z.val (s.im.val * p.re.val - s.re.val * p.im.val) (s.re.val * p.re.val + s.im.val * p.im.val) / f.kf

/-! ## Stage 5 -/

/-- `QUANT` in the exact format on every number, rational or not: the clamp comes before the scaling by 32767, and both it
and the rounding are those of the real number (numbers as terms: notes/assumptions/1.md). -/
def Obligations.QuantClampsBeforeScaling : Prop :=
  ∀ (z : RealNum) (t : QTie) (x : RealNum),
    (1 ≤ x.val → (quant (exactNumerics z) t x).val = 32767) ∧
    (x.val ≤ -1 → (quant (exactNumerics z) t x).val = BitVec.ofInt 16 (-32767)) ∧
    (-1 < x.val → x.val < 1 →
      (quant (exactNumerics z) t x).val = BitVec.ofInt 16 (roundNearest t (x.val * 32767)))

/-- Every output integer of every build lies in `-32767 .. 32767`; in a finite format by the model's own clamp
(notes/assumptions/13.md). -/
def Obligations.QuantRangeIsSymmetric : Prop :=
  ∀ (N : Numerics) (t : QTie) (x : RealNum), -32767 ≤ (quant N t x).val.toInt ∧ (quant N t x).val.toInt ≤ 32767

/-- Rounding a real number to the nearest integer: never more than 1/2 away under any tie rule, the same integer under
every tie rule where the number is not half-way, and under the default rule `floor(r + 1/2)` from 0 up, odd-symmetric. -/
def Obligations.RoundNearestHalfAway : Prop :=
  ∀ (t : QTie) (r : ℝ),
    |(roundNearest t r : ℝ) - r| ≤ 1 / 2 ∧
    ((∀ m : ℤ, r ≠ m + 1 / 2) → roundNearest t r = roundNearest .halfAway r) ∧
    (0 ≤ r → roundNearest .halfAway r = ⌊r + 1 / 2⌋) ∧
    (r < 0 → roundNearest .halfAway r = -⌊-r + 1 / 2⌋) ∧
    roundNearest .halfAway (-r) = -roundNearest .halfAway r

/-- The bytes an `OutWrite` of one sample puts on `out`: low byte of its word, then high byte. -/
def Obligations.OutputIsLittleEndian : Prop :=
  ∀ v : OutSample, v.bytes.map OutByte.val = [v.val.setWidth 8, (v.val >>> 8).setWidth 8] ∧
    natOfBytesLE (v.bytes.map OutByte.val) = v.val.toNat

/-! ## The whole chunk -/

/-- A `PUSH` that completes consumes its bytes, writes a whole number of two-byte samples and answers with that number,
modulo `2^32`. -/
def Obligations.PushCountsWhatItWrote : Prop :=
  ∀ (len : BitVec 32) (s t : State), exec (.push len) s = .next t → t.pushWait = none → s.mode = .run →
    ∃ n, t.outQ.length = s.outQ.length + 2 * n ∧
      t.rspQ = s.rspQ ++ [rspWord .ok (BitVec.ofNat 32 n)] ∧ t.inQ = s.inQ.drop len.toNat

/-! ## Transport, shutdown, and what the designs and the stages compute -/

/-- Over a byte-wide transport the byte with bits 7:0 goes first and the byte with bits 63:56 last, for a response word as
for a command word, and a command word sent so is the command it was. -/
def Obligations.TransportIsLowByteFirst : Prop :=
  (∀ w : CmdWord, (cmdTransport w).length = 8 ∧ decodeCmdBytes (cmdTransport w) = decodeCmd w ∧
    ∀ k < 8, (cmdTransport w)[k]? = some (w.extractLsb' (8 * k) 8)) ∧
  ∀ w : RspWord, (rspTransport w).length = 8 ∧ natOfBytesLE (rspTransport w) = w.toNat ∧
    ∀ k < 8, (rspTransport w)[k]? = some (w.extractLsb' (8 * k) 8)

/-- An orderly shutdown is a run whose last command is `EOS`: a running machine with `EOS` as its one command left makes
it in one step, and from a legal state every orderly shutdown ends in `DONE` with the objects released, `RSDELAY` 0 and
the core idle: an idle core steps to itself, the model's choice (notes/assumptions/5.md). -/
def Obligations.OrderlyShutdownEndsWithEos : Prop :=
  (∀ s : State, s.mode = .run → s.pushWait = none → s.cmdQ = [0x0600000000000000] → ∃ t, s.orderlyShutdown 0 t) ∧
  ∀ (s t : State) (k : ℕ), s.wf → s.orderlyShutdown k t →
    t.mode = .done ∧ t.objs = none ∧ t.readReg .rsdelay = 0 ∧ step t = .next t

/-- The bank of a stage, in the exact format (notes/assumptions/1.md): entry `j` is `P` times tap `j` of the prototype of
length `P·M` with cutoff `rsbw / max(P, Q)`. -/
def Obligations.BankIsTheScaledPrototype : Prop :=
  ∀ (z rsbw : RealNum) (M : ℕ) (A : ℤ) (P Q : ℕ), 1 ≤ P →
    (bankDesign (exactNumerics z) rsbw M A P Q).length = P * M ∧
    ∃ fc : RealNum, fc.val = rsbw.val / max P Q ∧
      ∀ j < P * M, ∃ c, (bankDesign (exactNumerics z) rsbw M A P Q)[j]? = some c ∧
        c.val = P * (firTap (exactNumerics z) (P * M) fc A j).val

/-- The Kaiser shape parameter in the exact format: its three branches, `A = 50` and `A = 21` in the middle one, and its
value for the default attenuation. -/
def Obligations.KaiserShapeBranches : Prop :=
  ∀ (z : RealNum) (A : ℤ),
    (50 < A → (kaiserBeta (exactNumerics z) A).val = 0.1102 * (A - 8.7)) ∧
    (21 ≤ A → A ≤ 50 →
      (kaiserBeta (exactNumerics z) A).val = 0.5842 * ((A : ℝ) - 21) ^ (0.4 : ℝ) + 0.07886 * (A - 21)) ∧
    (A < 21 → (kaiserBeta (exactNumerics z) A).val = 0) ∧
    (kaiserBeta (exactNumerics z) 70).val = 6.75526

/-- The Kaiser window of the exact format is the formula of 41_fir_filter.md R65: 1 for a single tap, and for `L > 1` the
quotient of the two Bessel values, so `1 / I0(β)` at both ends and 1 at the centre of an odd length; it is 1 everywhere for
an attenuation below 21 (numbers as terms: notes/assumptions/1.md). -/
def Obligations.KaiserWindowEndsAndCentre : Prop :=
  ∀ (z : RealNum) (L : ℕ) (A : ℤ),
    let β := (kaiserBeta (exactNumerics z) A).val
    (L = 1 → (kaiserWindow (exactNumerics z) L A 0).val = 1) ∧
    (1 < L → ∀ n < L, (kaiserWindow (exactNumerics z) L A n).val =
      besselI0 (β * Real.sqrt (1 - (2 * n / ((L : ℝ) - 1) - 1) ^ 2)) / besselI0 β) ∧
    (1 < L → (kaiserWindow (exactNumerics z) L A 0).val = 1 / besselI0 β ∧
      (kaiserWindow (exactNumerics z) L A (L - 1)).val = 1 / besselI0 β) ∧
    (∀ m, L = 2 * m + 1 → (kaiserWindow (exactNumerics z) L A m).val = 1) ∧
    (A < 21 → ∀ n < L, (kaiserWindow (exactNumerics z) L A n).val = 1)

/-- `RSSTAGE` in the exact format (notes/assumptions/1.md): output `j` of a stage is that of branch `acc + j·Q`, a branch
below `P`, the sum over `k` of entry `branch + k·P` of the bank times the input `k` places back. -/
def Obligations.StageOutputsAreBranchSums : Prop :=
  ∀ (z : RealNum) (M : ℕ) (st : RsStage) (x y : Cplx) (j : ℕ), st.wf M →
    (rsStage (exactNumerics z) M st x).2[j]? = some y →
    let hist := (rsStage (exactNumerics z) M st x).1.hist
    let head := (rsStage (exactNumerics z) M st x).1.head
    st.acc + j * st.q < st.p ∧ hist = st.hist.set head x ∧ head = (st.head + 1) % M ∧
    y.re.val = ∑ k ∈ Finset.range M,
      (st.coef.getD (st.acc + j * st.q + k * st.p) (.rat 0)).val *
        (hist.getD ((head + M - k) % M) Cplx.zero).re.val ∧
    y.im.val = ∑ k ∈ Finset.range M,
      (st.coef.getD (st.acc + j * st.q + k * st.p) (.rat 0)).val *
        (hist.getD ((head + M - k) % M) Cplx.zero).im.val

/-! ## Exact reals -/

/-- In the exact format every byte a `PUSH` writes is defined (93_implementation_defined.md U5) and is that of the exact
result: for each number `FMDEM` emits, the integer 44_quantizer.md R93 and R94 give for the real number the term names, with
nothing rounded before it and no case decided otherwise than by that number (45_commands.md R110; numbers as terms:
notes/assumptions/1.md, bytes: notes/assumptions/2.md). -/
def Obligations.OutputBytesAreTheExactRounding : Prop :=
  ∀ (len : BitVec 32) (s : State) (o : Objects), s.build.fmt = .exact → s.mode = .run → s.objs = some o →
    len.toNat ≤ s.inQ.length →
    let N := numericsOf s.build
    let f := firRun N o.fir (iqDecode (s.inQ.take len.toNat))
    let r := cascadeRun N o.rs.m o.rs.stages f.2
    let xs := (fmDemAll N o.fm r.2).2
    ∃ t, exec (.push len) s = .next t ∧
      t.outBytes = s.outBytes ++ xs.flatMap fun x : RealNum =>
        let c : ℝ := if x.val < -1 then -1 else if 1 < x.val then 1 else x.val
        let k := roundNearest s.build.qtie (c * 32767)
        [(BitVec.ofInt 16 k).setWidth 8, ((BitVec.ofInt 16 k) >>> 8).setWidth 8]
end

