-- ==== Sys2Proof/Laws/Reals.lean ====
section
/-! SUPPORT. What each operation of the exact format does: the term it builds names the exact result. -/

namespace Sys2Proof

@[simp] theorem RealNum.val_rat (q : ℚ) : (RealNum.rat q).val = q := rfl

theorem RealNum.val_plus (a b : RealNum) : (a.plus b).val = a.val + b.val := by
  unfold RealNum.plus
  split
  · simp
  · split_ifs with h h' <;> simp_all [RealNum.val]

theorem RealNum.val_minus (a b : RealNum) : (a.minus b).val = a.val - b.val := by
  unfold RealNum.minus
  split
  · simp
  · split_ifs with h <;> simp_all [RealNum.val]

theorem RealNum.val_times (a b : RealNum) : (a.times b).val = a.val * b.val := by
  unfold RealNum.times
  split
  · simp
  · split_ifs with h
    · rcases h with rfl | rfl <;> simp
    · rfl

theorem RealNum.val_over (a : RealNum) {b : RealNum} (h : b.val ≠ 0) : (a.over b).val = a.val / b.val := by
  unfold RealNum.over
  split
  · rename_i p q
    have hq : q ≠ 0 := by simpa using h
    simp [hq]
  · rw [RealNum.val, if_neg h]

theorem RealNum.val_negate (a : RealNum) : a.negate.val = -a.val := by
  unfold RealNum.negate
  split
  · simp
  · rfl

theorem RealNum.val_atLeastZero (a : RealNum) : a.atLeastZero.val = max 0 a.val := by
  unfold RealNum.atLeastZero
  split
  · simp
  · rfl

/-- The clamp is the nearest number of `[-1, 1]`. -/
theorem clampUnit_eq {K : Type*} [Ring K] [LinearOrder K] [IsStrictOrderedRing K] (x : K) :
    clampUnit x = max (-1) (min 1 x) := by
  unfold clampUnit
  split_ifs with h h'
  · rw [min_eq_right (h.le.trans (neg_le_self zero_le_one)), max_eq_left h.le]
  · rw [min_eq_left h'.le, max_eq_right (neg_le_self zero_le_one)]
  · rw [min_eq_right (not_lt.mp h'), max_eq_right (not_lt.mp h)]

/-- Clamping a rational and clamping the real number it is are the same. -/
theorem clampUnit_cast (q : ℚ) : ((clampUnit q : ℚ) : ℝ) = clampUnit (q : ℝ) := by
  simp only [clampUnit_eq]
  push_cast
  rfl

theorem RealNum.val_clamped (a : RealNum) : a.clamped.val = clampUnit a.val := by
  unfold RealNum.clamped
  split
  · exact clampUnit_cast _
  · rfl

theorem RealNum.val_whenZero (c a b : RealNum) : (c.whenZero a b).val = if c.val = 0 then a.val else b.val := by
  unfold RealNum.whenZero
  split
  · split_ifs with h h' h' <;> simp_all
  · rfl

/-- The table of rational sines is right. -/
theorem sinPiRational_spec {r v : ℚ} (h : sinPiRational r = some v) : Real.sin (Real.pi * r) = v := by
  have s : ∀ x y : ℝ, x = y → Real.sin x = Real.sin y := fun _ _ e => by rw [e]
  unfold sinPiRational at h
  split_ifs at h with h0 h1 h2 h3 h4 <;> simp only [Option.some.injEq] at h <;> subst h
  · rcases h0 with rfl | rfl <;> simp
  · subst h1
    rw [s _ (Real.pi / 2) (by push_cast; ring), Real.sin_pi_div_two]; norm_num
  · subst h2
    rw [s _ (Real.pi / 2 + Real.pi) (by push_cast; ring), Real.sin_add_pi, Real.sin_pi_div_two]; norm_num
  · rcases h3 with rfl | rfl
    · rw [s _ (Real.pi / 6) (by push_cast; ring), Real.sin_pi_div_six]; norm_num
    · rw [s _ (Real.pi - Real.pi / 6) (by push_cast; ring), Real.sin_pi_sub, Real.sin_pi_div_six]; norm_num
  · rcases h4 with rfl | rfl
    · rw [s _ (Real.pi / 6 + Real.pi) (by push_cast; ring), Real.sin_add_pi, Real.sin_pi_div_six]; norm_num
    · rw [s _ (-(Real.pi / 6) + 2 * Real.pi) (by push_cast; ring), Real.sin_add_two_pi, Real.sin_neg,
        Real.sin_pi_div_six]; norm_num

theorem RealNum.val_sineOfPi (x : RealNum) : x.sineOfPi.val = Real.sin (Real.pi * x.val) := by
  unfold RealNum.sineOfPi
  split
  · rename_i q
    split
    · rename_i v h
      rw [RealNum.val_rat, ← sinPiRational_spec h, RealNum.val_rat,
        ← Real.sin_sub_int_mul_two_pi (Real.pi * (q : ℝ)) ⌊q / 2⌋]
      congr 1; push_cast; ring
    · rfl
  · rfl

theorem natRoot_spec {n a : ℕ} (h : natRoot n = some a) : n = a * a := by
  unfold natRoot at h
  split_ifs at h with h'
  cases h; exact h'.symm

theorem rootRational_spec {q v : ℚ} (h : rootRational q = some v) : 0 ≤ v ∧ q = v * v := by
  unfold rootRational at h
  split_ifs at h with h0
  split at h
  · rename_i a b ha hb
    cases h
    refine ⟨by positivity, ?_⟩
    have hn : (q.num : ℚ) = q.num.natAbs := by
      have : 0 ≤ q.num := Rat.num_nonneg.mpr (not_lt.mp h0)
      rw [show (q.num : ℚ) = ((q.num.natAbs : ℤ) : ℚ) by rw [Int.natAbs_of_nonneg this]]
      simp
    have e : q = (q.num : ℚ) / q.den := (Rat.num_div_den q).symm
    rw [e, hn, natRoot_spec ha, natRoot_spec hb]
    push_cast
    rw [div_mul_div_comm]
  · cases h

theorem RealNum.val_root (x : RealNum) : x.root.val = Real.sqrt x.val := by
  unfold RealNum.root
  split
  · split
    · rename_i v h
      obtain ⟨h0, rfl⟩ := rootRational_spec h
      rw [RealNum.val_rat, RealNum.val_rat]
      push_cast
      exact (Real.sqrt_mul_self (by exact_mod_cast h0)).symm
    · rfl
  · rfl

@[simp] theorem besselI0_zero : besselI0 0 = 1 := by
  unfold besselI0
  rw [tsum_eq_single 0 (fun m hm => by simp [hm])]
  simp

theorem RealNum.val_bessel (x : RealNum) : x.bessel.val = besselI0 x.val := by
  unfold RealNum.bessel
  split_ifs with h
  · simp [h]
  · rfl

theorem RealNum.val_toThe04 (x : RealNum) : x.toThe04.val = |x.val| ^ (2 / 5 : ℝ) := by
  unfold RealNum.toThe04
  split_ifs with h
  · rcases h with rfl | rfl
    · simp [Real.zero_rpow]
    · simp
  · rfl

theorem besselI0_summable (x : ℝ) : Summable fun m : ℕ => ((x / 2) ^ m / (m.factorial : ℝ)) ^ 2 := by
  have h : Summable fun m : ℕ => ((x / 2) ^ 2) ^ m / (m.factorial : ℝ) := Real.summable_pow_div_factorial _
  refine Summable.of_nonneg_of_le (fun m => by positivity) (fun m => ?_) h
  rw [div_pow, ← pow_mul, ← pow_mul, mul_comm m 2]
  refine div_le_div_of_nonneg_left (by rw [pow_mul]; positivity) (by positivity) ?_
  have : (1 : ℝ) ≤ m.factorial := by exact_mod_cast m.factorial_pos
  nlinarith

/-- `I0` is at least 1 (93_implementation_defined.md U6). -/
theorem one_le_besselI0 (x : ℝ) : 1 ≤ besselI0 x := by
  have h := (besselI0_summable x).sum_le_tsum {0} (fun m _ => by positivity)
  simpa [besselI0] using h

theorem besselI0_ne_zero (x : ℝ) : besselI0 x ≠ 0 := (lt_of_lt_of_le one_pos (one_le_besselI0 x)).ne'

/-- The angle of a direction is the one angle in `(-π, π]` that points there (43_fm_demod.md R88). -/
theorem arg_eq {x y r θ : ℝ} (hr : 0 < r) (hx : x = r * Real.cos θ) (hy : y = r * Real.sin θ)
    (h1 : -Real.pi < θ) (h2 : θ ≤ Real.pi) : Complex.arg ⟨x, y⟩ = θ := by
  rw [← Complex.arg_mul_cos_add_sin_mul_I hr ⟨h1, h2⟩]
  congr 1
  apply Complex.ext
  · simp [hx, Complex.cos_ofReal_re, Complex.sin_ofReal_im, Complex.cos_ofReal_im, Complex.sin_ofReal_re]
  · simp [hy, Complex.cos_ofReal_re, Complex.sin_ofReal_im, Complex.cos_ofReal_im, Complex.sin_ofReal_re]

/-- The angle in turns of a direction. -/
theorem realTurns_eq {zero x y r u : ℝ} (hr : 0 < r) (hx : x = r * Real.cos (2 * Real.pi * u))
    (hy : y = r * Real.sin (2 * Real.pi * u)) (h1 : -1 / 2 < u) (h2 : u ≤ 1 / 2) : realTurns zero y x = u := by
  have hp := Real.pi_pos
  have hn : ¬(y = 0 ∧ x = 0) := by
    rintro ⟨rfl, rfl⟩
    have hc : Real.cos (2 * Real.pi * u) = 0 := by
      rcases mul_eq_zero.mp hx.symm with h | h
      · exact absurd h hr.ne'
      · exact h
    have hs : Real.sin (2 * Real.pi * u) = 0 := by
      rcases mul_eq_zero.mp hy.symm with h | h
      · exact absurd h hr.ne'
      · exact h
    have := Real.sin_sq_add_cos_sq (2 * Real.pi * u)
    rw [hs, hc] at this
    norm_num at this
  rw [realTurns, if_neg hn, arg_eq hr hx hy (by nlinarith) (by nlinarith)]
  field_simp

/-- The table of rational angles is right. -/
theorem turnsRational_spec {y x v : ℚ} (zero : ℝ) (h0 : ¬(y = 0 ∧ x = 0)) (h : turnsRational y x = some v) :
    realTurns zero y x = v := by
  have hq : ∀ {u : ℝ} {r : ℝ}, 0 < r → (x : ℝ) = r * Real.cos (2 * Real.pi * u) →
      (y : ℝ) = r * Real.sin (2 * Real.pi * u) → -1 / 2 < u → u ≤ 1 / 2 → realTurns zero y x = u :=
    fun hr hx hy h1 h2 => realTurns_eq hr hx hy h1 h2
  have c4 : 2 * Real.pi * (1 / 8) = Real.pi / 4 := by ring
  have c34 : 2 * Real.pi * (3 / 8) = Real.pi - Real.pi / 4 := by ring
  have hs : Real.sqrt 2 * Real.sqrt 2 = 2 := Real.mul_self_sqrt (by norm_num)
  have hs0 : 0 < Real.sqrt 2 := Real.sqrt_pos.mpr (by norm_num)
  have two : (0 : ℝ) < 2 := by norm_num
  unfold turnsRational at h
  split_ifs at h with hy hx hx hy' he hp he' hp <;> simp only [Option.some.injEq] at h <;> subst h
  · subst hy
    have : (0 : ℝ) < x := by exact_mod_cast hx
    exact_mod_cast hq (u := 0) this (by simp) (by simp) (by norm_num) (by norm_num)
  · subst hy
    have : (0 : ℝ) < -x := by
      have : x < 0 := lt_of_le_of_ne (not_lt.mp hx) (fun e => h0 ⟨rfl, e⟩)
      exact_mod_cast neg_pos.mpr this
    have e : 2 * Real.pi * (1 / 2) = Real.pi := by ring
    have := hq (u := 1 / 2) this (by rw [e]; simp) (by rw [e]; simp) (by norm_num) (by norm_num)
    rw [this]; norm_num
  · subst hx
    have : (0 : ℝ) < y := by exact_mod_cast hy'
    have e : 2 * Real.pi * (1 / 4) = Real.pi / 2 := by ring
    have := hq (u := 1 / 4) this (by rw [e]; simp) (by rw [e]; simp) (by norm_num) (by norm_num)
    rw [this]; norm_num
  · subst hx
    have : (0 : ℝ) < -y := by
      have : y < 0 := lt_of_le_of_ne (not_lt.mp hy') (fun e => h0 ⟨e, rfl⟩)
      exact_mod_cast neg_pos.mpr this
    have e : 2 * Real.pi * (-1 / 4) = -(Real.pi / 2) := by ring
    have := hq (u := -1 / 4) this (by rw [e]; simp) (by rw [e]; simp) (by norm_num) (by norm_num)
    rw [this]; norm_num
  · subst he
    have : (0 : ℝ) < y := by exact_mod_cast hp
    have := hq (u := 1 / 8) (mul_pos this hs0) (by rw [c4, Real.cos_pi_div_four]; linear_combination -(y : ℝ) / 2 * hs)
      (by rw [c4, Real.sin_pi_div_four]; linear_combination -(y : ℝ) / 2 * hs) (by norm_num) (by norm_num)
    rw [this]; norm_num
  · subst he
    have : (0 : ℝ) < -y := by
      have : y < 0 := lt_of_le_of_ne (not_lt.mp hp) hy
      exact_mod_cast neg_pos.mpr this
    have e : 2 * Real.pi * (-3 / 8) = -(Real.pi - Real.pi / 4) := by ring
    have := hq (u := -3 / 8) (mul_pos this hs0)
      (by rw [e, Real.cos_neg, Real.cos_pi_sub, Real.cos_pi_div_four]; linear_combination -(y : ℝ) / 2 * hs)
      (by rw [e, Real.sin_neg, Real.sin_pi_sub, Real.sin_pi_div_four]; linear_combination -(y : ℝ) / 2 * hs)
      (by norm_num) (by norm_num)
    rw [this]; norm_num
  · have hxy : (x : ℝ) = -y := by rw [he']; push_cast; ring
    have : (0 : ℝ) < y := by exact_mod_cast hp
    have := hq (u := 3 / 8) (mul_pos this hs0)
      (by rw [c34, Real.cos_pi_sub, Real.cos_pi_div_four, hxy]; linear_combination (y : ℝ) / 2 * hs)
      (by rw [c34, Real.sin_pi_sub, Real.sin_pi_div_four]; linear_combination -(y : ℝ) / 2 * hs)
      (by norm_num) (by norm_num)
    rw [this]; norm_num
  · have hxy : (x : ℝ) = -y := by rw [he']; push_cast; ring
    have : (0 : ℝ) < -y := by
      have : y < 0 := lt_of_le_of_ne (not_lt.mp hp) hy
      exact_mod_cast neg_pos.mpr this
    have e : 2 * Real.pi * (-1 / 8) = -(Real.pi / 4) := by ring
    have := hq (u := -1 / 8) (mul_pos this hs0)
      (by rw [e, Real.cos_neg, Real.cos_pi_div_four, hxy]; linear_combination (y : ℝ) / 2 * hs)
      (by rw [e, Real.sin_neg, Real.sin_pi_div_four]; linear_combination -(y : ℝ) / 2 * hs)
      (by norm_num) (by norm_num)
    rw [this]; norm_num

theorem RealNum.val_angleTurns (zero y x : RealNum) :
    (RealNum.angleTurns zero y x).val = realTurns zero.val y.val x.val := by
  unfold RealNum.angleTurns
  split
  · rename_i p q
    split_ifs with h h'
    · obtain ⟨rfl, rfl⟩ := h
      simp [realTurns, h']
    · obtain ⟨rfl, rfl⟩ := h
      have : (2 : ℝ) * Real.pi ≠ 0 := by positivity
      simp [realTurns, RealNum.val]
    · split
      · rename_i v hv
        exact (turnsRational_spec zero.val h hv).symm
      · rfl
  · rfl

end Sys2Proof
end

