-- ==== Sys2Proof/Laws/Approx.lean ====
section
/-! SUPPORT. The computed values behind the bounds of a real number: each series, root and angle of
Machine/Primitives.lean with its error. -/

namespace Sys2Proof.Machine

/-! ## Cutting -/

theorem cut_error (b : ℕ) (x : ℚ) : |(cut b x : ℝ) - x| ≤ 1 / 2 ^ b := by
  have h2 : (0 : ℚ) < 2 ^ b := by positivity
  have h : |cut b x - x| ≤ 1 / 2 ^ b := by
    have h1 := Int.floor_le (x * 2 ^ b)
    have h3 := Int.lt_floor_add_one (x * 2 ^ b)
    rw [cut, abs_le]
    constructor
    · rw [← sub_nonneg]
      have : (0 : ℚ) ≤ (⌊x * 2 ^ b⌋ + 1 - x * 2 ^ b) / 2 ^ b := div_nonneg (by linarith) h2.le
      rw [show (⌊x * 2 ^ b⌋ / 2 ^ b - x - -(1 / 2 ^ b) : ℚ) = (⌊x * 2 ^ b⌋ + 1 - x * 2 ^ b) / 2 ^ b by field_simp; ring]
      exact this
    · have : (⌊x * 2 ^ b⌋ : ℚ) / 2 ^ b ≤ x := by rw [div_le_iff₀ h2]; exact h1
      have h4 : (0 : ℚ) ≤ 1 / 2 ^ b := by positivity
      linarith
  have := (Rat.cast_le (K := ℝ)).mpr h
  push_cast at this
  exact this

/-- Terms that follow a series with an error of at most `e k / 2^b` keep its sum. -/
theorem seriesSum_error {b : ℕ} {r s : ℕ → ℚ} {e : ℕ → ℝ} {E : ℝ} (hs : ∀ k, s (k + 1) = s k * r k)
    (he : ∀ k, |(r k : ℝ)| * e k + 1 ≤ e (k + 1)) (hE : ∀ k, e k ≤ E) (n k : ℕ) (t : ℚ)
    (ht : |(t : ℝ) - s k| ≤ e k / 2 ^ b) :
    |(seriesSum (cut b) r (fun _ => 0) n k t : ℝ) - ∑ j ∈ Finset.range n, (s (k + j) : ℝ)| ≤ n * E / 2 ^ b := by
  have p : (0 : ℝ) < 2 ^ b := by positivity
  induction n generalizing k t with
  | zero => simp [seriesSum]
  | succ n ih =>
    have h1 : |((cut b (t * r k) : ℚ) : ℝ) - s (k + 1)| ≤ e (k + 1) / 2 ^ b := by
      have h2 := cut_error b (t * r k)
      have h3 : |((t * r k : ℚ) : ℝ) - s (k + 1)| ≤ |(r k : ℝ)| * (e k / 2 ^ b) := by
        rw [hs]
        push_cast
        rw [show (t : ℝ) * r k - s k * r k = r k * (t - s k) by ring, abs_mul]
        gcongr
      have h4 := abs_sub_le ((cut b (t * r k) : ℚ) : ℝ) ((t * r k : ℚ) : ℝ) (s (k + 1))
      have h5 : |(r k : ℝ)| * (e k / 2 ^ b) + 1 / 2 ^ b = (|(r k : ℝ)| * e k + 1) / 2 ^ b := by ring
      have h6 : (|(r k : ℝ)| * e k + 1) / 2 ^ b ≤ e (k + 1) / 2 ^ b := by gcongr; exact he k
      linarith
    have h2 := ih (k + 1) (cut b (t * r k)) h1
    rw [Finset.sum_range_succ', seriesSum]
    have h3 : ∀ j, s (k + (j + 1)) = s (k + 1 + j) := fun j => by congr 1; ring
    simp only [h3, add_zero]
    push_cast
    have h4 : |(t : ℝ) - s k| ≤ E / 2 ^ b := ht.trans (by gcongr; exact hE k)
    have h5 := abs_add_le ((t : ℝ) - s k)
      ((seriesSum (cut b) r (fun _ => 0) n (k + 1) (cut b (t * r k)) : ℝ) - ∑ j ∈ Finset.range n, (s (k + 1 + j) : ℝ))
    have h6 : ((n : ℝ) + 1) * E / 2 ^ b = E / 2 ^ b + n * E / 2 ^ b := by ring
    rw [h6]
    refine le_trans (le_of_eq ?_) (h5.trans (by linarith))
    congr 1; ring

/-- A series whose terms fall at least like `(1/4)^k`, summed with errors of at most `E / 2^b` in each term. -/
theorem seriesSum_near {b n : ℕ} {r s : ℕ → ℚ} {e : ℕ → ℝ} {E C L : ℝ} (hn : b ≤ n)
    (hs : ∀ k, s (k + 1) = s k * r k) (he : ∀ k, |(r k : ℝ)| * e k + 1 ≤ e (k + 1)) (hE : ∀ k, e k ≤ E)
    (h0 : 0 ≤ e 0) (hf : ∀ k, |(s k : ℝ)| ≤ C * (1 / 4) ^ k) (hsum : HasSum (fun k => (s k : ℝ)) L) :
    |(seriesSum (cut b) r (fun _ => 0) n 0 (s 0) : ℝ) - L| ≤ (n * E + 2 * C) / 2 ^ b := by
  have h1 := seriesSum_error (b := b) hs he hE n 0 (s 0) (by rw [sub_self, abs_zero]; positivity)
  have h2 := norm_sub_le_of_geometric_bound_of_hasSum (r := 1 / 4) (by norm_num) (fun k => hf k) hsum n
  have hC : 0 ≤ C := by simpa using (abs_nonneg _).trans (hf 0)
  have h3 : C * (1 / 4) ^ n / (1 - 1 / 4) ≤ 2 * C / 2 ^ b := by
    have e1 : ((1 : ℝ) / 4) ^ n ≤ (1 / 2) ^ b := by
      calc ((1 : ℝ) / 4) ^ n ≤ (1 / 4) ^ b := pow_le_pow_of_le_one (by norm_num) (by norm_num) hn
        _ ≤ (1 / 2) ^ b := by gcongr; norm_num
    have e2 : (2 : ℝ) * C / 2 ^ b = 2 * C * (1 / 2) ^ b := by rw [one_div_pow]; ring
    rw [e2]
    have : C * (1 / 4) ^ n ≤ C * (1 / 2) ^ b := by gcongr
    have p : 0 ≤ C * (1 / 2) ^ b := by positivity
    rw [show C * (1 / 4) ^ n / (1 - 1 / 4) = 4 / 3 * (C * (1 / 4) ^ n) by ring]
    linarith
  rw [Real.norm_eq_abs] at h2
  simp only [zero_add] at h1
  have := abs_sub_le (seriesSum (cut b) r (fun _ => 0) n 0 (s 0) : ℝ) (∑ k ∈ Finset.range n, (s k : ℝ)) L
  rw [add_div]
  linarith

/-! ## The series -/

theorem atanApprox_near (b : ℕ) {a : ℚ} (h : |a| ≤ 1 / 4) :
    |(atanApprox b a : ℝ) - Real.arctan a| ≤ (b + 2) / 2 ^ b := by
  have ha : |(a : ℝ)| ≤ 1 / 4 := by have := (Rat.cast_le (K := ℝ)).mpr h; push_cast at this; exact this
  have hs := Real.hasSum_arctan (x := (a : ℝ)) (by rw [Real.norm_eq_abs]; linarith)
  have hf : ∀ k, |(((-1) ^ k * a ^ (2 * k + 1) / (2 * k + 1 : ℕ) : ℚ) : ℝ)| ≤ 1 * (1 / 4) ^ k := by
    intro k
    push_cast
    rw [abs_div, abs_mul, abs_pow, abs_neg, abs_one, one_pow, one_mul, abs_pow, one_mul]
    have h1 : (1 : ℝ) ≤ |2 * (k : ℝ) + 1| := by
      rw [abs_of_nonneg (by positivity)]
      have : (0 : ℝ) ≤ k := by positivity
      linarith
    have h2 : |(a : ℝ)| ^ (2 * k + 1) ≤ (1 / 4) ^ k := by
      calc |(a : ℝ)| ^ (2 * k + 1) ≤ (1 / 4) ^ (2 * k + 1) := by gcongr
        _ ≤ (1 / 4) ^ k := pow_le_pow_of_le_one (by norm_num) (by norm_num) (by omega)
    rw [div_le_iff₀ (by linarith)]
    have : (0 : ℝ) ≤ (1 / 4) ^ k := by positivity
    nlinarith
  have hs' : HasSum (fun k => (((-1) ^ k * a ^ (2 * k + 1) / (2 * k + 1 : ℕ) : ℚ) : ℝ)) (Real.arctan a) := by
    convert hs using 2 with k
    push_cast; ring
  have hr : ∀ k : ℕ, |((-(a * a) * (2 * k + 1 : ℕ) / (2 * k + 3 : ℕ) : ℚ) : ℝ)| * 2 + 1 ≤ 2 := by
    intro k
    push_cast
    rw [neg_mul, neg_div, abs_neg, abs_div, abs_mul, abs_mul, abs_of_pos (a := 2 * (k : ℝ) + 1) (by positivity),
      abs_of_pos (a := 2 * (k : ℝ) + 3) (by positivity)]
    have h1 : |(a : ℝ)| * |(a : ℝ)| * (2 * k + 1) / (2 * k + 3) ≤ 1 / 4 * (1 / 4) * 1 := by
      rw [mul_div_assoc]
      gcongr
      rw [div_le_one (by positivity)]; linarith
    linarith
  have := seriesSum_near (b := b + 1) (e := fun _ => 2) (E := 2) le_rfl (fun k => ?_) hr (fun _ => le_rfl) (by norm_num) hf hs'
  · have e : (((b : ℝ) + 1) * 2 + 2 * 1) / 2 ^ (b + 1) = (b + 2) / 2 ^ b := by rw [pow_succ]; field_simp; ring
    push_cast at this
    rw [e] at this
    simpa [atanApprox] using this
  · have h1 : ((2 * k + 1 : ℕ) : ℚ) ≠ 0 := by positivity
    have h2 : ((2 * k + 3 : ℕ) : ℚ) ≠ 0 := by positivity
    have h3 : ((2 * (k + 1) + 1 : ℕ) : ℚ) = (2 * k + 3 : ℕ) := by push_cast; ring
    rw [h3]
    field_simp
    ring

theorem piApprox_near (b : ℕ) : |(piApprox b : ℝ) - Real.pi| ≤ 20 * (b + 2) / 2 ^ b := by
  have h1 := atanApprox_near b (a := 1 / 5) (by norm_num)
  have h2 := atanApprox_near b (a := 1 / 239) (by norm_num)
  have hm : Real.pi = 16 * Real.arctan (1 / 5) - 4 * Real.arctan (1 / 239) := by
    have := Real.four_mul_arctan_inv_5_sub_arctan_inv_239
    rw [one_div, one_div]; linarith
  rw [piApprox, hm]
  push_cast at *
  rw [abs_le] at *
  have e : 20 * ((b : ℝ) + 2) / 2 ^ b = 20 * ((b + 2) / 2 ^ b) := by ring
  rw [e]
  constructor <;> linarith [h1.1, h1.2, h2.1, h2.2]

theorem sinApprox_near (b : ℕ) {a : ℚ} (h : |a| ≤ 5) :
    |(sinApprox b a : ℝ) - Real.sin a| ≤ (b + 2 * (5 * Real.exp 10)) / 2 ^ b := by
  have ha : |(a : ℝ)| ≤ 5 := by have := (Rat.cast_le (K := ℝ)).mpr h; push_cast at this; exact this
  have hs := Real.hasSum_sin (a : ℝ)
  have hf : ∀ k, |(((-1) ^ k * a ^ (2 * k + 1) / (2 * k + 1).factorial : ℚ) : ℝ)| ≤ 5 * Real.exp 10 * (1 / 4) ^ k := by
    intro k
    push_cast
    rw [abs_div, abs_mul, abs_pow, abs_neg, abs_one, one_pow, one_mul, abs_pow, Nat.abs_cast]
    have h1 := Real.pow_div_factorial_le_exp (x := 10) (by norm_num) (2 * k)
    have h2 : |(a : ℝ)| ^ (2 * k + 1) ≤ 5 * 10 ^ (2 * k) * (1 / 4) ^ k := by
      calc |(a : ℝ)| ^ (2 * k + 1) ≤ 5 ^ (2 * k + 1) := by gcongr
        _ = 5 * 10 ^ (2 * k) * (1 / 4) ^ k := by
          rw [pow_succ, pow_mul, pow_mul, mul_comm, mul_assoc, ← mul_pow]; norm_num
    have h3 : ((2 * k).factorial : ℝ) ≤ (2 * k + 1).factorial := by exact_mod_cast Nat.factorial_le (by omega)
    have p : (0 : ℝ) < (2 * k).factorial := by positivity
    calc |(a : ℝ)| ^ (2 * k + 1) / (2 * k + 1).factorial
        ≤ 5 * 10 ^ (2 * k) * (1 / 4) ^ k / (2 * k).factorial := by gcongr
      _ = 5 * (10 ^ (2 * k) / (2 * k).factorial) * (1 / 4) ^ k := by ring
      _ ≤ _ := by gcongr
  have hs' : HasSum (fun k => (((-1) ^ k * a ^ (2 * k + 1) / (2 * k + 1).factorial : ℚ) : ℝ)) (Real.sin a) := by
    convert hs using 2 with k
    push_cast; ring
  set e : ℕ → ℝ := fun k => if k = 0 then 0 else if k = 1 then 1 else 3 with he
  have hr : ∀ k : ℕ, |((-(a * a) / ((2 * k + 2) * (2 * k + 3) : ℕ) : ℚ) : ℝ)| ≤ 25 / ((2 * k + 2) * (2 * k + 3)) := by
    intro k
    push_cast
    rw [neg_div, abs_neg, abs_div, abs_mul, abs_of_pos (a := (2 * (k : ℝ) + 2) * (2 * k + 3)) (by positivity)]
    gcongr
    nlinarith [abs_nonneg (a : ℝ)]
  have hstep : ∀ k : ℕ, |((-(a * a) / ((2 * k + 2) * (2 * k + 3) : ℕ) : ℚ) : ℝ)| * e k + 1 ≤ e (k + 1) := by
    intro k
    have h1 := hr k
    match k with
    | 0 => simp [he]
    | 1 => simp only [he] at h1 ⊢; norm_num at h1 ⊢; linarith
    | k + 2 =>
      have h2 : (25 : ℝ) / ((2 * ((k + 2 : ℕ) : ℝ) + 2) * (2 * (k + 2 : ℕ) + 3)) ≤ 25 / 42 := by
        apply div_le_div_of_nonneg_left (by norm_num) (by norm_num)
        push_cast
        have : (0 : ℝ) ≤ k := by positivity
        nlinarith
      have h3 := h1.trans h2
      rw [show e (k + 2) = 3 by simp [he], show e (k + 2 + 1) = 3 by simp [he]]
      linarith
  have h := seriesSum_near (b := b + 2) (e := e) (E := 3) le_rfl (fun k => ?_) hstep
    (fun k => by simp only [he]; split_ifs <;> norm_num) (by simp [he]) hf hs'
  · have p : (0 : ℝ) < 2 ^ b := by positivity
    have h2 : (((b + 2 : ℕ) : ℝ) * 3 + 2 * (5 * Real.exp 10)) / 2 ^ (b + 2) ≤ (b + 2 * (5 * Real.exp 10)) / 2 ^ b := by
      have he10 : (1 : ℝ) ≤ Real.exp 10 := Real.one_le_exp (by norm_num)
      rw [pow_add, div_le_div_iff₀ (by positivity) p]
      push_cast
      have hb : (0 : ℝ) ≤ b := by positivity
      nlinarith
    refine le_trans (le_of_eq ?_) (h.trans h2)
    simp [sinApprox]
  · have h1 : (((2 * k + 2) * (2 * k + 3) : ℕ) : ℚ) ≠ 0 := by positivity
    have h2 : ((2 * (k + 1) + 1).factorial : ℚ) = ((2 * k + 2) * (2 * k + 3) : ℕ) * (2 * k + 1).factorial := by
      rw [show 2 * (k + 1) + 1 = 2 * k + 1 + 1 + 1 by ring, Nat.factorial_succ, Nat.factorial_succ]
      push_cast; ring
    rw [h2, pow_succ]
    field_simp
    ring

/-- The terms of `I0`, each from the one before. -/
theorem i0Term_succ (x : ℚ) (k : ℕ) :
    ((x / 2) ^ (k + 1) / (k + 1).factorial) ^ 2 = ((x / 2) ^ k / k.factorial) ^ 2 * i0Ratio x k := by
  have h1 : ((k : ℚ) + 1) ≠ 0 := by positivity
  have h2 : (k.factorial : ℚ) ≠ 0 := by positivity
  rw [i0Ratio, Nat.factorial_succ, pow_succ]
  push_cast
  field_simp
  ring

theorem i0Ratio_nonneg (x : ℚ) (k : ℕ) : 0 ≤ i0Ratio x k := by
  have := mul_self_nonneg x
  unfold i0Ratio
  positivity

theorem cut_le (b : ℕ) (x : ℚ) : cut b x ≤ x := by
  rw [cut, div_le_iff₀ (by positivity)]
  exact Int.floor_le _

theorem le_neg_cut_neg (b : ℕ) (x : ℚ) : x ≤ -cut b (-x) := le_neg_of_le_neg (cut_le b (-x))

/-- Terms rounded down sum to at most the terms of the series. -/
theorem seriesSum_low {b : ℕ} {r s : ℕ → ℚ} (hs : ∀ k, s (k + 1) = s k * r k) (hr : ∀ k, 0 ≤ r k) (n k : ℕ) (t : ℚ)
    (ht : t ≤ s k) : seriesSum (cut b) r (fun _ => 0) n k t ≤ ∑ j ∈ Finset.range n, s (k + j) := by
  induction n generalizing k t with
  | zero => simp [seriesSum]
  | succ n ih =>
    rw [Finset.sum_range_succ', seriesSum, add_zero, add_comm]
    have h := ih (k + 1) (cut b (t * r k)) ((cut_le _ _).trans (by
      rw [hs]; exact mul_le_mul_of_nonneg_right ht (hr k)))
    simp only [show ∀ j, s (k + (j + 1)) = s (k + 1 + j) from fun j => by congr 1; ring]
    linarith

/-- Terms rounded up sum, with the rest, to at least the terms of the series. -/
theorem seriesSum_high {b : ℕ} {r s : ℕ → ℚ} (hs : ∀ k, s (k + 1) = s k * r k) (hr : ∀ k, 0 ≤ r k) (n k : ℕ) (t : ℚ)
    (ht : s k ≤ t) : ∑ j ∈ Finset.range n, s (k + j) + 2 * s (k + n) ≤
      seriesSum (fun t => -cut b (-t)) r (fun t => 2 * t) n k t := by
  induction n generalizing k t with
  | zero => simpa [seriesSum] using ht
  | succ n ih =>
    rw [Finset.sum_range_succ', seriesSum, add_zero]
    have h := ih (k + 1) (-cut b (-(t * r k))) (le_trans (by
      rw [hs]; exact mul_le_mul_of_nonneg_right ht (hr k)) (le_neg_cut_neg _ _))
    rw [show k + (n + 1) = k + 1 + n by ring]
    simp only [show ∀ j, s (k + (j + 1)) = s (k + 1 + j) from fun j => by congr 1; ring]
    linarith

/-- `I0 x` between its two computed bounds. -/
theorem i0_between (b : ℕ) (x : ℚ) : (i0Low b x : ℝ) ≤ besselI0 x ∧ besselI0 x ≤ i0High b x := by
  set s : ℕ → ℚ := fun k => ((x / 2) ^ k / k.factorial) ^ 2 with hs
  have hs0 : ∀ k, (0 : ℝ) ≤ (s k : ℝ) := fun k => by simp only [hs]; positivity
  have hsum : Summable fun k => (s k : ℝ) := by simpa [hs] using besselI0_summable x
  have hval : besselI0 x = ∑' k, (s k : ℝ) := by simp [besselI0, hs]
  set n := i0Terms b x with hn
  have hstep := fun k => i0Term_succ x k
  constructor
  · have h := seriesSum_low (b := b) (s := s) hstep (i0Ratio_nonneg x) n 0 1 (by simp [hs])
    have h1 : (i0Low b x : ℝ) ≤ ∑ j ∈ Finset.range n, (s j : ℝ) := by
      have := (Rat.cast_le (K := ℝ)).mpr h
      simpa [i0Low] using this
    rw [hval]
    exact h1.trans (hsum.sum_le_tsum _ fun k _ => hs0 k)
  · have h := seriesSum_high (b := b) (s := s) hstep (i0Ratio_nonneg x) n 0 1 (by simp [hs])
    have h1 : ∑ j ∈ Finset.range n, (s j : ℝ) + 2 * s n ≤ i0High b x := by
      have := (Rat.cast_le (K := ℝ)).mpr h
      simpa [i0High] using this
    have hratio : ∀ j, (s (n + (j + 1)) : ℝ) ≤ s (n + j) * (1 / 4) := by
      intro j
      have hx : |x| ≤ n := by
        have h1 : |x| ≤ (⌈|x|⌉.toNat : ℕ) := by
          have h2 := Int.le_ceil |x|
          have h3 : (⌈|x|⌉ : ℤ) ≤ (⌈|x|⌉.toNat : ℤ) := Int.self_le_toNat _
          exact h2.trans (by exact_mod_cast h3)
        have h2 : (⌈|x|⌉.toNat : ℚ) ≤ n := by
          rw [hn, i0Terms]; push_cast
          have : (0 : ℚ) ≤ (⌈|x|⌉.toNat : ℚ) := by positivity
          have : (0 : ℚ) ≤ (b : ℚ) := by positivity
          linarith
        exact h1.trans h2
      have hr : i0Ratio x (n + j) ≤ 1 / 4 := by
        have h1 : x * x ≤ n * n := by rw [← abs_mul_abs_self]; exact mul_self_le_mul_self (abs_nonneg x) hx
        have h2 : (0 : ℚ) ≤ (n : ℚ) := by positivity
        have h3 : (0 : ℚ) ≤ (j : ℚ) := by positivity
        rw [i0Ratio, div_le_iff₀ (by positivity)]
        push_cast
        nlinarith
      have : s (n + (j + 1)) ≤ s (n + j) * (1 / 4) := by
        have h0 : 0 ≤ s (n + j) := by simp only [hs]; positivity
        calc s (n + (j + 1)) = s (n + j) * i0Ratio x (n + j) := hstep (n + j)
          _ ≤ _ := mul_le_mul_of_nonneg_left hr h0
      have := (Rat.cast_le (K := ℝ)).mpr this
      push_cast at this ⊢
      exact this
    have hgeo : ∀ j, (s (j + n) : ℝ) ≤ s n * (1 / 4) ^ j := by
      intro j
      rw [add_comm]
      induction j with
      | zero => simp
      | succ j ih =>
        refine (hratio j).trans ?_
        rw [pow_succ, ← mul_assoc]
        gcongr
    have htail : ∑' j, (s (j + n) : ℝ) ≤ 2 * s n := by
      have g := (hasSum_geometric_of_lt_one (r := (1 : ℝ) / 4) (by norm_num) (by norm_num)).mul_left (s n : ℝ)
      have := ((summable_nat_add_iff n).mpr hsum).tsum_le_tsum hgeo g.summable
      rw [g.tsum_eq, show (1 - (1 : ℝ) / 4)⁻¹ = 4 / 3 by norm_num] at this
      have h0 := hs0 n
      linarith
    rw [hval, ← hsum.sum_add_tsum_nat_add n]
    linarith

/-! ## The roots -/

/-- Rounding down inside a root loses at most 1. -/
theorem root_floor {p : ℝ} (hp0 : 0 < p) (hp1 : p ≤ 1) {y : ℚ} (hy : 0 ≤ y) :
    (y : ℝ) ^ p - 1 ≤ (⌊y⌋.toNat : ℝ) ^ p ∧ (⌊y⌋.toNat : ℝ) ^ p ≤ (y : ℝ) ^ p := by
  have hf : ((⌊y⌋.toNat : ℕ) : ℚ) = (⌊y⌋ : ℚ) := by
    have : (0 : ℤ) ≤ ⌊y⌋ := Int.floor_nonneg.mpr hy
    exact_mod_cast Int.toNat_of_nonneg this
  have h1 : ((⌊y⌋.toNat : ℕ) : ℝ) ≤ y := by
    have : ((⌊y⌋.toNat : ℕ) : ℚ) ≤ y := hf ▸ Int.floor_le y
    exact_mod_cast this
  have h2 : (y : ℝ) ≤ (⌊y⌋.toNat : ℕ) + 1 := by
    have : y ≤ ((⌊y⌋.toNat : ℕ) : ℚ) + 1 := by rw [hf]; exact (Int.lt_floor_add_one y).le
    exact_mod_cast this
  have hy' : (0 : ℝ) ≤ y := by exact_mod_cast hy
  constructor
  · have h3 := Real.rpow_le_rpow hy' h2 hp0.le
    have h4 := Real.rpow_add_le_add_rpow (Nat.cast_nonneg (α := ℝ) ⌊y⌋.toNat) zero_le_one hp0.le hp1
    rw [Real.one_rpow] at h4
    linarith
  · exact Real.rpow_le_rpow (Nat.cast_nonneg _) h1 hp0.le

theorem sqrtApprox_near (b : ℕ) (x : ℚ) : |(sqrtApprox b x : ℝ) - Real.sqrt x| ≤ 2 / 2 ^ b := by
  have p2 : (0 : ℝ) < 2 ^ b := by positivity
  rcases lt_or_ge x 0 with h | h
  · have h4 : x * 4 ^ b < 0 := mul_neg_of_neg_of_pos h (by positivity)
    have hf : ⌊x * 4 ^ b⌋.toNat = 0 := by
      rw [Int.toNat_eq_zero]; exact (Int.floor_lt.mpr (by exact_mod_cast h4)).le
    have hx : (x : ℝ) ≤ 0 := by exact_mod_cast h.le
    have p : (0 : ℝ) ≤ 2 / 2 ^ b := by positivity
    simpa [sqrtApprox, hf, Real.sqrt_eq_zero_of_nonpos hx] using p
  · have hy : 0 ≤ x * 4 ^ b := by positivity
    have hr := root_floor (p := 1 / 2) (by norm_num) (by norm_num) hy
    rw [← Real.sqrt_eq_rpow, ← Real.sqrt_eq_rpow] at hr
    have e : Real.sqrt ((x * 4 ^ b : ℚ) : ℝ) = Real.sqrt x * 2 ^ b := by
      push_cast
      rw [Real.sqrt_mul (by exact_mod_cast h), show (4 : ℝ) ^ b = (2 ^ b) ^ 2 by rw [← pow_mul, mul_comm, pow_mul]; norm_num,
        Real.sqrt_sq p2.le]
    rw [e] at hr
    set n := ⌊x * 4 ^ b⌋.toNat
    have s1 : ((n.sqrt : ℕ) : ℝ) ≤ Real.sqrt n := Real.nat_sqrt_le_real_sqrt
    have s2 : Real.sqrt n ≤ (n.sqrt : ℕ) + 1 := Real.real_sqrt_le_nat_sqrt_succ
    have e2 : (sqrtApprox b x : ℝ) - Real.sqrt x = ((n.sqrt : ℕ) - Real.sqrt x * 2 ^ b) / 2 ^ b := by
      rw [show sqrtApprox b x = (n.sqrt : ℕ) / 2 ^ b from rfl]; push_cast; field_simp
    rw [e2, abs_div, abs_of_pos p2]
    gcongr
    rw [abs_le]
    constructor <;> linarith [hr.1, hr.2]

theorem fifthRootFrom_spec : ∀ (bits goal r : ℕ), r ^ 5 ≤ goal → goal < (r + 2 ^ bits) ^ 5 →
    fifthRootFrom bits goal r ^ 5 ≤ goal ∧ goal < (fifthRootFrom bits goal r + 1) ^ 5
  | 0, _, _, h1, h2 => ⟨h1, by simpa [fifthRootFrom] using h2⟩
  | bits + 1, goal, r, h1, h2 => by
    unfold fifthRootFrom
    split_ifs with h
    · refine fifthRootFrom_spec bits goal _ h ?_
      rwa [add_assoc, ← two_mul, ← pow_succ']
    · exact fifthRootFrom_spec bits goal r h1 (not_le.mp h)

theorem fifthRoot_spec (goal : ℕ) : fifthRoot goal ^ 5 ≤ goal ∧ goal < (fifthRoot goal + 1) ^ 5 := by
  refine fifthRootFrom_spec _ goal 0 (by simp) ?_
  rw [zero_add, ← pow_mul]
  calc goal < 2 ^ (Nat.log2 goal + 1) := Nat.lt_log2_self
    _ ≤ 2 ^ ((Nat.log2 goal / 5 + 1) * 5) := Nat.pow_le_pow_right (by norm_num) (by omega)

theorem pow04Approx_near (b : ℕ) (x : ℚ) : |(pow04Approx b x : ℝ) - |(x : ℝ)| ^ (2 / 5 : ℝ)| ≤ 2 / 2 ^ b := by
  have p2 : (0 : ℝ) < 2 ^ b := by positivity
  have hy : 0 ≤ x * x * 32 ^ b := by have := mul_self_nonneg x; positivity
  have hr := root_floor (p := 1 / 5) (by norm_num) (by norm_num) hy
  have e : ((x * x * 32 ^ b : ℚ) : ℝ) ^ (1 / 5 : ℝ) = |(x : ℝ)| ^ (2 / 5 : ℝ) * 2 ^ b := by
    push_cast
    rw [Real.mul_rpow (mul_self_nonneg _) (by positivity), show (32 : ℝ) ^ b = (2 ^ b) ^ 5 by
      rw [← pow_mul, mul_comm, pow_mul]; norm_num, ← abs_mul_abs_self, ← sq, ← Real.rpow_natCast |(x : ℝ)| 2,
      ← Real.rpow_mul (abs_nonneg _), ← Real.rpow_natCast _ 5, ← Real.rpow_mul p2.le]
    norm_num
  rw [e] at hr
  set n := ⌊x * x * 32 ^ b⌋.toNat
  have s := fifthRoot_spec n
  have root : ∀ m : ℕ, ((m ^ 5 : ℕ) : ℝ) ^ (1 / 5 : ℝ) = m := fun m => by
    push_cast
    rw [← Real.rpow_natCast, ← Real.rpow_mul (by positivity)]; norm_num
  have s1 : ((fifthRoot n : ℕ) : ℝ) ≤ (n : ℝ) ^ (1 / 5 : ℝ) := by
    rw [← root (fifthRoot n)]
    exact Real.rpow_le_rpow (by positivity) (by exact_mod_cast s.1) (by norm_num)
  have s2 : (n : ℝ) ^ (1 / 5 : ℝ) ≤ (fifthRoot n : ℕ) + 1 := by
    have := Real.rpow_le_rpow (by positivity) (show (n : ℝ) ≤ ((fifthRoot n + 1) ^ 5 : ℕ) by exact_mod_cast s.2.le)
      (show (0 : ℝ) ≤ 1 / 5 by norm_num)
    rw [root] at this
    exact_mod_cast this
  have e2 : (pow04Approx b x : ℝ) - |(x : ℝ)| ^ (2 / 5 : ℝ) =
      ((fifthRoot n : ℕ) - |(x : ℝ)| ^ (2 / 5 : ℝ) * 2 ^ b) / 2 ^ b := by
    rw [show pow04Approx b x = (fifthRoot n : ℕ) / 2 ^ b from rfl]; push_cast; field_simp
  rw [e2, abs_div, abs_of_pos p2]
  gcongr
  rw [abs_le]
  constructor <;> linarith [hr.1, hr.2]

/-! ## The angle -/

theorem cut_mem {b : ℕ} {x : ℚ} (h : 0 ≤ x) : 0 ≤ cut b x ∧ cut b x ≤ x := by
  have p : (0 : ℚ) < 2 ^ b := by positivity
  constructor
  · have : (0 : ℤ) ≤ ⌊x * 2 ^ b⌋ := Int.floor_nonneg.mpr (by positivity)
    have : (0 : ℚ) ≤ (⌊x * 2 ^ b⌋ : ℤ) := by exact_mod_cast this
    rw [cut]; positivity
  · rw [cut, div_le_iff₀ p]; exact Int.floor_le _

theorem one_le_sqrtApprox {b : ℕ} {x : ℚ} (h : 1 ≤ x) : 1 ≤ sqrtApprox b x := by
  have p : (0 : ℚ) < 2 ^ b := by positivity
  have h1 : (2 ^ b * 2 ^ b : ℕ) ≤ ⌊x * 4 ^ b⌋.toNat := by
    have h4 : ((2 ^ b * 2 ^ b : ℕ) : ℤ) ≤ ⌊x * 4 ^ b⌋ := by
      rw [Int.le_floor]
      push_cast
      rw [← mul_pow]; norm_num
      have : (0 : ℚ) < 4 ^ b := by positivity
      nlinarith
    omega
  have h2 : 2 ^ b ≤ ⌊x * 4 ^ b⌋.toNat.sqrt := Nat.le_sqrt.mpr h1
  rw [sqrtApprox, le_div_iff₀ p, one_mul]
  exact_mod_cast h2

theorem halfTangent_mem {b : ℕ} {t : ℚ} (h : 0 ≤ t) : 0 ≤ halfTangent b t ∧ halfTangent b t ≤ t / 2 := by
  have hs : 1 ≤ sqrtApprox b (1 + t * t) := one_le_sqrtApprox (by nlinarith [mul_self_nonneg t])
  have h1 : 0 ≤ t / (1 + sqrtApprox b (1 + t * t)) := by positivity
  refine ⟨(cut_mem h1).1, (cut_mem h1).2.trans ?_⟩
  gcongr
  linarith

/-- The tangent of half an angle. -/
theorem arctan_half (t : ℝ) : Real.arctan (t / (1 + Real.sqrt (1 + t * t))) = Real.arctan t / 2 := by
  set s := Real.sqrt (1 + t * t) with hs
  have hs2 : s * s = 1 + t * t := Real.mul_self_sqrt (by nlinarith [mul_self_nonneg t])
  have hs1 : 1 ≤ s := by rw [hs]; exact Real.one_le_sqrt.mpr (by nlinarith [mul_self_nonneg t])
  have hlt : |t| < 1 + s := by
    have : |t| ≤ s := by rw [hs]; exact Real.abs_le_sqrt (by nlinarith)
    linarith
  rw [abs_lt] at hlt
  have h1 : -1 < t / (1 + s) := by rw [lt_div_iff₀ (by linarith)]; linarith [hlt.1]
  have h2 : t / (1 + s) < 1 := by rw [div_lt_one (by linarith)]; exact hlt.2
  have := Real.two_mul_arctan h1 h2
  have e : 2 * (t / (1 + s)) / (1 - (t / (1 + s)) ^ 2) = t := by
    have h3 : (1 + s) ≠ 0 := by linarith
    have h4 : (1 + s) ^ 2 - t ^ 2 ≠ 0 := by nlinarith
    have h5 : 1 - (t / (1 + s)) ^ 2 = ((1 + s) ^ 2 - t ^ 2) / (1 + s) ^ 2 := by field_simp
    rw [h5, div_div_eq_mul_div, div_eq_iff h4]
    field_simp
    nlinarith
  rw [e] at this
  linarith

theorem arctan_sub_le (x y : ℝ) : |Real.arctan x - Real.arctan y| ≤ |x - y| := by
  have h := Convex.norm_image_sub_le_of_norm_deriv_le (f := Real.arctan) (C := 1) (s := Set.univ)
    (fun z _ => Real.differentiableAt_arctan z)
    (fun z _ => by
      rw [Real.deriv_arctan, Real.norm_eq_abs, abs_of_nonneg (by positivity), div_le_one (by positivity)]
      nlinarith [sq_nonneg z]) convex_univ (Set.mem_univ y) (Set.mem_univ x)
  simpa using h

theorem halfTangent_near (b : ℕ) {t : ℚ} (h0 : 0 ≤ t) (h1 : t ≤ 1) :
    |Real.arctan (halfTangent b t) - Real.arctan t / 2| ≤ 3 / 2 ^ b := by
  have p2 : (0 : ℝ) < 2 ^ b := by positivity
  have hs : (1 : ℝ) ≤ sqrtApprox b (1 + t * t) := by
    exact_mod_cast one_le_sqrtApprox (b := b) (x := 1 + t * t) (by nlinarith [mul_self_nonneg t])
  have hr : (1 : ℝ) ≤ Real.sqrt (1 + t * t) := Real.one_le_sqrt.mpr (by nlinarith [mul_self_nonneg (t : ℝ)])
  have he := sqrtApprox_near b (1 + t * t)
  have hc := cut_error b (t / (1 + sqrtApprox b (1 + t * t)))
  push_cast at he hc
  set s' : ℝ := ((sqrtApprox b (1 + t * t) : ℚ) : ℝ)
  set s : ℝ := Real.sqrt (1 + t * t) with hsd
  have ht0 : (0 : ℝ) ≤ t := by exact_mod_cast h0
  have ht1 : (t : ℝ) ≤ 1 := by exact_mod_cast h1
  have hd : |(t : ℝ) / (1 + s') - t / (1 + s)| ≤ 2 / 2 ^ b := by
    have e : (t : ℝ) / (1 + s') - t / (1 + s) = t * (s - s') / ((1 + s') * (1 + s)) := by
      field_simp; ring
    rw [e, abs_div, abs_mul, abs_of_nonneg ht0, abs_of_pos (a := (1 + s') * (1 + s)) (by positivity), abs_sub_comm,
      div_le_iff₀ (by positivity)]
    have k1 : (1 : ℝ) ≤ (1 + s') * (1 + s) := by nlinarith
    have k2 : (0 : ℝ) ≤ 2 / 2 ^ b := by positivity
    calc t * |s' - s| ≤ 1 * (2 / 2 ^ b) := by gcongr
      _ ≤ 2 / 2 ^ b * ((1 + s') * (1 + s)) := by nlinarith
  rw [← arctan_half, ← hsd]
  refine (arctan_sub_le _ _).trans ?_
  have := abs_sub_le (halfTangent b t : ℝ) ((t : ℝ) / (1 + s')) (t / (1 + s))
  have hc' : |(halfTangent b t : ℝ) - t / (1 + s')| ≤ 1 / 2 ^ b := hc
  have e3 : (3 : ℝ) / 2 ^ b = 1 / 2 ^ b + 2 / 2 ^ b := by ring
  rw [e3]
  linarith

theorem linear_le_pow {b : ℕ} (h : 10 ≤ b) : 20 * (b + 2) ≤ 2 ^ b := by
  induction b, h using Nat.le_induction with
  | base => norm_num
  | succ n hn ih => rw [pow_succ]; omega

theorem piApprox_large {b : ℕ} (h : 10 ≤ b) : 2 ≤ (piApprox b : ℝ) := by
  have h1 := piApprox_near b
  have h2 : 20 * ((b : ℝ) + 2) / 2 ^ b ≤ 1 := by
    rw [div_le_one (by positivity)]
    exact_mod_cast linear_le_pow h
  have h3 := Real.pi_gt_three
  rw [abs_le] at h1
  linarith [h1.1]

/-- The angle inside an octant. -/
theorem octantApprox_near {b : ℕ} (hb : 10 ≤ b) {t : ℚ} (h0 : 0 ≤ t) (h1 : t ≤ 1) :
    |(octantApprox b t : ℝ) - Real.arctan t / (2 * Real.pi)| ≤ (10 * b + 60) / 2 ^ b := by
  have p2 : (0 : ℝ) < 2 ^ b := by positivity
  have c0 := cut_mem (b := b) h0
  have m1 := halfTangent_mem (b := b) c0.1
  have m2 := halfTangent_mem (b := b) m1.1
  have e0 := (arctan_sub_le (cut b t : ℚ) t).trans (cut_error b t)
  have e1 := halfTangent_near b c0.1 (c0.2.trans h1)
  have e2 := halfTangent_near b m1.1 (by linarith)
  have e3 := atanApprox_near b (a := halfTangent b (halfTangent b (cut b t))) (by
    rw [abs_of_nonneg m2.1]; linarith)
  have hA : |4 * (atanApprox b (halfTangent b (halfTangent b (cut b t))) : ℝ) - Real.arctan t| ≤
      (4 * b + 28) / 2 ^ b := by
    rw [abs_le] at *
    have q : (4 * (b : ℝ) + 28) / 2 ^ b = 4 * ((b + 2) / 2 ^ b) + 4 * (3 / 2 ^ b) + 2 * (3 / 2 ^ b) + 2 * (1 / 2 ^ b) := by
      ring
    have q1 : (0 : ℝ) < 1 / 2 ^ b := by positivity
    rw [q]
    constructor <;> linarith [e0.1, e0.2, e1.1, e1.2, e2.1, e2.2, e3.1, e3.2]
  have hp := piApprox_large hb
  have hpn := piApprox_near b
  have hpi := Real.pi_gt_three
  have hat0 : 0 ≤ Real.arctan t := by rw [Real.arctan_nonneg]; exact_mod_cast h0
  have hat1 : Real.arctan t ≤ 2 := by linarith [Real.arctan_lt_pi_div_two (t : ℝ), Real.pi_lt_four]
  have e : (octantApprox b t : ℝ) - Real.arctan t / (2 * Real.pi) =
      (4 * (atanApprox b (halfTangent b (halfTangent b (cut b t))) : ℝ) - Real.arctan t) / (2 * piApprox b) +
        Real.arctan t * (Real.pi - piApprox b) / (2 * Real.pi * piApprox b) := by
    rw [octantApprox]; push_cast
    have : (piApprox b : ℝ) ≠ 0 := by linarith
    have : Real.pi ≠ 0 := by linarith
    field_simp; ring
  rw [e]
  refine (abs_add_le _ _).trans ?_
  have b1 : |(4 * (atanApprox b (halfTangent b (halfTangent b (cut b t))) : ℝ) - Real.arctan t) / (2 * piApprox b)| ≤
      (4 * b + 28) / 2 ^ b := by
    rw [abs_div, div_le_iff₀ (by positivity), abs_of_pos (a := 2 * (piApprox b : ℝ)) (by linarith)]
    have : (0 : ℝ) ≤ (4 * b + 28) / 2 ^ b := by positivity
    nlinarith
  have b2 : |Real.arctan t * (Real.pi - piApprox b) / (2 * Real.pi * piApprox b)| ≤ (5 * b + 10) / 2 ^ b := by
    rw [abs_div, abs_mul, abs_of_nonneg hat0, abs_sub_comm, div_le_iff₀ (by positivity),
      abs_of_pos (a := 2 * Real.pi * (piApprox b : ℝ)) (by positivity)]
    have k : (12 : ℝ) ≤ 2 * Real.pi * piApprox b := by nlinarith
    have q : (20 * ((b : ℝ) + 2) / 2 ^ b) = 4 * ((5 * b + 10) / 2 ^ b) := by ring
    have q0 : (0 : ℝ) ≤ (5 * b + 10) / 2 ^ b := by positivity
    calc Real.arctan t * |(piApprox b : ℝ) - Real.pi| ≤ 2 * (20 * ((b : ℝ) + 2) / 2 ^ b) := by gcongr
      _ ≤ (5 * b + 10) / 2 ^ b * (2 * Real.pi * piApprox b) := by rw [q]; nlinarith
  have q : (10 * (b : ℝ) + 60) / 2 ^ b = (4 * b + 28) / 2 ^ b + (5 * b + 10) / 2 ^ b + (b + 22) / 2 ^ b := by ring
  have q0 : (0 : ℝ) ≤ (b + 22) / 2 ^ b := by positivity
  rw [q]
  linarith

/-- The argument in the first quadrant. -/
theorem arg_first {y x : ℝ} (hx : 0 < x) : Complex.arg ⟨x, y⟩ = Real.arctan (y / x) := by
  have h := Real.arctan_mem_Ioo (y / x)
  have p := Real.pi_pos
  have s : 0 < Real.sqrt (1 + (y / x) ^ 2) := Real.sqrt_pos.mpr (by positivity)
  refine arg_eq (r := x * Real.sqrt (1 + (y / x) ^ 2)) (by positivity) ?_ ?_ (by linarith [h.1]) (by linarith [h.2])
  · rw [Real.cos_arctan]; field_simp
  · rw [Real.sin_arctan]; field_simp

theorem quadrantApprox_near {b : ℕ} (hb : 10 ≤ b) {y x : ℚ} (hy : 0 ≤ y) (hx : 0 ≤ x) (h : ¬(y = 0 ∧ x = 0)) :
    |(quadrantApprox b y x : ℝ) - Complex.arg ⟨x, y⟩ / (2 * Real.pi)| ≤ (10 * b + 60) / 2 ^ b := by
  have hpi := Real.pi_pos
  unfold quadrantApprox
  split_ifs with hle
  · have hx0 : 0 < x := by
      rcases hx.lt_or_eq with h' | h'
      · exact h'
      · exact absurd ⟨le_antisymm (h' ▸ hle) hy, h'.symm⟩ h
    have := octantApprox_near hb (t := y / x) (by positivity) (by rw [div_le_one hx0]; exact hle)
    rw [arg_first (by exact_mod_cast hx0)]
    push_cast at this
    exact this
  · have hy0 : 0 < y := lt_of_le_of_lt hx (not_le.mp hle)
    have hyr0 : (0 : ℝ) < y := by exact_mod_cast hy0
    have := octantApprox_near hb (t := x / y) (by positivity) (by rw [div_le_one hy0]; exact (not_le.mp hle).le)
    have ha : Complex.arg ⟨x, y⟩ = Real.pi / 2 - Real.arctan (x / y) := by
      have h := Real.arctan_mem_Ioo ((x : ℝ) / y)
      have h0 : 0 ≤ Real.arctan ((x : ℝ) / y) := Real.arctan_nonneg.mpr (by positivity)
      have s : 0 < Real.sqrt (1 + ((x : ℝ) / y) ^ 2) := Real.sqrt_pos.mpr (by positivity)
      refine arg_eq (r := y * Real.sqrt (1 + ((x : ℝ) / y) ^ 2)) (by positivity) ?_ ?_ (by linarith [h.2])
        (by linarith)
      · rw [Real.cos_pi_div_two_sub, Real.sin_arctan]; field_simp
      · rw [Real.sin_pi_div_two_sub, Real.cos_arctan]; field_simp
    rw [ha]
    push_cast at *
    rw [abs_sub_comm] at this
    have e : 1 / 4 - (octantApprox b (x / y) : ℝ) - (Real.pi / 2 - Real.arctan (x / y)) / (2 * Real.pi) =
        Real.arctan (x / y) / (2 * Real.pi) - octantApprox b (x / y) := by field_simp; ring
    rw [e]
    exact this

/-- The argument of a direction, reflected in the imaginary axis. -/
theorem arg_reflect {y x : ℝ} (hy : 0 ≤ y) (hx : x < 0) : Complex.arg ⟨x, y⟩ = Real.pi - Complex.arg ⟨-x, y⟩ := by
  have hn : (⟨-x, y⟩ : ℂ) ≠ 0 := fun e => by
    have := congrArg Complex.re e
    simp at this; linarith
  have p := Real.pi_pos
  have h0 : 0 ≤ Complex.arg ⟨-x, y⟩ := Complex.arg_nonneg_iff.mpr hy
  have h1 := (Complex.arg_mem_Ioc (⟨-x, y⟩ : ℂ)).2
  have h2 : Complex.arg ⟨-x, y⟩ < Real.pi := by
    refine lt_of_le_of_ne h1 fun e => ?_
    have := (Complex.arg_eq_pi_iff.mp e).1
    simp at this; linarith
  have hr : 0 < ‖(⟨-x, y⟩ : ℂ)‖ := norm_pos_iff.mpr hn
  refine arg_eq hr ?_ ?_ (by linarith) (by linarith)
  · rw [Real.cos_pi_sub, Complex.cos_arg hn]; field_simp
  · rw [Real.sin_pi_sub, Complex.sin_arg]; field_simp

/-- The angle of every rational direction. -/
theorem turnsApprox_near {b : ℕ} (hb : 10 ≤ b) {y x : ℚ} (zero : ℝ) (h : ¬(y = 0 ∧ x = 0)) :
    |(turnsApprox b y x : ℝ) - realTurns zero y x| ≤ (10 * b + 61) / 2 ^ b := by
  have hpi := Real.pi_pos
  have hz : ¬((y : ℝ) = 0 ∧ (x : ℝ) = 0) := by exact_mod_cast h
  have upper : ∀ {y x : ℚ}, 0 ≤ y → ¬(y = 0 ∧ x = 0) →
      |((if 0 ≤ x then quadrantApprox b y x else 1 / 2 - quadrantApprox b y (-x) : ℚ) : ℝ) -
        Complex.arg ⟨x, y⟩ / (2 * Real.pi)| ≤ (10 * b + 60) / 2 ^ b := by
    intro y x hy h
    split_ifs with hx
    · exact quadrantApprox_near hb hy hx h
    · have := quadrantApprox_near hb (y := y) (x := -x) hy (by linarith) (by
        rintro ⟨rfl, e⟩; exact h ⟨rfl, by linarith⟩)
      have hx' : (x : ℝ) < 0 := by exact_mod_cast not_le.mp hx
      rw [arg_reflect (by exact_mod_cast hy) hx']
      rw [abs_sub_comm] at this
      push_cast at *
      convert this using 2
      field_simp; ring
  have hc := cut_error b
  have q : (10 * (b : ℝ) + 61) / 2 ^ b = 1 / 2 ^ b + (10 * b + 60) / 2 ^ b := by ring
  rw [realTurns, if_neg hz, q]
  unfold turnsApprox
  simp only
  refine (abs_sub_le _ _ _).trans (add_le_add (hc _) ?_)
  split_ifs with hy hx hx
  · have := upper hy h
    rw [if_pos hx] at this
    rwa [abs_of_nonneg hy]
  · have := upper hy h
    rw [if_neg hx] at this
    rwa [abs_of_nonneg hy]
  all_goals
    have hy' : y < 0 := not_le.mp hy
    have hyr : (y : ℝ) < 0 := by exact_mod_cast hy'
    have hconj : Complex.arg ⟨x, y⟩ = -Complex.arg ⟨x, -y⟩ := by
      have e : (⟨x, y⟩ : ℂ) = (starRingEnd ℂ) ⟨x, -y⟩ := by apply Complex.ext <;> simp
      rw [e, Complex.arg_conj, if_neg]
      intro e
      have := (Complex.arg_eq_pi_iff.mp e).2
      simp at this
      linarith
    have := upper (y := -y) (x := x) (by linarith) (by rintro ⟨e, _⟩; linarith)
    rw [hconj, abs_of_neg hy', Rat.cast_neg, neg_div, sub_neg_eq_add, neg_add_eq_sub, abs_sub_comm]
    first
      | rw [if_pos hx] at this; simpa using this
      | rw [if_neg hx] at this; simpa using this

/-! ## The sine -/

theorem sinPiApprox_near {b : ℕ} (hb : 10 ≤ b) (x : ℚ) :
    |(sinPiApprox b x : ℝ) - Real.sin (Real.pi * x)| ≤ (21 * b + (41 + 10 * Real.exp 10)) / 2 ^ b := by
  have p2 : (0 : ℝ) < 2 ^ b := by positivity
  set n : ℤ := ⌊x / 2 + 1 / 2⌋ with hn
  set r : ℚ := x - 2 * n with hr
  have hr1 : |(r : ℝ)| ≤ 1 := by
    have h1 := Int.floor_le (x / 2 + 1 / 2)
    have h2 := Int.lt_floor_add_one (x / 2 + 1 / 2)
    have : |r| ≤ 1 := by rw [abs_le]; constructor <;> linarith
    have := (Rat.cast_le (K := ℝ)).mpr this
    push_cast at this; exact this
  have hpn := piApprox_near b
  have hl : 20 * ((b : ℝ) + 2) / 2 ^ b ≤ 1 := by
    rw [div_le_one p2]; exact_mod_cast linear_le_pow hb
  have hc := cut_error b (piApprox b * r)
  have ha : |((cut b (piApprox b * r) : ℚ) : ℝ) - Real.pi * r| ≤ (20 * b + 41) / 2 ^ b := by
    push_cast at hc
    have h1 : |(piApprox b : ℝ) * r - Real.pi * r| ≤ 20 * (b + 2) / 2 ^ b := by
      rw [← sub_mul, abs_mul]
      nlinarith [abs_nonneg ((piApprox b : ℝ) - Real.pi), abs_nonneg (r : ℝ)]
    have := abs_sub_le ((cut b (piApprox b * r) : ℚ) : ℝ) (piApprox b * r) (Real.pi * r)
    have q : (20 * (b : ℝ) + 41) / 2 ^ b = 1 / 2 ^ b + 20 * (b + 2) / 2 ^ b := by ring
    rw [q]; linarith
  have h5 : |cut b (piApprox b * r)| ≤ 5 := by
    have h1 : |Real.pi * (r : ℝ)| ≤ Real.pi := by
      rw [abs_mul, abs_of_pos Real.pi_pos]; nlinarith [Real.pi_pos]
    have h2 : (20 * (b : ℝ) + 41) / 2 ^ b ≤ 1.1 := by
      have e : (20 * (b : ℝ) + 41) / 2 ^ b = 20 * (b + 2) / 2 ^ b + 1 / 2 ^ b := by ring
      have e2 : (1 : ℝ) / 2 ^ b ≤ 1 / 2 ^ 10 := by gcongr; norm_num
      rw [e]; norm_num at e2 ⊢; linarith
    have h3 := abs_sub_abs_le_abs_sub ((cut b (piApprox b * r) : ℚ) : ℝ) (Real.pi * r)
    have h4 := Real.pi_lt_d2
    have : |((cut b (piApprox b * r) : ℚ) : ℝ)| ≤ 5 := by linarith
    exact_mod_cast this
  have hs := sinApprox_near b h5
  have hper : Real.sin (Real.pi * x) = Real.sin (Real.pi * r) := by
    rw [← Real.sin_sub_int_mul_two_pi (Real.pi * x) n, hr]
    congr 1; push_cast; ring
  have hlip : |Real.sin ((cut b (piApprox b * r) : ℚ) : ℝ) - Real.sin (Real.pi * r)| ≤
      |((cut b (piApprox b * r) : ℚ) : ℝ) - Real.pi * r| := by
    have := Real.lipschitzWith_sin.dist_le_mul ((cut b (piApprox b * r) : ℚ) : ℝ) (Real.pi * r)
    simpa [Real.dist_eq] using this
  have := abs_sub_le (sinPiApprox b x : ℝ) (Real.sin ((cut b (piApprox b * r) : ℚ) : ℝ)) (Real.sin (Real.pi * r))
  have q : (21 * (b : ℝ) + (41 + 10 * Real.exp 10)) / 2 ^ b =
      (b + 2 * (5 * Real.exp 10)) / 2 ^ b + (20 * b + 41) / 2 ^ b := by ring
  rw [hper, q]
  have hs' : |(sinPiApprox b x : ℝ) - Real.sin ((cut b (piApprox b * r) : ℚ) : ℝ)| ≤
    (b + 2 * (5 * Real.exp 10)) / 2 ^ b := hs
  linarith

end Sys2Proof.Machine
end

