-- ==== Sys2Proof/Laws/Decode.lean ====
section
/-! SUPPORT. Lemmas of the encoding: the fields of a command word, the register numbers, and what a decoded word is. -/

namespace Sys2Proof

open Machine

@[simp] theorem cmdOpcode_cmdWord (op reg : BitVec 8) (rsv : BitVec 16) (imm : BitVec 32) :
    cmdOpcode (cmdWord op reg rsv imm) = op := by
  unfold cmdOpcode cmdWord
  ext i hi
  simp only [BitVec.getElem_extractLsb', BitVec.getLsbD_append]
  interval_cases i <;> simp

@[simp] theorem cmdReg_cmdWord (op reg : BitVec 8) (rsv : BitVec 16) (imm : BitVec 32) :
    cmdReg (cmdWord op reg rsv imm) = reg := by
  unfold cmdReg cmdWord
  ext i hi
  simp only [BitVec.getElem_extractLsb', BitVec.getLsbD_append]
  interval_cases i <;> simp

@[simp] theorem cmdRsv_cmdWord (op reg : BitVec 8) (rsv : BitVec 16) (imm : BitVec 32) :
    cmdRsv (cmdWord op reg rsv imm) = rsv := by
  unfold cmdRsv cmdWord
  ext i hi
  simp only [BitVec.getElem_extractLsb', BitVec.getLsbD_append]
  interval_cases i <;> simp

@[simp] theorem cmdImm_cmdWord (op reg : BitVec 8) (rsv : BitVec 16) (imm : BitVec 32) :
    cmdImm (cmdWord op reg rsv imm) = imm := by
  unfold cmdImm cmdWord
  ext i hi
  simp only [BitVec.getElem_extractLsb', BitVec.getLsbD_append]
  interval_cases i <;> simp

/-- A command word is its four fields. -/
theorem cmdWord_fields (w : CmdWord) : cmdWord (cmdOpcode w) (cmdReg w) (cmdRsv w) (cmdImm w) = w := by
  unfold cmdOpcode cmdReg cmdRsv cmdImm cmdWord
  ext i hi
  simp only [BitVec.getElem_append, BitVec.getElem_extractLsb']
  interval_cases i <;> simp

@[simp] theorem iqI_append (i q : BitVec 16) : iqI (q ++ i) = i := by
  unfold iqI
  ext k hk
  simp only [BitVec.getElem_extractLsb', BitVec.getLsbD_append]
  interval_cases k <;> simp

@[simp] theorem iqQ_append (i q : BitVec 16) : iqQ (q ++ i) = q := by
  unfold iqQ
  ext k hk
  simp only [BitVec.getElem_extractLsb', BitVec.getLsbD_append]
  interval_cases k <;> simp

/-- An input sample word is its two fields. -/
theorem iq_fields (w : IqWord) : iqQ w ++ iqI w = w := by
  unfold iqI iqQ
  ext k hk
  simp only [BitVec.getElem_append, BitVec.getElem_extractLsb']
  interval_cases k <;> simp

@[simp] theorem regOfNum_regNum (r : Reg) : regOfNum (regNum r) = some r := by cases r <;> rfl

/-- A register number names one register, whose number it is. -/
theorem regNum_of_regOfNum {n : RegNum} {r : Reg} (h : regOfNum n = some r) : regNum r = n := by
  revert n r
  decide

/-- What a word that decodes is, field by field: the inversion of the decoder of the `cmd` port. -/
theorem decodeCmd_ok {w : CmdWord} {i : Instr} (h : decodeCmd w = .ok i) :
    cmdRsv w = 0 ∧ decodeFields (cmdOpcode w) (cmdReg w) (cmdImm w) = .ok i := by
  unfold decodeCmd at h
  split at h
  · cases h
  · rename_i hr
    exact ⟨not_not.mp hr, h⟩

theorem decodePlain_ok {i j : Instr} {reg : RegNum} {imm : BitVec 32} :
    decodePlain i reg imm = .ok j ↔ reg = 0 ∧ imm = 0 ∧ i = j := by
  unfold decodePlain
  split
  · simp_all
  · split <;> simp_all

end Sys2Proof
end

