-- ==== Sys2Proof/Laws/Enclosure.lean ====
section
/-! SUPPORT. The bounds of a real number hold: the number a term names lies in the interval computed from the term. -/

namespace Sys2Proof

open Machine

/-- A real number lies in an interval. -/
def Interval.Has (i : Interval) (x : ℝ) : Prop := (i.lo : ℝ) ≤ x ∧ x ≤ i.hi

theorem cutDown_le (b : ℕ) (x : ℚ) : cutDown b x ≤ x := cut_le _ x
theorem le_cutUp (b : ℕ) (x : ℚ) : x ≤ cutUp b x := le_neg_of_le_neg (cutDown_le b (-x))

theorem Interval.Has.outward {i : Interval} {x : ℝ} (h : i.Has x) (b : ℕ) : (i.outward b).Has x :=
  ⟨le_trans (by exact_mod_cast cutDown_le b i.lo) h.1, h.2.trans (by exact_mod_cast le_cutUp b i.hi)⟩

theorem Interval.has_point (q : ℚ) : (⟨q, q⟩ : Interval).Has q := ⟨le_rfl, le_rfl⟩

theorem Interval.has_around {c r : ℚ} {x : ℝ} (h : |(c : ℝ) - x| ≤ r) : (Interval.around c r).Has x := by
  rw [abs_le] at h
  constructor <;> simp only [Interval.around] <;> push_cast <;> linarith [h.1, h.2]

theorem Interval.Has.plus {i j : Interval} {x y : ℝ} (hi : i.Has x) (hj : j.Has y) : (i.plus j).Has (x + y) := by
  constructor <;> simp only [Interval.plus] <;> push_cast
  · exact add_le_add hi.1 hj.1
  · exact add_le_add hi.2 hj.2

theorem Interval.Has.negate {i : Interval} {x : ℝ} (h : i.Has x) : i.negate.Has (-x) := by
  constructor <;> simp only [Interval.negate] <;> push_cast
  · exact neg_le_neg h.2
  · exact neg_le_neg h.1

/-- A product with one factor in an interval lies between the products with its ends. -/
theorem mul_between {a c x y : ℝ} (h1 : a ≤ x) (h2 : x ≤ c) : min (a * y) (c * y) ≤ x * y ∧ x * y ≤ max (a * y) (c * y) := by
  rcases le_total 0 y with h | h
  · exact ⟨(min_le_left _ _).trans (mul_le_mul_of_nonneg_right h1 h),
      (mul_le_mul_of_nonneg_right h2 h).trans (le_max_right _ _)⟩
  · exact ⟨(min_le_right _ _).trans (mul_le_mul_of_nonpos_right h2 h),
      (mul_le_mul_of_nonpos_right h1 h).trans (le_max_left _ _)⟩

theorem Interval.Has.times {i j : Interval} {x y : ℝ} (hi : i.Has x) (hj : j.Has y) : (i.times j).Has (x * y) := by
  have h := mul_between (y := y) hi.1 hi.2
  have hl := mul_between (y := (i.lo : ℝ)) hj.1 hj.2
  have hh := mul_between (y := (i.hi : ℝ)) hj.1 hj.2
  simp only [mul_comm (_ : ℝ) (i.lo : ℝ), mul_comm (_ : ℝ) (i.hi : ℝ)] at hl hh
  constructor <;> simp only [Interval.times] <;> push_cast
  · exact (min_le_min hl.1 hh.1).trans h.1
  · exact h.2.trans (max_le_max hl.2 hh.2)

theorem Interval.Has.ne_zero {i : Interval} {x : ℝ} (h : i.Has x) (h0 : i.awayFromZero = true) : x ≠ 0 := by
  simp only [Interval.awayFromZero, decide_eq_true_eq] at h0
  rcases h0 with h0 | h0
  · have : (0 : ℝ) < i.lo := by exact_mod_cast h0
    exact (this.trans_le h.1).ne'
  · have : (i.hi : ℝ) < 0 := by exact_mod_cast h0
    exact (h.2.trans_lt this).ne

theorem Interval.Has.inverse {i : Interval} {x : ℝ} (h : i.Has x) (h0 : i.awayFromZero = true) : i.inverse.Has (1 / x) := by
  simp only [Interval.awayFromZero, decide_eq_true_eq] at h0
  rcases h0 with h0 | h0
  · have hl : (0 : ℝ) < i.lo := by exact_mod_cast h0
    have hx := hl.trans_le h.1
    constructor <;> simp only [Interval.inverse] <;> push_cast
    · exact one_div_le_one_div_of_le hx h.2
    · exact one_div_le_one_div_of_le hl h.1
  · have hh : (i.hi : ℝ) < 0 := by exact_mod_cast h0
    have hx := h.2.trans_lt hh
    constructor <;> simp only [Interval.inverse] <;> push_cast
    · exact one_div_le_one_div_of_neg_of_le hh h.2
    · exact one_div_le_one_div_of_neg_of_le hx h.1

/-- An interval whose ends go through a monotone function. -/
theorem Interval.Has.map {i j : Interval} {x : ℝ} {f : ℝ → ℝ} (h : i.Has x) (hf : ∀ x y, x ≤ y → f x ≤ f y)
    (hl : (j.lo : ℝ) ≤ f i.lo) (hh : f i.hi ≤ j.hi) : j.Has (f x) :=
  ⟨hl.trans (hf _ _ h.1), (hf _ _ h.2).trans hh⟩

theorem clampUnit_mono {K : Type*} [Ring K] [LinearOrder K] [IsStrictOrderedRing K] {x y : K} (h : x ≤ y) :
    clampUnit x ≤ clampUnit y := by
  rw [clampUnit_eq, clampUnit_eq]
  exact max_le_max le_rfl (min_le_min le_rfl h)

theorem has_clamp {i : Interval} {x : ℝ} (h : i.Has x) : (⟨clampUnit i.lo, clampUnit i.hi⟩ : Interval).Has (clampUnit x) :=
  h.map (fun _ _ => clampUnit_mono) (clampUnit_cast _).le (clampUnit_cast _).ge

theorem has_posPart {i : Interval} {x : ℝ} (h : i.Has x) : (⟨max 0 i.lo, max 0 i.hi⟩ : Interval).Has (max 0 x) :=
  h.map (f := max 0) (fun _ _ h => max_le_max le_rfl h) (by push_cast; rfl) (by push_cast; rfl)

theorem has_pi (b : ℕ) : (piBounds b).Has Real.pi :=
  Interval.has_around (by have := piApprox_near b; push_cast; exact this)

theorem exp_ten_le : Real.exp 10 ≤ 59049 := by
  have h : Real.exp 1 ≤ 3 := Real.exp_one_lt_d9.le.trans (by norm_num)
  calc Real.exp 10 = Real.exp 1 ^ 10 := by rw [← Real.exp_nat_mul]; norm_num
    _ ≤ 3 ^ 10 := by gcongr
    _ = 59049 := by norm_num

theorem has_sinPi {b : ℕ} (hb : 10 ≤ b) {i : Interval} {x : ℝ} (h : i.Has x) :
    (sinPiBounds b i).Has (Real.sin (Real.pi * x)) := by
  refine Interval.has_around ?_
  have h1 := sinPiApprox_near hb i.lo
  have h2 : |Real.sin (Real.pi * i.lo) - Real.sin (Real.pi * x)| ≤ 4 * ((i.hi : ℝ) - i.lo) := by
    have := Real.lipschitzWith_sin.dist_le_mul (Real.pi * i.lo) (Real.pi * x)
    simp only [Real.dist_eq, NNReal.coe_one, one_mul] at this
    refine this.trans ?_
    rw [← mul_sub, abs_mul, abs_of_pos Real.pi_pos, abs_sub_comm, abs_of_nonneg (by linarith [h.1])]
    have h3 := Real.pi_lt_four
    have h4 : x - i.lo ≤ i.hi - i.lo := by linarith [h.2]
    have h5 : 0 ≤ x - i.lo := by linarith [h.1]
    nlinarith [Real.pi_pos]
  have h3 : (21 * (b : ℝ) + (41 + 10 * Real.exp 10)) / 2 ^ b ≤ (21 * b + 590531) / 2 ^ b := by
    gcongr
    linarith [exp_ten_le]
  have h4 := abs_sub_le (sinPiApprox b i.lo : ℝ) (Real.sin (Real.pi * i.lo)) (Real.sin (Real.pi * x))
  push_cast
  linarith

theorem has_sqrt (b : ℕ) {i : Interval} {x : ℝ} (h : i.Has x) : (sqrtBounds b i).Has (Real.sqrt x) := by
  have hl := abs_le.mp (sqrtApprox_near b i.lo)
  have hh := abs_le.mp (sqrtApprox_near b i.hi)
  refine h.map (f := Real.sqrt) (fun _ _ => Real.sqrt_le_sqrt) ?_ ?_ <;> simp only [sqrtBounds] <;> push_cast
  · exact max_le (Real.sqrt_nonneg _) (by linarith [hl.2])
  · linarith [hh.1]

theorem has_pow04 {b : ℕ} {i j : Interval} {x : ℝ} (h : i.Has x) (e : pow04Bounds b i = some j) :
    j.Has (|x| ^ (2 / 5 : ℝ)) := by
  unfold pow04Bounds at e
  split_ifs at e with h0
  simp only [Option.some.injEq] at e
  subst e
  have h0' : (0 : ℝ) ≤ i.lo := by exact_mod_cast h0
  have hl := abs_le.mp (pow04Approx_near b i.lo)
  have hh := abs_le.mp (pow04Approx_near b i.hi)
  have hx := h0'.trans h.1
  have m1 : |(i.lo : ℝ)| ^ (2 / 5 : ℝ) ≤ |x| ^ (2 / 5 : ℝ) := by
    rw [abs_of_nonneg h0', abs_of_nonneg hx]; exact Real.rpow_le_rpow h0' h.1 (by norm_num)
  have m2 : |x| ^ (2 / 5 : ℝ) ≤ |(i.hi : ℝ)| ^ (2 / 5 : ℝ) := by
    rw [abs_of_nonneg hx, abs_of_nonneg (hx.trans h.2)]; exact Real.rpow_le_rpow hx h.2 (by norm_num)
  constructor <;> simp only <;> push_cast
  · exact max_le (by positivity) (by linarith [hl.2])
  · linarith [hh.1]

theorem besselI0_mono {x y : ℝ} (h0 : 0 ≤ x) (h : x ≤ y) : besselI0 x ≤ besselI0 y :=
  (besselI0_summable x).tsum_le_tsum (fun m => by gcongr) (besselI0_summable y)

theorem has_i0 {b : ℕ} {i j : Interval} {x : ℝ} (h : i.Has x) (e : i0Bounds b i = some j) : j.Has (besselI0 x) := by
  unfold i0Bounds at e
  split_ifs at e with h0
  simp only [Option.some.injEq] at e
  subst e
  have h0' : (0 : ℝ) ≤ i.lo := by exact_mod_cast h0.1
  exact ⟨(i0_between b i.lo).1.trans (besselI0_mono h0' h.1),
    (besselI0_mono (h0'.trans h.1) h.2).trans (i0_between b i.hi).2⟩

/-! ## The angle -/

/-- The angle in turns of the direction `(1, t)`. -/
theorem realTurns_slope (zero t : ℝ) : realTurns zero t 1 = Real.arctan t / (2 * Real.pi) := by
  rw [realTurns, if_neg (by norm_num), arg_first one_pos, div_one]

theorem has_slope {b : ℕ} (hb : 10 ≤ b) {i : Interval} {t : ℝ} (h : i.Has t) :
    (slopeBounds b i).Has (Real.arctan t / (2 * Real.pi)) := by
  have hp := Real.pi_pos
  have near : ∀ q : ℚ, |(turnsApprox b q 1 : ℝ) - Real.arctan q / (2 * Real.pi)| ≤ (10 * b + 61) / 2 ^ b := fun q => by
    have := turnsApprox_near hb (y := q) (x := 1) 0 (by norm_num)
    rw [← realTurns_slope 0]
    push_cast at this
    exact this
  have hl := abs_le.mp (near i.lo)
  have hh := abs_le.mp (near i.hi)
  refine h.map (f := fun t => Real.arctan t / (2 * Real.pi))
    (fun x y h => div_le_div_of_nonneg_right (Real.arctan_mono h) (by positivity)) ?_ ?_ <;>
    simp only [slopeBounds] <;> push_cast
  · linarith [hl.2]
  · linarith [hh.1]

/-- The argument above the real axis. -/
theorem arg_above {y x : ℝ} (hy : 0 < y) : Complex.arg ⟨x, y⟩ = Real.pi / 2 - Real.arctan (x / y) := by
  have h := Real.arctan_mem_Ioo (x / y)
  have hp := Real.pi_pos
  have s : 0 < Real.sqrt (1 + (x / y) ^ 2) := Real.sqrt_pos.mpr (by positivity)
  refine arg_eq (r := y * Real.sqrt (1 + (x / y) ^ 2)) (by positivity) ?_ ?_ (by linarith [h.2]) (by linarith [h.1])
  · rw [Real.cos_pi_div_two_sub, Real.sin_arctan]; field_simp
  · rw [Real.sin_pi_div_two_sub, Real.cos_arctan]; field_simp

/-- The argument below the real axis. -/
theorem arg_below {y x : ℝ} (hy : y < 0) : Complex.arg ⟨x, y⟩ = -(Real.pi / 2) - Real.arctan (x / y) := by
  have h := Real.arctan_mem_Ioo (x / y)
  have hp := Real.pi_pos
  have hy' : 0 < -y := neg_pos.mpr hy
  have s : 0 < Real.sqrt (1 + (x / y) ^ 2) := Real.sqrt_pos.mpr (by positivity)
  refine arg_eq (r := -y * Real.sqrt (1 + (x / y) ^ 2)) (by positivity) ?_ ?_ (by linarith [h.2]) (by linarith [h.1])
  · rw [show -(Real.pi / 2) - Real.arctan (x / y) = -(Real.arctan (x / y) + Real.pi / 2) by ring, Real.cos_neg,
      Real.cos_add_pi_div_two, Real.sin_arctan]
    have := hy.ne
    field_simp
  · rw [show -(Real.pi / 2) - Real.arctan (x / y) = -(Real.arctan (x / y) + Real.pi / 2) by ring, Real.sin_neg,
      Real.sin_add_pi_div_two, Real.cos_arctan]
    field_simp

theorem has_turns {b : ℕ} (hb : 10 ≤ b) {i j k : Interval} {y x : ℝ} (zero : ℝ) (hi : i.Has y) (hj : j.Has x)
    (e : turnsBounds b i j = some k) : k.Has (realTurns zero y x) := by
  have hp := Real.pi_pos
  have hpn := hp.ne'
  unfold turnsBounds at e
  split_ifs at e with h1 h2 h3 h4 <;> simp only [Option.some.injEq] at e <;> subst e
  · have hx : 0 < x := lt_of_lt_of_le (by exact_mod_cast h1) hj.1
    have ha : j.awayFromZero = true := by simp [Interval.awayFromZero, h1]
    have := has_slope hb ((hi.times (hj.inverse ha)).outward b)
    rw [realTurns, if_neg (fun h => hx.ne' h.2), arg_first hx]
    rwa [mul_one_div] at this
  · have hy : 0 < y := lt_of_lt_of_le (by exact_mod_cast h2) hi.1
    have ha : i.awayFromZero = true := by simp [Interval.awayFromZero, h2]
    have := has_slope hb ((hj.times (hi.inverse ha)).outward b)
    have h := (Interval.has_around (c := 1 / 4) (r := 0) (x := 1 / 4) (by norm_num)).plus this.negate
    rw [realTurns, if_neg (fun h => hy.ne' h.1), arg_above hy]
    rw [mul_one_div] at h
    convert h using 1
    field_simp
    ring
  · have hy : y < 0 := lt_of_le_of_lt hi.2 (by exact_mod_cast h3)
    have ha : i.awayFromZero = true := by simp [Interval.awayFromZero, h3]
    have := has_slope hb ((hj.times (hi.inverse ha)).outward b)
    have h := (Interval.has_around (c := -1 / 4) (r := 0) (x := -1 / 4) (by norm_num)).plus this.negate
    rw [realTurns, if_neg (fun h => hy.ne h.1), arg_below hy]
    rw [mul_one_div] at h
    convert h using 1
    field_simp
    ring
  · have hx : x < 0 := lt_of_le_of_lt hj.2 (by exact_mod_cast h4.2.2)
    have hy : y = 0 := le_antisymm (hi.2.trans (by exact_mod_cast h4.2.1.le)) (le_trans (by exact_mod_cast h4.1.ge) hi.1)
    have e : realTurns zero y x = 1 / 2 :=
      realTurns_eq (r := -x) (u := 1 / 2) (by linarith)
        (by rw [show 2 * Real.pi * (1 / 2) = Real.pi by ring]; simp)
        (by rw [show 2 * Real.pi * (1 / 2) = Real.pi by ring, hy]; simp) (by norm_num) (by norm_num)
    rw [e]
    exact Interval.has_around (by norm_num)

/-! ## Every term -/

/-- The number a term names lies in the bounds computed from the term. -/
theorem RealNum.enclose_has {b : ℕ} (hb : 10 ≤ b) (t : RealNum) : ∀ i, t.enclose b = some i → i.Has t.val := by
  induction t with
  | rat q => rintro i ⟨⟩; exact Interval.has_point q
  | const => rintro i ⟨⟩
  | pi => rintro i ⟨⟩; exact has_pi b
  | add x y hx hy =>
    intro k e
    simp only [RealNum.enclose, Option.bind_eq_bind, Option.bind_eq_some_iff, Option.pure_def, Option.some.injEq] at e
    obtain ⟨i, ei, j, ej, rfl⟩ := e
    exact ((hx i ei).plus (hy j ej)).outward b
  | sub x y hx hy =>
    intro k e
    simp only [RealNum.enclose, Option.bind_eq_bind, Option.bind_eq_some_iff, Option.pure_def, Option.some.injEq] at e
    obtain ⟨i, ei, j, ej, rfl⟩ := e
    have := ((hx i ei).plus (hy j ej).negate).outward b
    rwa [← sub_eq_add_neg] at this
  | mul x y hx hy =>
    intro k e
    simp only [RealNum.enclose, Option.bind_eq_bind, Option.bind_eq_some_iff, Option.pure_def, Option.some.injEq] at e
    obtain ⟨i, ei, j, ej, rfl⟩ := e
    exact ((hx i ei).times (hy j ej)).outward b
  | div x y hx hy =>
    intro k e
    simp only [RealNum.enclose, Option.bind_eq_bind, Option.bind_eq_some_iff] at e
    obtain ⟨i, ei, j, ej, e⟩ := e
    split_ifs at e with h
    simp only [Option.some.injEq] at e
    subst e
    have := ((hx i ei).times ((hy j ej).inverse h)).outward b
    rw [RealNum.val, if_neg ((hy j ej).ne_zero h)]
    rwa [mul_one_div] at this
  | neg x hx =>
    intro k e
    simp only [RealNum.enclose, Option.bind_eq_bind, Option.bind_eq_some_iff, Option.pure_def, Option.some.injEq] at e
    obtain ⟨i, ei, rfl⟩ := e
    exact (hx i ei).negate
  | posPart x hx =>
    intro k e
    simp only [RealNum.enclose, Option.bind_eq_bind, Option.bind_eq_some_iff, Option.pure_def, Option.some.injEq] at e
    obtain ⟨i, ei, rfl⟩ := e
    exact has_posPart (hx i ei)
  | clamp x hx =>
    intro k e
    simp only [RealNum.enclose, Option.bind_eq_bind, Option.bind_eq_some_iff, Option.pure_def, Option.some.injEq] at e
    obtain ⟨i, ei, rfl⟩ := e
    exact has_clamp (hx i ei)
  | sinPi x hx =>
    intro k e
    simp only [RealNum.enclose, Option.bind_eq_bind, Option.bind_eq_some_iff, Option.pure_def, Option.some.injEq] at e
    obtain ⟨i, ei, rfl⟩ := e
    exact (has_sinPi hb (hx i ei)).outward b
  | sqrt x hx =>
    intro k e
    simp only [RealNum.enclose, Option.bind_eq_bind, Option.bind_eq_some_iff, Option.pure_def, Option.some.injEq] at e
    obtain ⟨i, ei, rfl⟩ := e
    exact has_sqrt b (hx i ei)
  | i0 x hx =>
    intro k e
    simp only [RealNum.enclose, Option.bind_eq_bind, Option.bind_eq_some_iff, Option.pure_def, Option.some.injEq] at e
    obtain ⟨i, ei, j, ej, rfl⟩ := e
    exact (has_i0 (hx i ei) ej).outward b
  | pow04 x hx =>
    intro k e
    simp only [RealNum.enclose, Option.bind_eq_bind, Option.bind_eq_some_iff] at e
    obtain ⟨i, ei, e⟩ := e
    exact has_pow04 (hx i ei) e
  | turns y x zero hy hx _ =>
    intro k e
    simp only [RealNum.enclose, Option.bind_eq_bind, Option.bind_eq_some_iff] at e
    obtain ⟨i, ei, j, ej, e⟩ := e
    exact has_turns hb zero.val (hy i ei) (hx j ej) e
  | ifZero c x y hc _ hy =>
    intro k e
    simp only [RealNum.enclose, Option.bind_eq_bind, Option.bind_eq_some_iff] at e
    obtain ⟨i, ei, e⟩ := e
    split_ifs at e with h
    rw [RealNum.val, if_neg ((hc i ei).ne_zero h)]
    exact hy k e

end Sys2Proof
end

