-- ==== Sys2Proof/Laws/Numerics.lean ====
section
/-! SUPPORT. The exact format as arithmetic on real numbers. -/

namespace Sys2Proof.Machine

/-! ## The exact format -/

@[simp] theorem exact_rnd (z a : RealNum) : (exactNumerics z).rnd a = a := rfl
@[simp] theorem exact_gainRnd (z a : RealNum) : (exactNumerics z).gainRnd a = a := rfl
@[simp] theorem exact_delayRnd (z : RealNum) (q : ℚ) : (exactNumerics z).delayRnd q = q := rfl
@[simp] theorem exact_designer (z : RealNum) : (exactNumerics z).designer = none := rfl
@[simp] theorem exact_bankDesigner (z : RealNum) : (exactNumerics z).bankDesigner = none := rfl
@[simp] theorem exact_fullTurn (z : RealNum) : (exactNumerics z).fullTurn = .rat 1 := rfl

@[simp] theorem exact_add_val (z a b : RealNum) : ((exactNumerics z).add a b).val = a.val + b.val :=
  RealNum.val_plus a b
@[simp] theorem exact_sub_val (z a b : RealNum) : ((exactNumerics z).sub a b).val = a.val - b.val :=
  RealNum.val_minus a b
@[simp] theorem exact_mul_val (z a b : RealNum) : ((exactNumerics z).mul a b).val = a.val * b.val :=
  RealNum.val_times a b
@[simp] theorem exact_neg_val (z a : RealNum) : ((exactNumerics z).neg a).val = -a.val := RealNum.val_negate a
theorem exact_div_val (z a : RealNum) {b : RealNum} (h : b.val ≠ 0) :
    ((exactNumerics z).div a b).val = a.val / b.val := RealNum.val_over a h
@[simp] theorem exact_pi_val (z : RealNum) : (exactNumerics z).pi.val = Real.pi := rfl
@[simp] theorem exact_sinPi_val (z x : RealNum) : ((exactNumerics z).sinPi x).val = Real.sin (Real.pi * x.val) :=
  RealNum.val_sineOfPi x
@[simp] theorem exact_sqrt_val (z x : RealNum) : ((exactNumerics z).sqrt x).val = Real.sqrt x.val := RealNum.val_root x
@[simp] theorem exact_i0_val (z x : RealNum) : ((exactNumerics z).i0 x).val = besselI0 x.val := RealNum.val_bessel x
@[simp] theorem exact_pow04_val (z x : RealNum) : ((exactNumerics z).pow04 x).val = |x.val| ^ (2 / 5 : ℝ) :=
  RealNum.val_toThe04 x
@[simp] theorem exact_angle_val (z y x : RealNum) :
    ((exactNumerics z).angle y x).val = realTurns z.val y.val x.val := RealNum.val_angleTurns z y x

theorem exact_sinc_val (z x : RealNum) :
    ((exactNumerics z).sinc x).val = if x.val = 0 then 1 else Real.sin (Real.pi * x.val) / (Real.pi * x.val) := by
  unfold Numerics.sinc
  rw [RealNum.val_whenZero]
  split_ifs with h
  · simp
  · have hp : ((exactNumerics z).mul (exactNumerics z).pi x).val ≠ 0 := by
      simpa using h
    rw [exact_div_val z _ hp]
    simp

@[simp] theorem exact_cadd_re_val (z : RealNum) (a b : Cplx) :
    ((exactNumerics z).cadd a b).re.val = a.re.val + b.re.val := exact_add_val z _ _
@[simp] theorem exact_cadd_im_val (z : RealNum) (a b : Cplx) :
    ((exactNumerics z).cadd a b).im.val = a.im.val + b.im.val := exact_add_val z _ _
@[simp] theorem exact_cscale_re_val (z c : RealNum) (a : Cplx) :
    ((exactNumerics z).cscale c a).re.val = c.val * a.re.val := exact_mul_val z _ _
@[simp] theorem exact_cscale_im_val (z c : RealNum) (a : Cplx) :
    ((exactNumerics z).cscale c a).im.val = c.val * a.im.val := exact_mul_val z _ _

/-- The numerics of a build of the exact format: only the coefficient designs are the build's own. -/
theorem numericsOf_exact {b : Build} (h : b.fmt = .exact) :
    numericsOf b = { exactNumerics b.atan2Zero with
      designer := designerOf b.design, bankDesigner := bankDesignerOf b.banks } := by
  simp [numericsOf, formatNumerics, h]

/-- The delay of a build of the exact format is rounded nowhere. -/
theorem numericsOf_exact_delayRnd {b : Build} (h : b.fmt = .exact) (q : ℚ) : (numericsOf b).delayRnd q = q := by
  rw [numericsOf_exact h]; rfl

/-! ## The angle -/

/-- The angle in turns does not depend on the distance from the origin. -/
theorem realTurns_scale {zero c y x : ℝ} (hc : 0 < c) : realTurns zero (c * y) (c * x) = realTurns zero y x := by
  unfold realTurns
  have h : (⟨c * x, c * y⟩ : ℂ) = (c : ℂ) * ⟨x, y⟩ := by apply Complex.ext <;> simp
  rw [h, Complex.arg_real_mul _ hc]
  simp [hc.ne']

/-- The angle in turns lies in `(-1/2, 1/2]` away from the origin. -/
theorem realTurns_mem {zero y x : ℝ} (h : ¬(y = 0 ∧ x = 0)) :
    -1 / 2 < realTurns zero y x ∧ realTurns zero y x ≤ 1 / 2 := by
  have hp := Real.pi_pos
  have ha := Complex.arg_mem_Ioc (⟨x, y⟩ : ℂ)
  rw [realTurns, if_neg h, lt_div_iff₀ (by positivity), div_le_iff₀ (by positivity)]
  exact ⟨by linarith [ha.1], by linarith [ha.2]⟩

end Sys2Proof.Machine
end

