-- ==== Sys2Proof/Laws/State.lean ====
section
/-! SUPPORT. One lemma per field of State per named update, so that no proof unfolds a record update. -/

namespace Sys2Proof.Machine

@[simp] theorem State.setCmderr_build (s : State) : s.setCmderr.build = s.build := rfl
@[simp] theorem State.setCmderr_mode (s : State) : s.setCmderr.mode = s.mode := rfl
@[simp] theorem State.setCmderr_cmderr (s : State) : s.setCmderr.cmderr = true := rfl
@[simp] theorem State.setCmderr_cfg (s : State) : s.setCmderr.cfg = s.cfg := rfl
@[simp] theorem State.setCmderr_errcode (s : State) : s.setCmderr.errcode = s.errcode := rfl
@[simp] theorem State.setCmderr_rsdelay (s : State) : s.setCmderr.rsdelay = s.rsdelay := rfl
@[simp] theorem State.setCmderr_objs (s : State) : s.setCmderr.objs = s.objs := rfl
@[simp] theorem State.setCmderr_pushWait (s : State) : s.setCmderr.pushWait = s.pushWait := rfl
@[simp] theorem State.setCmderr_cmdQ (s : State) : s.setCmderr.cmdQ = s.cmdQ := rfl
@[simp] theorem State.setCmderr_rspQ (s : State) : s.setCmderr.rspQ = s.rspQ := rfl
@[simp] theorem State.setCmderr_inQ (s : State) : s.setCmderr.inQ = s.inQ := rfl
@[simp] theorem State.setCmderr_outQ (s : State) : s.setCmderr.outQ = s.outQ := rfl

@[simp] theorem State.respond_build (s : State) (c : RspCode) (v : BitVec 32) : (s.respond c v).build = s.build := rfl
@[simp] theorem State.respond_mode (s : State) (c : RspCode) (v : BitVec 32) : (s.respond c v).mode = s.mode := rfl
@[simp] theorem State.respond_cmderr (s : State) (c : RspCode) (v : BitVec 32) :
    (s.respond c v).cmderr = s.cmderr := rfl
@[simp] theorem State.respond_cfg (s : State) (c : RspCode) (v : BitVec 32) : (s.respond c v).cfg = s.cfg := rfl
@[simp] theorem State.respond_errcode (s : State) (c : RspCode) (v : BitVec 32) :
    (s.respond c v).errcode = s.errcode := rfl
@[simp] theorem State.respond_rsdelay (s : State) (c : RspCode) (v : BitVec 32) :
    (s.respond c v).rsdelay = s.rsdelay := rfl
@[simp] theorem State.respond_objs (s : State) (c : RspCode) (v : BitVec 32) : (s.respond c v).objs = s.objs := rfl
@[simp] theorem State.respond_pushWait (s : State) (c : RspCode) (v : BitVec 32) :
    (s.respond c v).pushWait = s.pushWait := rfl
@[simp] theorem State.respond_cmdQ (s : State) (c : RspCode) (v : BitVec 32) : (s.respond c v).cmdQ = s.cmdQ := rfl
@[simp] theorem State.respond_rspQ (s : State) (c : RspCode) (v : BitVec 32) :
    (s.respond c v).rspQ = s.rspQ ++ [rspWord c v] := rfl
@[simp] theorem State.respond_inQ (s : State) (c : RspCode) (v : BitVec 32) : (s.respond c v).inQ = s.inQ := rfl
@[simp] theorem State.respond_outQ (s : State) (c : RspCode) (v : BitVec 32) : (s.respond c v).outQ = s.outQ := rfl

@[simp] theorem State.inDrop_build (s : State) (n : ℕ) : (s.inDrop n).build = s.build := rfl
@[simp] theorem State.inDrop_mode (s : State) (n : ℕ) : (s.inDrop n).mode = s.mode := rfl
@[simp] theorem State.inDrop_cmderr (s : State) (n : ℕ) : (s.inDrop n).cmderr = s.cmderr := rfl
@[simp] theorem State.inDrop_cfg (s : State) (n : ℕ) : (s.inDrop n).cfg = s.cfg := rfl
@[simp] theorem State.inDrop_errcode (s : State) (n : ℕ) : (s.inDrop n).errcode = s.errcode := rfl
@[simp] theorem State.inDrop_rsdelay (s : State) (n : ℕ) : (s.inDrop n).rsdelay = s.rsdelay := rfl
@[simp] theorem State.inDrop_objs (s : State) (n : ℕ) : (s.inDrop n).objs = s.objs := rfl
@[simp] theorem State.inDrop_pushWait (s : State) (n : ℕ) : (s.inDrop n).pushWait = s.pushWait := rfl
@[simp] theorem State.inDrop_cmdQ (s : State) (n : ℕ) : (s.inDrop n).cmdQ = s.cmdQ := rfl
@[simp] theorem State.inDrop_rspQ (s : State) (n : ℕ) : (s.inDrop n).rspQ = s.rspQ := rfl
@[simp] theorem State.inDrop_inQ (s : State) (n : ℕ) : (s.inDrop n).inQ = s.inQ.drop n := rfl
@[simp] theorem State.inDrop_outQ (s : State) (n : ℕ) : (s.inDrop n).outQ = s.outQ := rfl

@[simp] theorem State.outWrite_build (s : State) (bs : List OutByte) : (s.outWrite bs).build = s.build := rfl
@[simp] theorem State.outWrite_mode (s : State) (bs : List OutByte) : (s.outWrite bs).mode = s.mode := rfl
@[simp] theorem State.outWrite_cmderr (s : State) (bs : List OutByte) : (s.outWrite bs).cmderr = s.cmderr := rfl
@[simp] theorem State.outWrite_cfg (s : State) (bs : List OutByte) : (s.outWrite bs).cfg = s.cfg := rfl
@[simp] theorem State.outWrite_errcode (s : State) (bs : List OutByte) : (s.outWrite bs).errcode = s.errcode := rfl
@[simp] theorem State.outWrite_rsdelay (s : State) (bs : List OutByte) : (s.outWrite bs).rsdelay = s.rsdelay := rfl
@[simp] theorem State.outWrite_objs (s : State) (bs : List OutByte) : (s.outWrite bs).objs = s.objs := rfl
@[simp] theorem State.outWrite_pushWait (s : State) (bs : List OutByte) : (s.outWrite bs).pushWait = s.pushWait := rfl
@[simp] theorem State.outWrite_cmdQ (s : State) (bs : List OutByte) : (s.outWrite bs).cmdQ = s.cmdQ := rfl
@[simp] theorem State.outWrite_rspQ (s : State) (bs : List OutByte) : (s.outWrite bs).rspQ = s.rspQ := rfl
@[simp] theorem State.outWrite_inQ (s : State) (bs : List OutByte) : (s.outWrite bs).inQ = s.inQ := rfl
@[simp] theorem State.outWrite_outQ (s : State) (bs : List OutByte) : (s.outWrite bs).outQ = s.outQ ++ bs := rfl

@[simp] theorem State.setMode_build (s : State) (m : Mode) : (s.setMode m).build = s.build := rfl
@[simp] theorem State.setMode_mode (s : State) (m : Mode) : (s.setMode m).mode = m := rfl
@[simp] theorem State.setMode_cmderr (s : State) (m : Mode) : (s.setMode m).cmderr = s.cmderr := rfl
@[simp] theorem State.setMode_cfg (s : State) (m : Mode) : (s.setMode m).cfg = s.cfg := rfl
@[simp] theorem State.setMode_errcode (s : State) (m : Mode) : (s.setMode m).errcode = s.errcode := rfl
@[simp] theorem State.setMode_rsdelay (s : State) (m : Mode) : (s.setMode m).rsdelay = s.rsdelay := rfl
@[simp] theorem State.setMode_objs (s : State) (m : Mode) : (s.setMode m).objs = s.objs := rfl
@[simp] theorem State.setMode_pushWait (s : State) (m : Mode) : (s.setMode m).pushWait = s.pushWait := rfl
@[simp] theorem State.setMode_cmdQ (s : State) (m : Mode) : (s.setMode m).cmdQ = s.cmdQ := rfl
@[simp] theorem State.setMode_rspQ (s : State) (m : Mode) : (s.setMode m).rspQ = s.rspQ := rfl
@[simp] theorem State.setMode_inQ (s : State) (m : Mode) : (s.setMode m).inQ = s.inQ := rfl
@[simp] theorem State.setMode_outQ (s : State) (m : Mode) : (s.setMode m).outQ = s.outQ := rfl

@[simp] theorem State.setObjs_build (s : State) (o : Option Objects) : (s.setObjs o).build = s.build := rfl
@[simp] theorem State.setObjs_mode (s : State) (o : Option Objects) : (s.setObjs o).mode = s.mode := rfl
@[simp] theorem State.setObjs_cmderr (s : State) (o : Option Objects) : (s.setObjs o).cmderr = s.cmderr := rfl
@[simp] theorem State.setObjs_cfg (s : State) (o : Option Objects) : (s.setObjs o).cfg = s.cfg := rfl
@[simp] theorem State.setObjs_errcode (s : State) (o : Option Objects) : (s.setObjs o).errcode = s.errcode := rfl
@[simp] theorem State.setObjs_rsdelay (s : State) (o : Option Objects) : (s.setObjs o).rsdelay = s.rsdelay := rfl
@[simp] theorem State.setObjs_objs (s : State) (o : Option Objects) : (s.setObjs o).objs = o := rfl
@[simp] theorem State.setObjs_pushWait (s : State) (o : Option Objects) : (s.setObjs o).pushWait = s.pushWait := rfl
@[simp] theorem State.setObjs_cmdQ (s : State) (o : Option Objects) : (s.setObjs o).cmdQ = s.cmdQ := rfl
@[simp] theorem State.setObjs_rspQ (s : State) (o : Option Objects) : (s.setObjs o).rspQ = s.rspQ := rfl
@[simp] theorem State.setObjs_inQ (s : State) (o : Option Objects) : (s.setObjs o).inQ = s.inQ := rfl
@[simp] theorem State.setObjs_outQ (s : State) (o : Option Objects) : (s.setObjs o).outQ = s.outQ := rfl

@[simp] theorem State.holdPush_build (s : State) (len : BitVec 32) : (s.holdPush len).build = s.build := rfl
@[simp] theorem State.holdPush_mode (s : State) (len : BitVec 32) : (s.holdPush len).mode = s.mode := rfl
@[simp] theorem State.holdPush_cmderr (s : State) (len : BitVec 32) : (s.holdPush len).cmderr = s.cmderr := rfl
@[simp] theorem State.holdPush_cfg (s : State) (len : BitVec 32) : (s.holdPush len).cfg = s.cfg := rfl
@[simp] theorem State.holdPush_errcode (s : State) (len : BitVec 32) : (s.holdPush len).errcode = s.errcode := rfl
@[simp] theorem State.holdPush_rsdelay (s : State) (len : BitVec 32) : (s.holdPush len).rsdelay = s.rsdelay := rfl
@[simp] theorem State.holdPush_objs (s : State) (len : BitVec 32) : (s.holdPush len).objs = s.objs := rfl
@[simp] theorem State.holdPush_pushWait (s : State) (len : BitVec 32) : (s.holdPush len).pushWait = some len := rfl
@[simp] theorem State.holdPush_cmdQ (s : State) (len : BitVec 32) : (s.holdPush len).cmdQ = s.cmdQ := rfl
@[simp] theorem State.holdPush_rspQ (s : State) (len : BitVec 32) : (s.holdPush len).rspQ = s.rspQ := rfl
@[simp] theorem State.holdPush_inQ (s : State) (len : BitVec 32) : (s.holdPush len).inQ = s.inQ := rfl
@[simp] theorem State.holdPush_outQ (s : State) (len : BitVec 32) : (s.holdPush len).outQ = s.outQ := rfl

@[simp] theorem State.writeReg_build (s : State) (r : Reg) (v : RegWord) : (s.writeReg r v).build = s.build := rfl
@[simp] theorem State.writeReg_mode (s : State) (r : Reg) (v : RegWord) : (s.writeReg r v).mode = s.mode := rfl
@[simp] theorem State.writeReg_cmderr (s : State) (r : Reg) (v : RegWord) : (s.writeReg r v).cmderr = s.cmderr := rfl
@[simp] theorem State.writeReg_cfg (s : State) (r : Reg) (v : RegWord) : (s.writeReg r v).cfg = s.cfg.write r v := rfl
@[simp] theorem State.writeReg_errcode (s : State) (r : Reg) (v : RegWord) :
    (s.writeReg r v).errcode = s.errcode := rfl
@[simp] theorem State.writeReg_rsdelay (s : State) (r : Reg) (v : RegWord) :
    (s.writeReg r v).rsdelay = s.rsdelay := rfl
@[simp] theorem State.writeReg_objs (s : State) (r : Reg) (v : RegWord) : (s.writeReg r v).objs = s.objs := rfl
@[simp] theorem State.writeReg_pushWait (s : State) (r : Reg) (v : RegWord) :
    (s.writeReg r v).pushWait = s.pushWait := rfl
@[simp] theorem State.writeReg_cmdQ (s : State) (r : Reg) (v : RegWord) : (s.writeReg r v).cmdQ = s.cmdQ := rfl
@[simp] theorem State.writeReg_rspQ (s : State) (r : Reg) (v : RegWord) : (s.writeReg r v).rspQ = s.rspQ := rfl
@[simp] theorem State.writeReg_inQ (s : State) (r : Reg) (v : RegWord) : (s.writeReg r v).inQ = s.inQ := rfl
@[simp] theorem State.writeReg_outQ (s : State) (r : Reg) (v : RegWord) : (s.writeReg r v).outQ = s.outQ := rfl

@[simp] theorem State.raiseCfgError_build (s : State) (e : CfgError) : (s.raiseCfgError e).build = s.build := rfl
@[simp] theorem State.raiseCfgError_mode (s : State) (e : CfgError) : (s.raiseCfgError e).mode = .err := rfl
@[simp] theorem State.raiseCfgError_cmderr (s : State) (e : CfgError) : (s.raiseCfgError e).cmderr = s.cmderr := rfl
@[simp] theorem State.raiseCfgError_cfg (s : State) (e : CfgError) : (s.raiseCfgError e).cfg = s.cfg := rfl
@[simp] theorem State.raiseCfgError_errcode (s : State) (e : CfgError) :
    (s.raiseCfgError e).errcode = cfgErrorCode e := rfl
@[simp] theorem State.raiseCfgError_rsdelay (s : State) (e : CfgError) : (s.raiseCfgError e).rsdelay = s.rsdelay := rfl
@[simp] theorem State.raiseCfgError_objs (s : State) (e : CfgError) : (s.raiseCfgError e).objs = s.objs := rfl
@[simp] theorem State.raiseCfgError_pushWait (s : State) (e : CfgError) :
    (s.raiseCfgError e).pushWait = s.pushWait := rfl
@[simp] theorem State.raiseCfgError_cmdQ (s : State) (e : CfgError) : (s.raiseCfgError e).cmdQ = s.cmdQ := rfl
@[simp] theorem State.raiseCfgError_rspQ (s : State) (e : CfgError) :
    (s.raiseCfgError e).rspQ = s.rspQ ++ [rspWord .cfgerr (cfgErrorCode e)] := rfl
@[simp] theorem State.raiseCfgError_inQ (s : State) (e : CfgError) : (s.raiseCfgError e).inQ = s.inQ := rfl
@[simp] theorem State.raiseCfgError_outQ (s : State) (e : CfgError) : (s.raiseCfgError e).outQ = s.outQ := rfl

@[simp] theorem State.illegalCommand_build (s : State) : s.illegalCommand.build = s.build := rfl
@[simp] theorem State.illegalCommand_mode (s : State) : s.illegalCommand.mode = s.mode := rfl
@[simp] theorem State.illegalCommand_cmderr (s : State) : s.illegalCommand.cmderr = true := rfl
@[simp] theorem State.illegalCommand_cfg (s : State) : s.illegalCommand.cfg = s.cfg := rfl
@[simp] theorem State.illegalCommand_errcode (s : State) : s.illegalCommand.errcode = s.errcode := rfl
@[simp] theorem State.illegalCommand_rsdelay (s : State) : s.illegalCommand.rsdelay = s.rsdelay := rfl
@[simp] theorem State.illegalCommand_objs (s : State) : s.illegalCommand.objs = s.objs := rfl
@[simp] theorem State.illegalCommand_pushWait (s : State) : s.illegalCommand.pushWait = s.pushWait := rfl
@[simp] theorem State.illegalCommand_cmdQ (s : State) : s.illegalCommand.cmdQ = s.cmdQ := rfl
@[simp] theorem State.illegalCommand_rspQ (s : State) : s.illegalCommand.rspQ = s.rspQ ++ [rspWord .illegal 0] := rfl
@[simp] theorem State.illegalCommand_inQ (s : State) : s.illegalCommand.inQ = s.inQ := rfl
@[simp] theorem State.illegalCommand_outQ (s : State) : s.illegalCommand.outQ = s.outQ := rfl

@[simp] theorem State.badMode_build (s : State) : s.badMode.build = s.build := rfl
@[simp] theorem State.badMode_mode (s : State) : s.badMode.mode = s.mode := rfl
@[simp] theorem State.badMode_cmderr (s : State) : s.badMode.cmderr = true := rfl
@[simp] theorem State.badMode_cfg (s : State) : s.badMode.cfg = s.cfg := rfl
@[simp] theorem State.badMode_errcode (s : State) : s.badMode.errcode = s.errcode := rfl
@[simp] theorem State.badMode_rsdelay (s : State) : s.badMode.rsdelay = s.rsdelay := rfl
@[simp] theorem State.badMode_objs (s : State) : s.badMode.objs = s.objs := rfl
@[simp] theorem State.badMode_pushWait (s : State) : s.badMode.pushWait = s.pushWait := rfl
@[simp] theorem State.badMode_cmdQ (s : State) : s.badMode.cmdQ = s.cmdQ := rfl
@[simp] theorem State.badMode_rspQ (s : State) : s.badMode.rspQ = s.rspQ ++ [rspWord .badmode 0] := rfl
@[simp] theorem State.badMode_inQ (s : State) : s.badMode.inQ = s.inQ := rfl
@[simp] theorem State.badMode_outQ (s : State) : s.badMode.outQ = s.outQ := rfl

@[simp] theorem State.resetCore_build (s : State) : s.resetCore.build = s.build := rfl
@[simp] theorem State.resetCore_mode (s : State) : s.resetCore.mode = .idle := rfl
@[simp] theorem State.resetCore_cmderr (s : State) : s.resetCore.cmderr = false := rfl
@[simp] theorem State.resetCore_cfg (s : State) : s.resetCore.cfg = Cfg.reset := rfl
@[simp] theorem State.resetCore_errcode (s : State) : s.resetCore.errcode = 0 := rfl
@[simp] theorem State.resetCore_rsdelay (s : State) : s.resetCore.rsdelay = 0 := rfl
@[simp] theorem State.resetCore_objs (s : State) : s.resetCore.objs = none := rfl
@[simp] theorem State.resetCore_pushWait (s : State) : s.resetCore.pushWait = none := rfl
@[simp] theorem State.resetCore_cmdQ (s : State) : s.resetCore.cmdQ = s.cmdQ := rfl
@[simp] theorem State.resetCore_rspQ (s : State) : s.resetCore.rspQ = s.rspQ := rfl
@[simp] theorem State.resetCore_inQ (s : State) : s.resetCore.inQ = s.inQ := rfl
@[simp] theorem State.resetCore_outQ (s : State) : s.resetCore.outQ = s.outQ := rfl

@[simp] theorem State.startRun_build (s : State) : s.startRun.build = s.build := rfl
@[simp] theorem State.startRun_mode (s : State) : s.startRun.mode = .run := rfl
@[simp] theorem State.startRun_cmderr (s : State) : s.startRun.cmderr = s.cmderr := rfl
@[simp] theorem State.startRun_cfg (s : State) : s.startRun.cfg = s.cfg := rfl
@[simp] theorem State.startRun_errcode (s : State) : s.startRun.errcode = 0 := rfl
@[simp] theorem State.startRun_rsdelay (s : State) :
    s.startRun.rsdelay = delayReg (numericsOf s.build) (createObjects s.build s.cfg).rs.delay := rfl
@[simp] theorem State.startRun_objs (s : State) : s.startRun.objs = some (createObjects s.build s.cfg) := rfl
@[simp] theorem State.startRun_pushWait (s : State) : s.startRun.pushWait = s.pushWait := rfl
@[simp] theorem State.startRun_cmdQ (s : State) : s.startRun.cmdQ = s.cmdQ := rfl
@[simp] theorem State.startRun_rspQ (s : State) : s.startRun.rspQ = s.rspQ ++ [rspWord .ok 0] := rfl
@[simp] theorem State.startRun_inQ (s : State) : s.startRun.inQ = s.inQ := rfl
@[simp] theorem State.startRun_outQ (s : State) : s.startRun.outQ = s.outQ := rfl

@[simp] theorem State.pushRun_build (s : State) (len : BitVec 32) (o : Objects) :
    (s.pushRun len o).build = s.build := rfl
@[simp] theorem State.pushRun_mode (s : State) (len : BitVec 32) (o : Objects) : (s.pushRun len o).mode = s.mode := rfl
@[simp] theorem State.pushRun_cmderr (s : State) (len : BitVec 32) (o : Objects) :
    (s.pushRun len o).cmderr = s.cmderr := rfl
@[simp] theorem State.pushRun_cfg (s : State) (len : BitVec 32) (o : Objects) : (s.pushRun len o).cfg = s.cfg := rfl
@[simp] theorem State.pushRun_errcode (s : State) (len : BitVec 32) (o : Objects) :
    (s.pushRun len o).errcode = s.errcode := rfl
@[simp] theorem State.pushRun_rsdelay (s : State) (len : BitVec 32) (o : Objects) :
    (s.pushRun len o).rsdelay = s.rsdelay := rfl
@[simp] theorem State.pushRun_objs (s : State) (len : BitVec 32) (o : Objects) :
    (s.pushRun len o).objs = some (chunkLoop s.build o (iqWords (s.inQ.take len.toNat))).1 := rfl
@[simp] theorem State.pushRun_pushWait (s : State) (len : BitVec 32) (o : Objects) :
    (s.pushRun len o).pushWait = s.pushWait := rfl
@[simp] theorem State.pushRun_cmdQ (s : State) (len : BitVec 32) (o : Objects) : (s.pushRun len o).cmdQ = s.cmdQ := rfl
@[simp] theorem State.pushRun_rspQ (s : State) (len : BitVec 32) (o : Objects) :
    (s.pushRun len o).rspQ = s.rspQ ++ [rspWord .ok (BitVec.ofNat 32 (chunkLoop s.build o (iqWords (s.inQ.take len.toNat))).2.length)] := rfl
@[simp] theorem State.pushRun_inQ (s : State) (len : BitVec 32) (o : Objects) :
    (s.pushRun len o).inQ = s.inQ.drop len.toNat := rfl
@[simp] theorem State.pushRun_outQ (s : State) (len : BitVec 32) (o : Objects) :
    (s.pushRun len o).outQ = s.outQ ++ pcmStream (chunkLoop s.build o (iqWords (s.inQ.take len.toNat))).2 := rfl

end Sys2Proof.Machine
end

