-- ==== Sys2Proof/Laws/Ops.lean ====
section
/-! SUPPORT. What each shared operation and each meaning can do, said once: response words, register numbers, the mode
guard, and the cases of every meaning, of fetching and of a step. -/

namespace Sys2Proof.Machine

@[simp] theorem rspWord_illegal_zero : rspWord .illegal 0#32 = 0x0100000000000000#64 := by decide
@[simp] theorem rspWord_badmode_zero : rspWord .badmode 0#32 = 0x0200000000000000#64 := by decide
@[simp] theorem rspWord_ok_zero : rspWord .ok 0#32 = 0#64 := by decide

/-- An `OK` response is its value, zero-extended. -/
theorem rspWord_ok (v : BitVec 32) : rspWord .ok v = v.setWidth 64 := by
  unfold rspWord rspCodeNum
  ext i hi
  simp only [BitVec.getElem_append, BitVec.getElem_setWidth]
  interval_cases i <;> simp

/-- Which numbers are assigned (10_state.md R15, R16). -/
theorem regOfNum_eq_none_iff (n : RegNum) :
    regOfNum n = none ↔ n.toNat ∉ [0, 1, 2, 3, 4, 5, 6, 0x10, 0x11, 0x12] := by
  revert n; decide

/-- Which numbers `CFGWR` may name (10_state.md R15). -/
theorem regWritable_iff {n : RegNum} {r : Reg} (h : regOfNum n = some r) : regWritable r = true ↔ n.toNat ≤ 6 := by
  revert n r; decide

/-- The cases of the mode guard. -/
theorem guardMode_next {i : Instr} {s t : State} {e : Host.Outcome State Fault Refusal}
    (h : guardMode i s e = .next t) : allowedIn i s.mode = true ∧ e = .next t ∨ allowedIn i s.mode = false ∧ t = s.badMode := by
  unfold guardMode at h
  split at h
  · exact .inl ⟨‹_›, h⟩
  · rename_i hn
    exact .inr ⟨by simpa using hn, by injection h with h; exact h.symm⟩

theorem guardMode_of_allowed {i : Instr} {s : State} {e : Host.Outcome State Fault Refusal}
    (h : allowedIn i s.mode = true) : guardMode i s e = e := by simp [guardMode, h]

theorem guardMode_of_not_allowed {i : Instr} {s : State} {e : Host.Outcome State Fault Refusal}
    (h : allowedIn i s.mode = false) : guardMode i s e = .next s.badMode := by simp [guardMode, h]

/-- `RESET` has one outcome. -/
theorem execReset_eq (s : State) : execReset s = .next (s.resetCore.respond .ok 0) := rfl

/-- Everything `CFGWR` can do. -/
theorem execCfgwr_cases (reg : RegNum) (imm : RegWord) (s : State) :
    execCfgwr reg imm s = .next s.illegalCommand ∨
    s.mode ≠ .idle ∧ execCfgwr reg imm s = .next s.badMode ∨
    ∃ r, regOfNum reg = some r ∧ regWritable r = true ∧ s.mode = .idle ∧
      execCfgwr reg imm s = .next ((s.writeReg r imm).respond .ok 0) := by
  unfold execCfgwr
  split
  · exact .inl rfl
  · rename_i r hr
    split
    · rename_i hw
      by_cases hm : s.mode = .idle
      · exact .inr (.inr ⟨r, hr, hw, hm, by simp [guardMode, allowedIn, hm]⟩)
      · exact .inr (.inl ⟨hm, by simp [guardMode, allowedIn, hm]⟩)
    · exact .inl rfl

/-- Everything `CFGRD` can do. -/
theorem execCfgrd_cases (reg : RegNum) (s : State) :
    regOfNum reg = none ∧ execCfgrd reg s = .next s.illegalCommand ∨
    ∃ r, regOfNum reg = some r ∧ execCfgrd reg s = .next (s.respond .ok (s.readReg r)) := by
  unfold execCfgrd
  split
  · exact .inl ⟨‹_›, rfl⟩
  · exact .inr ⟨_, ‹_›, rfl⟩

/-- Everything `START` can do. -/
theorem execStart_cases (s : State) :
    s.mode ≠ .idle ∧ execStart s = .next s.badMode ∨
    (∃ e, s.mode = .idle ∧ validate s.build s.cfg = some e ∧ execStart s = .next (s.raiseCfgError e)) ∨
    s.mode = .idle ∧ validate s.build s.cfg = none ∧ execStart s = .next s.startRun := by
  unfold execStart
  by_cases hm : s.mode = .idle
  · rw [guardMode_of_allowed (by simp [allowedIn, hm])]
    cases hv : validate s.build s.cfg with
    | some e => exact .inr (.inl ⟨e, hm, rfl, rfl⟩)
    | none => exact .inr (.inr ⟨hm, rfl, rfl⟩)
  · exact .inl ⟨hm, guardMode_of_not_allowed (by simp [allowedIn, hm])⟩

/-- Everything `PUSH` can do. -/
theorem execPush_cases (len : BitVec 32) (s : State) :
    s.mode ≠ .run ∧ execPush len s = .next s.badMode ∨
    s.mode = .run ∧ s.inQ.length < len.toNat ∧ execPush len s = .next (s.holdPush len) ∨
    (∃ o, s.mode = .run ∧ len.toNat ≤ s.inQ.length ∧ s.objs = some o ∧ execPush len s = .next (s.pushRun len o)) ∨
    s.mode = .run ∧ len.toNat ≤ s.inQ.length ∧ s.objs = none ∧ execPush len s = .fault .noValue := by
  unfold execPush
  by_cases hm : s.mode = .run
  · rw [guardMode_of_allowed (by simp [allowedIn, hm])]
    by_cases hl : len.toNat ≤ s.inQ.length
    · rw [if_pos (by simp [State.inReady, zext32, hl])]
      cases ho : s.objs with
      | some o => exact .inr (.inr (.inl ⟨o, hm, hl, rfl, rfl⟩))
      | none => exact .inr (.inr (.inr ⟨hm, hl, rfl, rfl⟩))
    · rw [if_neg (by simp [State.inReady, zext32, hl])]
      exact .inr (.inl ⟨hm, by omega, rfl⟩)
  · exact .inl ⟨hm, guardMode_of_not_allowed (by simp [allowedIn, hm])⟩

/-- What a `PUSH` does in a running machine whose bytes are there. -/
theorem execPush_ready {len : BitVec 32} {s : State} {o : Objects} (hm : s.mode = .run)
    (hl : len.toNat ≤ s.inQ.length) (ho : s.objs = some o) : execPush len s = .next (s.pushRun len o) := by
  rcases execPush_cases len s with ⟨h, _⟩ | ⟨_, h, _⟩ | ⟨p, _, _, hp, h⟩ | ⟨_, _, h, _⟩
  · exact absurd hm h
  · omega
  · cases ho.symm.trans hp; exact h
  · rw [ho] at h; cases h

/-- Everything `EOS` can do. -/
theorem execEos_cases (s : State) :
    s.mode ≠ .run ∧ execEos s = .next s.badMode ∨
    s.mode = .run ∧
      execEos s = .next ((({ s with rsdelay := 0 }).setObjs none).setMode .done |>.respond .ok 0) := by
  unfold execEos
  by_cases hm : s.mode = .run
  · exact .inr ⟨hm, guardMode_of_allowed (by simp [allowedIn, hm])⟩
  · exact .inl ⟨hm, guardMode_of_not_allowed (by simp [allowedIn, hm])⟩

/-- Everything `IQDEC` can do. -/
theorem execIqdec_cases (i q : BitVec 16) (s : State) :
    s.objs = none ∧ execIqdec i q s = .fault .noValue ∨
    ∃ o, s.objs = some o ∧
      execIqdec i q s = .next ((s.setObjs (some (sampleStep s.build o i q).1)).outWrite
        (pcmStream (sampleStep s.build o i q).2)) := by
  unfold execIqdec
  cases ho : s.objs with
  | none => exact .inl ⟨rfl, rfl⟩
  | some o => exact .inr ⟨o, rfl, rfl⟩

/-- The `cmd` port never holds an input sample. -/
theorem decodeCmd_ne_iqdec (w : CmdWord) (i q : BitVec 16) : decodeCmd w ≠ .ok (.iqdec i q) := by
  intro h
  have h := (decodeCmd_ok h).2
  unfold decodeFields at h
  split at h <;> first
    | exact absurd (decodePlain_ok.mp h).2.2 (by simp)
    | (repeat' split at h) <;> simp at h

/-- Where the core finds its work. -/
theorem fetch_cases (s : State) :
    (s.pushWait = none ∧ s.cmdQ = [] ∧ fetch s = .idle) ∨
    (∃ len, s.pushWait = some len ∧ fetch s = .run (.push len) { s with pushWait := none }) ∨
    (∃ w rest e, s.pushWait = none ∧ s.cmdQ = w :: rest ∧ decodeCmd w = .error e ∧
      fetch s = .illegal e { s with cmdQ := rest }) ∨
    (∃ w rest i, s.pushWait = none ∧ s.cmdQ = w :: rest ∧ decodeCmd w = .ok i ∧
      fetch s = .run i { s with cmdQ := rest }) := by
  unfold fetch
  cases hp : s.pushWait with
  | some len => exact .inr (.inl ⟨len, rfl, rfl⟩)
  | none =>
    cases hq : s.cmdQ with
    | nil => exact .inl ⟨rfl, rfl, rfl⟩
    | cons w rest =>
      cases hd : decodeCmd w with
      | error e => exact .inr (.inr (.inl ⟨w, rest, e, rfl, rfl, hd, by simp [hd]⟩))
      | ok i => exact .inr (.inr (.inr ⟨w, rest, i, rfl, rfl, hd, by simp [hd]⟩))

/-- Everything a step can do. -/
theorem step_cases (s : State) :
    (s.pushWait = none ∧ s.cmdQ = [] ∧ step s = .next s) ∨
    (∃ len, s.pushWait = some len ∧ step s = exec (.push len) { s with pushWait := none }) ∨
    (∃ w rest e, s.pushWait = none ∧ s.cmdQ = w :: rest ∧ decodeCmd w = .error e ∧
      step s = .next ({ s with cmdQ := rest } : State).illegalCommand) ∨
    (∃ w rest i, s.pushWait = none ∧ s.cmdQ = w :: rest ∧ decodeCmd w = .ok i ∧
      step s = exec i { s with cmdQ := rest }) := by
  rcases fetch_cases s with ⟨h, h', hf⟩ | ⟨len, h, hf⟩ | ⟨w, rest, e, h, h', h'', hf⟩ | ⟨w, rest, i, h, h', h'', hf⟩
  · exact .inl ⟨h, h', by simp [step, hf]⟩
  · exact .inr (.inl ⟨len, h, by simp [step, hf]⟩)
  · exact .inr (.inr (.inl ⟨w, rest, e, h, h', h'', by simp [step, hf]⟩))
  · exact .inr (.inr (.inr ⟨w, rest, i, h, h', h'', by simp [step, hf]⟩))

end Sys2Proof.Machine
end

