-- ==== Sys2Proof/Laws/PerInstr.lean ====
section
/-! SUPPORT. One statement per instruction: a well-formed instruction's word matches its own row of the opcode table
(30_encoding.md R48), the `mask` bits equal to the `match` value. -/

namespace Sys2Proof.Laws.RowMatch

open Sys2Proof

/-- The `match` value of an instruction's row. -/
def rowMatch : Instr → CmdWord
  | .reset => 0x0100000000000000
  | .cfgwr _ _ => 0x0200000000000000
  | .cfgrd _ => 0x0300000000000000
  | .start => 0x0400000000000000
  | .push _ => 0x0500000000000000
  | .eos => 0x0600000000000000
  | .iqdec _ _ => 0x00000000

/-- The `mask` value of an instruction's row. -/
def rowMask : Instr → CmdWord
  | .reset => 0xFFFFFFFFFFFFFFFF
  | .cfgwr _ _ => 0xFF00FFFF00000000
  | .cfgrd _ => 0xFF00FFFFFFFFFFFF
  | .start => 0xFFFFFFFFFFFFFFFF
  | .push _ => 0xFFFFFFFF00000000
  | .eos => 0xFFFFFFFFFFFFFFFF
  | .iqdec _ _ => 0x00000000

/-- The word of an instruction as a number of 64 bits, a sample word zero-extended. -/
def wordOf (i : Instr) : CmdWord :=
  match encode i with
  | .cmd w => w
  | .iq w => w.setWidth 64

/-- The encoded word matches the row. -/
def Statement (i : Instr) : Prop := wordOf i &&& rowMask i = rowMatch i

theorem reset : Statement .reset := by unfold Statement; decide
theorem start : Statement .start := by unfold Statement; decide
theorem eos : Statement .eos := by unfold Statement; decide
theorem cfgwr (reg : RegNum) (imm : RegWord) : Statement (.cfgwr reg imm) := by
  unfold Statement wordOf encode rowMask rowMatch cmdWord
  ext k hk
  simp only [BitVec.getElem_and, BitVec.getElem_append]
  interval_cases k <;> simp
theorem cfgrd (reg : RegNum) : Statement (.cfgrd reg) := by
  unfold Statement wordOf encode rowMask rowMatch cmdWord
  ext k hk
  simp only [BitVec.getElem_and, BitVec.getElem_append]
  interval_cases k <;> simp
theorem push (len : BitVec 32) : Statement (.push len) := by
  unfold Statement wordOf encode rowMask rowMatch cmdWord
  ext k hk
  simp only [BitVec.getElem_and, BitVec.getElem_append]
  interval_cases k <;> simp
theorem iqdec (i q : BitVec 16) : Statement (.iqdec i q) := by
  unfold Statement rowMask rowMatch
  simp

end Sys2Proof.Laws.RowMatch
end

