-- ==== Sys2Proof/Laws/Quantizer.lean ====
section
/-! SUPPORT. The clamp and the rounding over any ordered field, and what the quantizer writes: the exact word of every
number. -/

namespace Sys2Proof.Machine

section Rounding

variable {K : Type*} [Field K] [LinearOrder K] [FloorRing K]

/-- The two integers that rounding can answer. -/
theorem roundNearest_cases (t : QTie) (r : K) :
    roundNearest t r = ⌊r⌋ ∧ r ≤ ⌊r⌋ + 1 / 2 ∨ roundNearest t r = ⌊r⌋ + 1 ∧ (⌊r⌋ : K) + 1 / 2 ≤ r := by
  unfold roundNearest
  simp only
  split_ifs with h1 h2 h3
  · exact .inl ⟨rfl, h1.le⟩
  · exact .inr ⟨rfl, h2.le⟩
  · exact .inr ⟨rfl, not_lt.mp h1⟩
  · exact .inl ⟨rfl, not_lt.mp h2⟩

/-- The integer lies in the symmetric range (44_quantizer.md R96). -/
theorem quantInt_mem (t : QTie) (r : K) : -32767 ≤ quantInt t r ∧ quantInt t r ≤ 32767 := by
  unfold quantInt
  omega

/-- Rounding is monotone under every tie rule. -/
theorem roundNearest_mono (t : QTie) {r s : K} (h : r ≤ s) : roundNearest t r ≤ roundNearest t s := by
  have hf := Int.floor_mono h
  have h1 := roundNearest_cases t r
  have h2 := roundNearest_cases t s
  rcases eq_or_lt_of_le hf with e | hlt
  · rcases h1 with ⟨e1, _⟩ | ⟨e1, b1⟩ <;> rcases h2 with ⟨e2, b2⟩ | ⟨e2, _⟩ <;> try omega
    rw [← e] at b2
    have : r = s := le_antisymm h (b2.trans b1)
    rw [this]
  · rcases h1 with ⟨e1, _⟩ | ⟨e1, _⟩ <;> rcases h2 with ⟨e2, _⟩ | ⟨e2, _⟩ <;> omega

theorem quantInt_mono (t : QTie) {r s : K} (h : r ≤ s) : quantInt t r ≤ quantInt t s :=
  max_le_max le_rfl (min_le_min le_rfl (roundNearest_mono t h))

variable [IsStrictOrderedRing K]

/-- Inside the range the bound on the integer changes nothing. -/
theorem quantInt_of_mem (t : QTie) {r : K} (h1 : -32767 ≤ r) (h2 : r ≤ 32767) : quantInt t r = roundNearest t r := by
  have f1 : -32767 ≤ ⌊r⌋ := Int.le_floor.mpr (by exact_mod_cast h1)
  have f2 : ⌊r⌋ ≤ 32767 := by
    have := (Int.floor_le r).trans h2
    exact_mod_cast this
  unfold quantInt
  rcases roundNearest_cases t r with ⟨e, _⟩ | ⟨e, b⟩
  · rw [e]; omega
  · have : ⌊r⌋ ≠ 32767 := fun e' => by
      rw [e'] at b
      have h3 : (32767 : K) + 1 / 2 ≤ 32767 := by exact_mod_cast b.trans h2
      have h4 : (0 : K) < 1 / 2 := by norm_num
      linarith
    rw [e]; omega

end Rounding

/-- Rounding a rational and rounding the real number it is are the same. -/
theorem roundNearest_cast (t : QTie) (q : ℚ) : roundNearest t (q : ℝ) = roundNearest t q := by
  have e : ((⌊q⌋ : ℤ) : ℝ) + 1 / 2 = ((⌊q⌋ + 1 / 2 : ℚ) : ℝ) := by push_cast; rfl
  simp only [roundNearest, Rat.floor_cast, e, Rat.cast_lt]

theorem quantInt_cast (t : QTie) (q : ℚ) : quantInt t (q : ℝ) = quantInt t q := by
  rw [quantInt, quantInt, roundNearest_cast]

/-- The word of a number to be rounded is that of the real number it names. -/
theorem roundedSample_val (t : QTie) (r : RealNum) : (roundedSample t r).val = enc16 (quantInt t r.val) := by
  unfold roundedSample
  split
  · rename_i i hi
    split_ifs with h
    · have hr := RealNum.enclose_has (b := boundBits) (by decide) r i hi
      have h1 := quantInt_mono t hr.1
      have h2 := quantInt_mono t hr.2
      rw [quantInt_cast] at h1 h2
      rw [OutSample.val, show quantInt t r.val = quantInt t i.lo by omega]
    · rfl
  · rfl

/-- A rational number is always written out. -/
theorem roundedSample_rat (t : QTie) (q : ℚ) : roundedSample t (.rat q) = .word (enc16 (quantInt t q)) := by
  simp [roundedSample, RealNum.enclose]

/-- The word `QUANT` writes in any format. -/
theorem quant_val (N : Numerics) (t : QTie) (x : RealNum) :
    (quant N t x).val = enc16 (quantInt t (scaledUnit N x).val) := roundedSample_val t _

theorem scaledUnit_exact_val (z x : RealNum) :
    (scaledUnit (exactNumerics z) x).val = clampUnit x.val * 32767 := by
  simp [scaledUnit, RealNum.val_clamped]

/-- The two bytes of an output sample are those of its word, low byte first. -/
theorem OutSample.bytes_val (v : OutSample) : v.bytes.map OutByte.val = pcmBytes v.val := by
  cases v <;> simp [OutSample.bytes, OutByte.val, OutSample.val, pcmBytes]

@[simp] theorem OutSample.bytes_length (v : OutSample) : v.bytes.length = 2 := by
  cases v <;> simp [OutSample.bytes, pcmBytes]

/-- The bytes on the port after an `OutWrite`. -/
@[simp] theorem State.outBytes_outWrite (s : State) (bs : List OutByte) :
    (s.outWrite bs).outBytes = s.outBytes ++ bs.map OutByte.val := by
  simp [State.outBytes, State.outWrite]

@[simp] theorem State.outBytes_respond (s : State) (c : RspCode) (v : BitVec 32) :
    (s.respond c v).outBytes = s.outBytes := rfl
@[simp] theorem State.outBytes_setObjs (s : State) (o : Option Objects) : (s.setObjs o).outBytes = s.outBytes := rfl
@[simp] theorem State.outBytes_inDrop (s : State) (n : ℕ) : (s.inDrop n).outBytes = s.outBytes := rfl

/-- The integer of a word `enc16` makes, inside the range of the quantizer. -/
theorem enc16_quantInt_toInt {K : Type*} [Field K] [LinearOrder K] [IsStrictOrderedRing K] [FloorRing K] (t : QTie) (r : K) :
    (enc16 (quantInt t r)).toInt = quantInt t r := by
  have h := quantInt_mem t r
  rw [enc16, BitVec.toInt_ofInt, Int.bmod_eq_of_le] <;> norm_num <;> omega

end Sys2Proof.Machine
end

