-- ==== Sys2Proof/Laws/Stages.lean ====
section
/-! SUPPORT. The stages over sequences: framing, the filter's and the resampler's buffers, the branch loop and its count,
and the cascade, each said once. -/

namespace Sys2Proof.Machine

/-! ## Stage 1 -/

theorem iqWords_short {bs : List Byte} (h : bs.length < 4) : iqWords bs = [] := by
  match bs, h with
  | [], _ => rfl
  | [_], _ => rfl
  | [_, _], _ => rfl
  | [_, _, _], _ => rfl

/-- Whole samples in front of a byte list come out in front. -/
theorem iqWords_append : ∀ (xs ys : List Byte), xs.length % 4 = 0 → iqWords (xs ++ ys) = iqWords xs ++ iqWords ys
  | [], _, _ => rfl
  | [_], _, h => by simp at h
  | [_, _], _, h => by simp at h
  | [_, _, _], _, h => by simp at h
  | a :: b :: c :: d :: rest, ys, h => by
    have := iqWords_append rest ys (by simp only [List.length_cons] at h; omega)
    simp [iqWords, this]

theorem iqWords_length : ∀ bs : List Byte, (iqWords bs).length = bs.length / 4
  | [] => rfl
  | [_] => by simp [iqWords]
  | [_, _] => by simp [iqWords]
  | [_, _, _] => by simp [iqWords]
  | a :: b :: c :: d :: rest => by
    simp only [iqWords, List.length_cons, iqWords_length rest]; omega

/-! ## A chunk -/

@[simp] theorem chunkLoopWith_nil (N : Numerics) (t : QTie) (o : Objects) : chunkLoopWith N t o [] = (o, []) := rfl

/-- A chunk in two parts. -/
theorem chunkLoopWith_append (N : Numerics) (t : QTie) (o : Objects) (xs ys : List IqWord) :
    chunkLoopWith N t o (xs ++ ys) =
      ((chunkLoopWith N t (chunkLoopWith N t o xs).1 ys).1,
        (chunkLoopWith N t o xs).2 ++ (chunkLoopWith N t (chunkLoopWith N t o xs).1 ys).2) := by
  induction xs generalizing o with
  | nil => rfl
  | cons x xs ih => simp [chunkLoopWith, ih]

theorem pcmStream_append (xs ys : List OutSample) : pcmStream (xs ++ ys) = pcmStream xs ++ pcmStream ys := by
  simp [pcmStream]

theorem pcmStream_length (vs : List OutSample) : (pcmStream vs).length = 2 * vs.length := by
  induction vs with
  | nil => rfl
  | cons v vs ih =>
    rw [show pcmStream (v :: vs) = v.bytes ++ pcmStream vs from rfl]
    simp [ih]; omega

/-- The bytes of a run of output samples, as they are read on the port: each word low byte first. -/
theorem pcmStream_val (vs : List OutSample) : (pcmStream vs).map OutByte.val = vs.flatMap fun v => pcmBytes v.val := by
  simp [pcmStream, List.map_flatMap, OutSample.bytes_val]

/-! ## Stage 2 -/

/-- `FIRSTEP` keeps the coefficient set, the length and the form of the buffers. -/
theorem firStep_spec (N : Numerics) (f : FirState) (x : Cplx) :
    (firStep N f x).1.len = f.len ∧ (firStep N f x).1.coef = f.coef ∧ (f.wf → (firStep N f x).1.wf) := by
  refine ⟨rfl, rfl, fun h => ?_⟩
  simp only [FirState.wf, firStep, firPush, headNext, List.length_set] at *
  exact ⟨h.1, h.2.1, h.2.2.1, Nat.mod_lt _ (by omega)⟩

theorem firRun_append (N : Numerics) (f : FirState) (xs ys : List Cplx) :
    firRun N f (xs ++ ys) = ((firRun N (firRun N f xs).1 ys).1, (firRun N f xs).2 ++ (firRun N (firRun N f xs).1 ys).2) := by
  induction xs generalizing f with
  | nil => rfl
  | cons x xs ih => simp [firRun, ih]

/-! ## Stage 3 -/

/-- The branch loop with enough fuel: it stops with the accumulator at `P` or above, having added `Q` for each branch. -/
theorem branchLoop_spec {P Q : ℕ} (hQ : 1 ≤ Q) : ∀ (fuel acc : ℕ), P ≤ acc + fuel →
    (branchLoop P Q fuel acc).2 = acc + (branchLoop P Q fuel acc).1.length * Q ∧
    P ≤ (branchLoop P Q fuel acc).2 ∧
    ((branchLoop P Q fuel acc).1 ≠ [] → (branchLoop P Q fuel acc).2 < P + Q) ∧
    ∀ φ ∈ (branchLoop P Q fuel acc).1, φ < P
  | 0, acc, h => by simp [branchLoop]; omega
  | fuel + 1, acc, h => by
    unfold branchLoop
    split
    · rename_i hlt
      have ih := branchLoop_spec (P := P) hQ fuel (acc + Q) (by omega)
      simp only [List.length_cons]
      refine ⟨by rw [ih.1]; ring, ih.2.1, fun _ => ?_, ?_⟩
      · by_cases he : (branchLoop P Q fuel (acc + Q)).1 = []
        · have := ih.1; simp [he] at this; omega
        · exact ih.2.2.1 he
      · intro φ hφ
        rcases List.mem_cons.mp hφ with rfl | hφ
        · exact hlt
        · exact ih.2.2.2 φ hφ
    · simp; omega

/-- `RSSTAGE`: what it keeps, its accumulator and its output count (42_resampler.md R76, R78). -/
theorem rsStage_spec (N : Numerics) (M : ℕ) (st : RsStage) (x : Cplx) :
    (rsStage N M st x).1.p = st.p ∧ (rsStage N M st x).1.q = st.q ∧ (rsStage N M st x).1.coef = st.coef ∧
    (1 ≤ st.q → (rsStage N M st x).1.acc + st.p = st.acc + (rsStage N M st x).2.length * st.q) ∧
    (1 ≤ st.q → st.acc < st.q → (rsStage N M st x).1.acc < st.q) := by
  refine ⟨rfl, rfl, rfl, fun hq => ?_, fun hq ha => ?_⟩
  · have h := branchLoop_spec hq st.p st.acc (by omega : st.p ≤ st.acc + st.p)
    simp only [rsStage, stagePush, List.length_map]
    omega
  · have h := branchLoop_spec hq st.p st.acc (by omega : st.p ≤ st.acc + st.p)
    simp only [rsStage, stagePush]
    by_cases he : (branchLoop st.p st.q st.p st.acc).1 = []
    · have := h.1; simp [he] at this; omega
    · have := h.2.2.1 he; omega

@[simp] theorem rsStage_p (N : Numerics) (M : ℕ) (st : RsStage) (x : Cplx) : (rsStage N M st x).1.p = st.p := rfl
@[simp] theorem rsStage_q (N : Numerics) (M : ℕ) (st : RsStage) (x : Cplx) : (rsStage N M st x).1.q = st.q := rfl
@[simp] theorem rsStage_coef (N : Numerics) (M : ℕ) (st : RsStage) (x : Cplx) :
    (rsStage N M st x).1.coef = st.coef := rfl
@[simp] theorem rsStage_hist_length (N : Numerics) (M : ℕ) (st : RsStage) (x : Cplx) :
    (rsStage N M st x).1.hist.length = st.hist.length := by simp [rsStage, stagePush]

theorem rsStage_head (N : Numerics) (M : ℕ) (st : RsStage) (x : Cplx) :
    (rsStage N M st x).1.head = headNext st.head M := rfl

theorem stageRun_append (N : Numerics) (M : ℕ) (st : RsStage) (xs ys : List Cplx) :
    stageRun N M st (xs ++ ys) =
      ((stageRun N M (stageRun N M st xs).1 ys).1,
        (stageRun N M st xs).2 ++ (stageRun N M (stageRun N M st xs).1 ys).2) := by
  induction xs generalizing st with
  | nil => rfl
  | cons x xs ih => simp [stageRun, ih]

/-- A cascade run in two parts. -/
theorem cascadeRun_append (N : Numerics) (M : ℕ) (sts : List RsStage) (xs ys : List Cplx) :
    cascadeRun N M sts (xs ++ ys) =
      ((cascadeRun N M (cascadeRun N M sts xs).1 ys).1,
        (cascadeRun N M sts xs).2 ++ (cascadeRun N M (cascadeRun N M sts xs).1 ys).2) := by
  induction sts generalizing xs ys with
  | nil => rfl
  | cons st rest ih => simp [cascadeRun, stageRun_append, ih]

@[simp] theorem cascadeRun_no_input (N : Numerics) (M : ℕ) (sts : List RsStage) : cascadeRun N M sts [] = (sts, []) := by
  induction sts with
  | nil => rfl
  | cons st rest ih => simp [cascadeRun, stageRun, ih]

@[simp] theorem cascadeRun_length (N : Numerics) (M : ℕ) (sts : List RsStage) (xs : List Cplx) :
    (cascadeRun N M sts xs).1.length = sts.length := by
  induction sts generalizing xs with
  | nil => rfl
  | cons st rest ih => simp [cascadeRun, ih]

/-- A stage over a sequence keeps its ratio and its bank. -/
theorem stageRun_keeps (N : Numerics) (M : ℕ) (st : RsStage) (xs : List Cplx) :
    (stageRun N M st xs).1.p = st.p ∧ (stageRun N M st xs).1.q = st.q ∧ (stageRun N M st xs).1.coef = st.coef := by
  induction xs generalizing st with
  | nil => exact ⟨rfl, rfl, rfl⟩
  | cons x xs ih => simpa [stageRun] using ih (rsStage N M st x).1

/-! ## Stage 4 -/

theorem fmDemAll_append (N : Numerics) (f : FmState) (xs ys : List Cplx) :
    fmDemAll N f (xs ++ ys) =
      ((fmDemAll N (fmDemAll N f xs).1 ys).1, (fmDemAll N f xs).2 ++ (fmDemAll N (fmDemAll N f xs).1 ys).2) := by
  induction xs generalizing f with
  | nil => rfl
  | cons x xs ih => simp [fmDemAll, ih]

@[simp] theorem fmDemAll_kf (N : Numerics) (f : FmState) (xs : List Cplx) : (fmDemAll N f xs).1.kf = f.kf := by
  induction xs generalizing f with
  | nil => rfl
  | cons x xs ih => simp [fmDemAll, ih, fmDem]

@[simp] theorem fmDemAll_length (N : Numerics) (f : FmState) (xs : List Cplx) :
    (fmDemAll N f xs).2.length = xs.length := by
  induction xs generalizing f with
  | nil => rfl
  | cons x xs ih => simp [fmDemAll, ih]

end Sys2Proof.Machine
end

