-- ==== Sys2Proof/Laws/Pipeline.lean ====
section
/-! SUPPORT. What validation, the plan and the two flags can do, said once each. -/

namespace Sys2Proof.Machine

/-- What a configuration that passes `Validate` satisfies (60_exceptions.md R112). -/
theorem validate_none {b : Build} {c : Cfg} (h : validate b c = none) :
    0 < c.inrate.toInt ∧ 0 ≤ c.outrate.toInt ∧ 0 < c.bandwidth.toInt ∧ 2 * c.bandwidth.toInt < c.inrate.toInt ∧
      c.modscheme.toInt = 0 ∧ 0 < c.deviation.toInt ∧ 1 ≤ c.taps.toInt := by
  unfold validate at h
  rw [List.find?_eq_none] at h
  have h1 := h .inrate (by simp [cfgErrorOrder])
  have h2 := h .outrate (by simp [cfgErrorOrder])
  have h3 := h .bandwidth (by simp [cfgErrorOrder])
  have h4 := h .scheme (by simp [cfgErrorOrder])
  have h5 := h .deviation (by simp [cfgErrorOrder])
  have h6 := h .taps (by simp [cfgErrorOrder])
  simp [cfgErrorHolds] at h1 h2 h3 h4 h5 h6
  exact ⟨h1, h2, h3.1, h3.2, h4, h5 h4, h6.1⟩

/-- The stages `RSDSN` makes have the ratios of the plan. -/
@[simp] theorem stagePairs_map_stageInit (N : Numerics) (rsbw : RealNum) (M : ℕ) (A : ℤ) (l : List (ℕ × ℕ)) :
    stagePairs (l.map (stageInit N rsbw M A)) = l := by
  simp [stagePairs, stageInit, Function.comp_def]

@[simp] theorem firDesign_length (N : Numerics) (L : ℕ) (fc : RealNum) (A : ℤ) : (firDesign N L fc A).length = L := by
  simp [firDesign]

@[simp] theorem bankDesign_length (N : Numerics) (rsbw : RealNum) (M : ℕ) (A : ℤ) (P Q : ℕ) :
    (bankDesign N rsbw M A P Q).length = P * M := by
  unfold bankDesign
  split <;> simp

/-- The power of two that a plan splits off is the largest one that fits (42_resampler.md R73). -/
theorem largestPow_spec {a b : ℕ} (ha : 1 ≤ a) (h : a ≤ b) :
    2 ^ largestPow a b * a ≤ b ∧ b < 2 * (2 ^ largestPow a b * a) := by
  unfold largestPow
  have hne : b / a ≠ 0 := by have := Nat.div_pos h ha; omega
  have h1 := (Nat.log2_eq_iff hne (k := Nat.log2 (b / a))).mp rfl
  constructor
  · calc _ ≤ b / a * a := Nat.mul_le_mul_right _ h1.1
      _ ≤ b := Nat.div_mul_le_self b a
  · have : b < 2 ^ (Nat.log2 (b / a) + 1) * a := (Nat.div_lt_iff_lt_mul ha).mp h1.2
    rw [pow_succ] at this
    linarith

/-- What an instruction can do to `cmderr`: `RESET` clears it, a refusal sets it, nothing else writes it. -/
theorem exec_cmderr_cases {i : Instr} {s t : State} (h : exec i s = .next t) :
    i = .reset ∧ t = s.resetCore.respond .ok 0 ∨ t.cmderr = s.cmderr ∨ t = s.illegalCommand ∨ t = s.badMode := by
  cases i <;> simp only [exec] at h
  case reset => rw [execReset_eq] at h; cases h; exact .inl ⟨rfl, rfl⟩
  case cfgwr r v =>
    rcases execCfgwr_cases r v s with e | ⟨_, e⟩ | ⟨_, _, _, _, e⟩ <;> rw [e] at h <;> cases h <;> simp
  case cfgrd r => rcases execCfgrd_cases r s with ⟨_, e⟩ | ⟨_, _, e⟩ <;> rw [e] at h <;> cases h <;> simp
  case start => rcases execStart_cases s with ⟨_, e⟩ | ⟨_, _, _, e⟩ | ⟨_, _, e⟩ <;> rw [e] at h <;> cases h <;> simp
  case push n =>
    rcases execPush_cases n s with ⟨_, e⟩ | ⟨_, _, e⟩ | ⟨_, _, _, _, e⟩ | ⟨_, _, _, e⟩ <;> rw [e] at h <;> cases h <;>
      simp
  case eos => rcases execEos_cases s with ⟨_, e⟩ | ⟨_, e⟩ <;> rw [e] at h <;> cases h <;> simp
  case iqdec a b => rcases execIqdec_cases a b s with ⟨_, e⟩ | ⟨_, _, e⟩ <;> rw [e] at h <;> cases h <;> simp

/-- Only one word is `RESET`. -/
theorem decodeCmd_eq_reset {w : CmdWord} (h : decodeCmd w = .ok .reset) : w = 0x0100000000000000 := by
  obtain ⟨h1, h2⟩ := decodeCmd_ok h
  have hw := cmdWord_fields w
  unfold decodeFields at h2
  split at h2
  · rename_i ho
    have := decodePlain_ok.mp h2
    rw [h1, this.1, this.2.1, show cmdOpcode w = 1 from BitVec.eq_of_toNat_eq (by simpa using ho)] at hw
    rw [← hw]
    decide
  all_goals first
    | (have := (decodePlain_ok.mp h2).2.2; cases this)
    | ((repeat' split at h2) <;> simp at h2)

end Sys2Proof.Machine
end

