-- ==== Sys2Proof/Tests/Slice0.lean ====
section
/-! SUPPORT. Tests with expected results from the spec's own vectors (95_test_vectors.md), each named after the vector it
checks, and for every statement with hypotheses a witness that meets them. -/

namespace Sys2Proof.Tests

open Sys2Proof Sys2Proof.Machine

-- One theorem after the other: many evaluations waiting for the kernel at once take more threads than memory holds.
set_option Elab.async false

/-! ## Helpers -/

/-- The state of a next outcome. -/
def nextOf (o : Host.Outcome State Fault Refusal) : Option State :=
  match o with
  | .next s => some s
  | .fault _ => none
  | .refused _ => none

/-- A decoded command, or none. -/
def decoded (w : CmdWord) : Option Instr :=
  match decodeCmd w with
  | .ok i => some i
  | .error _ => none

/-- Why a word is illegal, or none. -/
def illegal (w : CmdWord) : Option DecodeError :=
  match decodeCmd w with
  | .ok _ => none
  | .error e => some e

/-- Program P1 after its `START`. -/
def p1 : State := { runningState State.reset with build := { Build.default with rsm := 1 } }

/-- An idle machine of the build of programs P1 to P3 with a configuration. -/
def idleWith (inrate outrate bandwidth modscheme deviation taps atten : RegWord) : State :=
  { State.reset with
    build := { Build.default with rsm := 1 }
    cfg :=
      { inrate := inrate
        outrate := outrate
        bandwidth := bandwidth
        modscheme := modscheme
        deviation := deviation
        taps := taps
        atten := atten } }

/-- Program P3 after its `START`. -/
def p3 : State := (idleWith 96000 48000 24000 0 12000 1 70).startRun

/-- The error code a `START` reports. -/
def startCode (s : State) : Option RegWord := (nextOf (exec .start s)).map State.errcode

/-- The exact format of the default build. -/
def exact : Numerics := exactNumerics (.rat 0)

/-- A complex number with rational coordinates. -/
def cx (x y : ℚ) : Cplx := ⟨.rat x, .rat y⟩

/-- A real sample. -/
def re (x : ℚ) : Cplx := cx x 0

/-- Rational coefficients. -/
def rats (l : List ℚ) : List RealNum := l.map .rat

/-- Whether the bounds of every number of a list are within `ε` of the printed one. -/
def allNear (ε : ℚ) (l : List RealNum) (printed : List ℚ) : Bool :=
  (List.zipWith (fun (a : RealNum) b => (a.enclose boundBits).any fun i => decide (b - ε < i.lo ∧ i.hi < b + ε)) l
    printed).all id && l.length == printed.length

/-- The integer of an output sample that is written out. -/
def intOf : OutSample → Option ℤ
  | .word v => some v.toInt
  | .rounded _ _ => none

/-- Bytes of `out` that are written out. -/
def lits (l : List Byte) : List OutByte := l.map .byte

/-- A machine of the default build after its `START`. -/
def startedWith (inrate bandwidth deviation taps atten : RegWord) : State :=
  ({ idleWith inrate 0 bandwidth 0 deviation taps atten with build := Build.default } : State).startRun

/-- What is on `out` after input samples, one `IQDEC` each. -/
def outAfter (s : State) (l : List (ℤ × ℤ)) : Option (List OutByte) :=
  (l.foldl (fun (t : Option State) p =>
    t.bind fun t => nextOf (exec (.iqdec (BitVec.ofInt 16 p.1) (BitVec.ofInt 16 p.2)) t)) (some s)).map State.outQ

/-! ## WellFormed: every check refuses an ill-formed term -/

theorem test_wf_refuses_cfgwr_unassigned : (Instr.cfgwr 0x07 5).wellFormed = false := by decide
theorem test_wf_refuses_cfgwr_read_only : (Instr.cfgwr 0x10 5).wellFormed = false := by decide
theorem test_wf_refuses_cfgrd_unassigned : (Instr.cfgrd 0x13).wellFormed = false := by decide
theorem test_wf_admits_all_registers :
    (∀ n : RegNum, n.toNat ≤ 6 → (Instr.cfgwr n 0).wellFormed = true ∧ (Instr.cfgrd n).wellFormed = true) ∧
    (Instr.cfgrd 0x10).wellFormed = true ∧ (Instr.cfgrd 0x11).wellFormed = true ∧
    (Instr.cfgrd 0x12).wellFormed = true := by decide

/-! ## Decode: the words of V11 and V1 -/

theorem test_decode_reset : decoded 0x0100000000000000 = some .reset := by decide
theorem test_decode_cfgwr : decoded 0x02000000FFFFFFFF = some (.cfgwr 0x00 0xFFFFFFFF) := by decide
theorem test_decode_cfgwr_last : decoded 0x0206000000000046 = some (.cfgwr 0x06 70) := by decide
theorem test_decode_cfgrd : decoded 0x0311000000000000 = some (.cfgrd 0x11) := by decide
theorem test_decode_start : decoded 0x0400000000000000 = some .start := by decide
theorem test_decode_push : decoded 0x05000000FFFFFFFF = some (.push 4294967295) := by decide
theorem test_decode_eos : decoded 0x0600000000000000 = some .eos := by decide
theorem test_decode_iqdec : decodeIqBytes [0x41, 0x2D, 0xBF, 0xD2] = some (.iqdec 11585 (BitVec.ofInt 16 (-11585))) := by
  decide
theorem test_decode_table_word :
    decodeTableWord 64 0x0200000000030D40 = some (.cfgwr 0x00 200000) ∧
    decodeTableWord 32 0xC0004000 = some (.iqdec 0x4000 0xC000) ∧ decodeTableWord 64 0x0700000000000000 = none := by
  decide
theorem test_decode_transport_bytes :
    decodeCmdBytes [0x40, 0x0D, 0x03, 0x00, 0x00, 0x00, 0x00, 0x02] = .ok (.cfgwr 0x00 200000) := by rfl

/-- The illegal words of V11, each with its reason. -/
theorem test_illegal_words :
    illegal 0x0000000000000000 = some .unassignedOpcode ∧ illegal 0xFFFFFFFFFFFFFFFF = some .reservedNotZero ∧
    illegal 0x0700000000000000 = some .unassignedOpcode ∧ illegal 0x0100000000000001 = some .immNotZero ∧
    illegal 0x0401000000000000 = some .regNotZero ∧ illegal 0x0400000100000000 = some .reservedNotZero ∧
    illegal 0x0207000000000000 = some .unassignedRegister ∧ illegal 0x0210000000000005 = some .readOnlyRegister ∧
    illegal 0x0313000000000000 = some .unassignedRegister ∧ illegal 0x0300000000000001 = some .immNotZero ∧
    illegal 0x0500800000000004 = some .reservedNotZero ∧ illegal 0x0501000000000004 = some .regNotZero ∧
    illegal 0x0600000000000001 = some .immNotZero := by decide

/-! ## Stage 1 -/

/-- V1, row 3. -/
theorem test_iqdec_extremes : iqSample 0x8000 0x7FFF = cx (-1) (32767 / 32768) := by decide +kernel
/-- V2, rows 2, 4 and the second chunk of row 5. -/
theorem test_iqdecode_framing :
    iqDecode [0x12, 0x34, 0x56] = [] ∧
    iqDecode [0x00, 0x40, 0x00, 0x00, 0x00, 0x20, 0x00, 0x20, 0xAA, 0xBB] = [cx (1 / 2) 0, cx (1 / 4) (1 / 4)] ∧
    iqDecode [0x40, 0x00, 0x00, 0x00, 0x40] = [cx (1 / 512) 0] := by decide +kernel

/-! ## Stage 2 -/

/-- V4 (a). -/
theorem test_fir_two_taps :
    firRun exact ⟨2, rats [1 / 2, 1 / 4], [re 0, re 0], 1⟩ [cx 1 0, cx 0 1] =
      (⟨2, rats [1 / 2, 1 / 4], [cx 1 0, cx 0 1], 1⟩, [cx (1 / 2) 0, cx (1 / 4) (1 / 2)]) := by decide +kernel
/-- V4 (b). -/
theorem test_fir_pairing :
    firRun exact ⟨3, rats [1, 2, 3], [re 0, re 0, re 0], 2⟩ [re 1, re 10, re 100, re 1000] =
      (⟨3, rats [1, 2, 3], [re 1000, re 10, re 100], 0⟩, [re 1, re 12, re 123, re 1230]) := by decide +kernel
/-- V3, rows 1 and 2, exactly. -/
theorem test_fir_single_tap :
    firDesign exact 1 (.rat (1 / 4)) 70 = rats [1 / 2] ∧ firDesign exact 1 (.rat (4 / 100)) (-5) = rats [8 / 100] := by
  decide +kernel
/-- V3, `L = 5` and `L = 3`, to the digits printed. -/
theorem test_fir_design :
    allNear (1 / 10 ^ 10) (firDesign exact 5 (.rat (1 / 10)) 70)
      [0.00112566636, 0.0816160692, 0.2, 0.0816160692, 0.00112566636] = true ∧
    allNear (1 / 10 ^ 11) (firDesign exact 3 (.rat (1 / 4)) 10) [0.318309886184, 0.5, 0.318309886184] = true := by
  decide +kernel
/-- V3, `I0(6.75526)`, to the digits printed, and the first decimals of `π`. -/
theorem test_primitives :
    allNear (1 / 10 ^ 6) [.i0 (.rat 6.75526)] [134.467326] = true ∧
    allNear (1 / 10 ^ 20) [.pi] [3.14159265358979323846] = true := by decide +kernel
/-- V3, `β` for `A = 40`, the middle branch, to the digits printed, and for the other two. -/
theorem test_kaiser_beta :
    allNear (1 / 10 ^ 8) [kaiserBeta exact 40] [3.39532105] = true ∧ kaiserBeta exact 70 = .rat 6.75526 ∧
    kaiserBeta exact 20 = .rat 0 := by decide +kernel
/-- A sum of irrational numbers that is 0: `sin(3π/10) - sin(π/10) - 1/2`. -/
def irrationalZero : RealNum :=
  ((RealNum.sineOfPi (.rat (3 / 10))).minus (RealNum.sineOfPi (.rat (1 / 10)))).minus (.rat (1 / 2))
theorem test_irrational_zero : irrationalZero.val = 0 := by
  have h5 : Real.sqrt 5 * Real.sqrt 5 = 5 := Real.mul_self_sqrt (by norm_num)
  have h1 : Real.sin (Real.pi * (3 / 10)) = Real.cos (Real.pi / 5) := by
    rw [← Real.cos_pi_div_two_sub]; congr 1; ring
  have h2 : Real.sin (Real.pi * (1 / 10)) = Real.cos (2 * (Real.pi / 5)) := by
    rw [← Real.cos_pi_div_two_sub]; congr 1; ring
  simp only [irrationalZero, RealNum.val_minus, RealNum.val_sineOfPi, RealNum.val_rat]
  push_cast
  rw [h1, h2, Real.cos_two_mul, Real.cos_pi_div_five]
  linear_combination -h5 / 8
/-- The word of the angle of a point that is the origin by such a sum is that of `ATAN2_ZERO`, here 0. -/
theorem test_irrational_origin :
    (quant exact .halfAway (RealNum.angleTurns (.rat 0) (.rat 0) irrationalZero)).val = 0 := by
  rw [quant_val]
  have h : (scaledUnit exact (RealNum.angleTurns (.rat 0) (.rat 0) irrationalZero)).val = ((0 : ℚ) : ℝ) := by
    rw [exact, scaledUnit_exact_val, RealNum.val_angleTurns, test_irrational_zero]
    simp [realTurns, clampUnit_eq]
  rw [h, quantInt_cast]
  decide +kernel

/-! ## Stage 3 -/

/-- V5. -/
theorem test_plans :
    defaultPlan 1 1 = [(1, 1)] ∧ defaultPlan 2 1 = [(1, 1), (2, 1)] ∧ defaultPlan 4 1 = [(1, 1), (2, 1), (2, 1)] ∧
    defaultPlan 3 2 = [(3, 2)] ∧ defaultPlan 160 147 = [(160, 147)] ∧ defaultPlan 1 2 = [(1, 2), (1, 1)] ∧
    defaultPlan 1 4 = [(1, 2), (1, 2), (1, 1)] ∧ defaultPlan 6 25 = [(1, 2), (1, 2), (24, 25)] ∧
    defaultPlan 2 3 = [(2, 3)] ∧ defaultPlan 1 3 = [(1, 2), (2, 3)] ∧ ratioOf 200000 48000 = (6, 25) := by
  decide +kernel
/-- V6, the delays. -/
theorem test_delays :
    ([[(1, 1)], [(1, 1), (2, 1)], [(160, 147)], [(1, 2), (1, 2), (1, 1)], [(1, 2), (1, 2), (24, 25)]].map fun plan =>
        delayReg exact (totalDelay exact 16 plan)) = [0x00078000, 0x000F4000, 0x0007FF33, 0x00348000, 0x00366AAA] ∧
    totalDelay exact 16 [(1, 2), (1, 2), (24, 25)] = 653 / 12 := by decide +kernel
/-- V6, the banks of `RSM = 1`. -/
theorem test_banks :
    bankDesign exact (.rat (45 / 100)) 1 70 1 1 = rats [9 / 10] ∧
    bankDesign exact (.rat (45 / 100)) 1 70 1 2 = rats [9 / 20] := by decide +kernel
/-- V7 (a) and (c). -/
theorem test_stage_up :
    (stageRun exact 2 ⟨2, 1, rats [1, 1 / 2, 0, 1 / 2], [re 0, re 0], 1, 0⟩ [re 2, re 4]).2 =
      [re 2, re 1, re 4, re 3] ∧
    (stageRun exact 1 ⟨3, 2, rats [1, 2, 3], [re 0], 0, 0⟩ [re 1]).1.acc = 1 ∧
    (stageRun exact 1 ⟨3, 2, rats [1, 2, 3], [re 0], 0, 0⟩ [re 1, re 10]).2 = [re 1, re 3, re 20] := by decide +kernel
/-- V7 (b) and (d). -/
theorem test_stage_down :
    (stageRun exact 2 ⟨1, 2, rats [1 / 2, 1 / 2], [re 0, re 0], 1, 0⟩ [re 2, re 4, re 6, re 8]).2 = [re 1, re 5] ∧
    (stageRun exact 2 ⟨2, 3, rats [1, 2, 3, 4], [re 0, re 0], 1, 0⟩ [re 1, re 10, re 100, re 1000]).2 =
      [re 1, re 24, re 1300] := by decide +kernel

/-! ## Stages 4 and 5 -/

/-- V9, rows 1, 3, 4 and 5. -/
theorem test_fmdem :
    (fmDem exact ⟨1 / 4, none⟩ (cx 0 1)).2 = .rat 1 ∧
    (fmDem exact ⟨1 / 4, some (cx 1 1)⟩ (cx (-1) 1)).2 = .rat 1 ∧
    (fmDem exact ⟨1 / 4, some (cx 1 0)⟩ (cx 1 (-1))).2 = .rat (-1 / 2) ∧
    (fmDem exact ⟨1 / 4, some (cx 0 (1 / 2))⟩ (cx (-1 / 2) (1 / 2))).2 = .rat (1 / 2) := by decide +kernel
/-- V9, rows 6 to 8: the negative real axis and the origin. -/
theorem test_fmdem_corners :
    (fmDem exact ⟨1 / 4, some (cx 2 0)⟩ (cx (-3) 0)).2 = .rat 2 ∧
    (fmDem exact ⟨1 / 4, some (cx 0 0)⟩ (cx 1 0)).2 = .rat 0 ∧
    fmDem exact ⟨7 / 96, some (cx 1 0)⟩ (cx 1 1) = (⟨7 / 96, some (cx 1 1)⟩, .rat (12 / 7)) := by decide +kernel
/-- V10. -/
theorem test_quant :
    ([0, 1, 3 / 2, -1, -3 / 2, 1 / 4, -1 / 4, 1 / 2, -1 / 2, 1 / 65534, -1 / 65534, 1 / 100000, 99999 / 100000].map
      fun x => intOf (quant exact .halfAway (.rat x))) =
      [0, 32767, 32767, -32767, -32767, 8192, -8192, 16384, -16384, 1, -1, 0, 32767].map some := by decide +kernel
/-- V10, the tie rows under half to even, and the bytes of `1/4`. -/
theorem test_quant_ties_and_bytes :
    ([1 / 2, -1 / 2, 1 / 65534, -1 / 65534].map fun x => intOf (quant exact .halfEven (.rat x))) =
      [16384, -16384, 0, 0].map some ∧
    (quant exact .halfAway (.rat (1 / 4))).bytes = lits [0x00, 0x20] := by decide +kernel
/-- P4, its first eight outputs, by the step itself. -/
theorem test_p4_transient :
    outAfter (startedWith 48000 12000 24000 4 70)
        [(0x4000, 0), (0x2D41, 0x2D41), (0, 0x4000), (-0x2D41, 0x2D41), (-0x4000, 0), (-0x2D41, -0x2D41), (0, -0x4000),
         (0x2D41, -0x2D41)] =
      some (lits [0x00, 0x00, 0x1A, 0x00, 0x1B, 0x77, 0x86, 0x27, 0xFD, 0x5B, 0x04, 0x7D, 0xB5, 0x7E, 0x83, 0x80]) := by
  decide +kernel
/-- A product of about `10^-25` is no origin (43_fm_demod.md R91): the default filters, samples `j/32768` after `1/32768`. -/
theorem test_small_is_not_the_origin :
    outAfter (startedWith 48000 12000 12000 64 70) [(1, 0), (0, 1)] = some (lits [0xFF, 0x7F, 0xFF, 0x7F]) := by
  decide +kernel
/-- The same with rational coordinates, at the least deviation (43_fm_demod.md R91), and with the small taps of a large
attenuation: tap 0 of 64 at `fc = 1/4` is negative, the bank's is positive, so a sample on the imaginary axis is turned by
-1/4. -/
theorem test_small_angles_and_taps :
    outAfter (idleWith 0x7FFFFFFF 0 1 0 1 1 70).startRun [(16384, 0), (16384, 8192)] =
      some (lits [0x00, 0x00, 0xFF, 0x7F]) ∧
    outAfter (startedWith 48000 12000 12000 64 1000) [(0, 1)] = some (lits [0x01, 0x80]) := by decide +kernel

/-! ## The commands -/

/-- P1, row 7: bytes and count. -/
theorem test_push_p1 :
    (nextOf (exec (.push 28) { p1 with
        inQ := [0x00, 0x40, 0x00, 0x00, 0x00, 0x00, 0x00, 0x40, 0x00, 0xC0, 0x00, 0x40, 0x00, 0x00, 0x00, 0x40,
                0x00, 0x00, 0x00, 0xC0, 0x00, 0x00, 0x00, 0x00, 0x00, 0x40, 0x00, 0x00] })).map
        (fun t => (t.outQ, t.rspQ, t.inQ)) =
      some (lits [0x00, 0x00, 0xFF, 0x7F, 0x00, 0x40, 0x00, 0xC0, 0xFF, 0x7F, 0x00, 0x00, 0x00, 0x00], [7], []) := by
  decide +kernel
/-- P3, rows 7 and 8 as one chunk without its stray bytes: two samples out of four. -/
theorem test_push_p3 :
    (nextOf (exec (.push 16) { p3 with
        inQ := [0x00, 0x40, 0x00, 0x00, 0x00, 0x20, 0x00, 0x20, 0x00, 0x00, 0x00, 0xC0, 0x00, 0xE0, 0x00, 0xE0] })).map
        (fun t => (t.outQ, t.objs.map fun o => (o.rs.stages.map RsStage.acc, o.fm.prev))) =
      some (lits [0x00, 0x00, 0x01, 0x80], some ([0, 0], some (cx 0 (-81 / 800)))) := by decide +kernel
/-- P3, after row 6. -/
theorem test_start_p3 :
    (nextOf (exec .start (idleWith 96000 48000 24000 0 12000 1 70))).map (fun t => (t.mode, t.rsdelay, t.rspQ)) =
      some (.run, 0, [0]) ∧
    p3.objs.map (fun o => (o.fir.coef, o.rs.stages.map RsStage.coef, o.fm.kf)) =
      some (rats [1 / 2], [rats [9 / 20], rats [9 / 10]], 1 / 4) := by decide +kernel
/-- V12, the rows that fail, in the order of their codes. -/
theorem test_validate_fails :
    [startCode State.reset, startCode (idleWith 0xFFFFFFFF 0 0 0 0 64 70), startCode (idleWith 0x80000000 0 1 0 1 64 70),
      startCode (idleWith 48000 0xFFFFFFFF 0 0 0 64 70), startCode (idleWith 48000 0 24000 0 1 64 70),
      startCode (idleWith 1 0 1 0 1 64 70), startCode (idleWith 0x7FFFFFFF 0 0x40000000 0 1 64 70),
      startCode (idleWith 48000 0 12000 1 0 64 70), startCode (idleWith 48000 0 12000 0 0 64 70),
      startCode (idleWith 48000 0 12000 0 1 0 70)] =
    [some 1, some 1, some 1, some 2, some 3, some 3, some 3, some 4, some 5, some 6] := by decide +kernel
/-- V12, rows that pass. -/
theorem test_validate_passes :
    [startCode (idleWith 48000 0 23999 0 1 1 70), startCode (idleWith 3 0 1 0 1 1 70),
      startCode (idleWith 48000 0 12000 0 1 1 0xFFFFFFFB), startCode (idleWith 0x7FFFFFFF 0 0x3FFFFFFF 0 1 1 70)] =
    [some 0, some 0, some 0, some 0] := by decide +kernel
/-- P2, rows 7, 9 and 10: the status of a failed start, a refused `PUSH`, the status after it. -/
theorem test_failed_start :
    (({ State.reset with mode := .err, errcode := 3 } : State).readReg .status = 2) ∧
    (nextOf (exec (.push 4) { State.reset with mode := .err, errcode := 3, inQ := [1, 2, 3, 4] })).map
        (fun t => (t.rspQ, t.inQ, t.readReg .status)) = some ([0x0200000000000000], [1, 2, 3, 4], 6) := by decide +kernel
/-- P2, rows 12 to 15. -/
theorem test_reset_recovers :
    let after := nextOf (exec .reset { p1 with mode := .err, cmderr := true, errcode := 3 })
    after.map (fun t => (t.mode, t.cmderr, t.errcode)) = some (.idle, false, 0) ∧
    after.map (fun t => (t.cfg.bandwidth, t.cfg.taps, t.rspQ)) = some (0, 64, [0]) := by decide +kernel
/-- R99 and its BADMODE. -/
theorem test_cfgwr :
    (nextOf (exec (.cfgwr 0x01 48000) State.reset)).map (fun t => (t.cfg.outrate, t.rspQ)) = some (48000, [0]) ∧
    (nextOf (exec (.cfgwr 0x00 1) p1)).map (fun t => (t.cfg.inrate, t.rspQ)) = some (48000, [0x0200000000000000]) := by
  decide +kernel
/-- P2, row 15, and P4, row 6. -/
theorem test_cfgrd :
    (nextOf (exec (.cfgrd 0x05) State.reset)).map State.rspQ = some [0x40] ∧
    (nextOf (exec (.cfgrd 0x12) { p1 with rsdelay := 0x78000 })).map State.rspQ = some [0x78000] := by decide +kernel
/-- P1, rows 8 and 9. -/
theorem test_eos :
    (nextOf (exec .eos p1)).map (fun t => (t.mode, t.objs, t.rsdelay, t.rspQ, t.readReg .status)) =
      some (.done, none, 0, [0], 3) := by decide +kernel
/-- P1, sample 1 after sample 0, as `IQDEC` alone. -/
theorem test_iqdec_in_the_pipeline :
    ((nextOf (exec (.iqdec 0x4000 0) p1)).bind fun s => nextOf (exec (.iqdec 0 0x4000) s)).map State.outQ =
      some (lits [0x00, 0x00, 0xFF, 0x7F]) := by decide +kernel
/-- What `withFetchWord` places is what the next step runs. -/
theorem test_fetch_word :
    (nextOf (step (State.reset.withFetchWord 64 0x020100000000BB80))).map (fun t => (t.cfg.outrate, t.cmdQ)) =
      some (48000, []) ∧
    (nextOf (step (State.reset.withFetchWord 32 0x40000000))).map (fun t => (t.outQ, t.inQ)) =
      some (lits [0xFF, 0x7F], []) := by decide +kernel
/-- R53: the response `CFGERR` 1 and the command `CFGWR INRATE, 200000` as bytes. -/
theorem test_transport :
    rspTransport 0x0300000000000001 = [0x01, 0x00, 0x00, 0x00, 0x00, 0x00, 0x00, 0x03] ∧
    cmdTransport 0x0200000000030D40 = [0x40, 0x0D, 0x03, 0x00, 0x00, 0x00, 0x00, 0x02] := by decide +kernel
/-- The host takes part of what `out` holds. -/
theorem test_host_takes_part :
    (({ State.reset with outQ := lits [1, 2, 3, 4] } : State).hostTakeOut 2).1 = lits [1, 2] ∧
    (({ State.reset with outQ := lits [1, 2, 3, 4] } : State).hostTakeOut 2).2.outQ = lits [3, 4] := by decide +kernel
/-- The host's padding for the plan of X7: 55 zero samples. -/
theorem test_padding : (paddingBytes 0x00366AAA).length = 220 := by decide +kernel
/-- The expansion and the text of `CFGFM 200000, 48000, 8000, 3500` (45_commands.md R101, V11). -/
theorem test_cfgfm :
    (AsmLine.pseudo (.cfgfm 200000 48000 8000 3500)).words =
      [0x0200000000030D40, 0x020100000000BB80, 0x0202000000001F40, 0x0203000000000000, 0x0204000000000DAC] ∧
    asmText (.cfgwr 0 200000) = "CFGWR INRATE, 200000" := by decide +kernel

/-! ## Witnesses: for each statement with hypotheses, concrete states and operands that meet them together -/

/-- A legal state in mode `ERR`. -/
def errState : State := { State.reset with mode := .err, errcode := 3 }
/-- A legal state in mode `DONE`. -/
def doneState : State := { State.reset with mode := .done }
/-- P1 after its `START` with one sample on `in` and the `PUSH` that reads it on `cmd`. -/
def p1Push : State := { p1 with cmdQ := [0x0500000000000004], inQ := [0x00, 0x40, 0x00, 0xC0] }
/-- P1 after its `START` with `EOS` as the one command left. -/
def p1Eos : State := { p1 with cmdQ := [0x0600000000000000] }
/-- A legal resampler stage `(3, 2)` with two taps per branch. -/
def stage32 : RsStage := ⟨3, 2, rats [1, 2, 3, 4, 5, 6], [re 0, re 0], 1, 0⟩

/-- The range of the parameters, for the builds of the tests. -/
theorem build_wf (m : ℕ) (h : 1 ≤ m) : ({ Build.default with rsm := m } : Build).wf := by
  refine ⟨h, ?_, ?_⟩ <;> norm_num [Build.default, RealNum.val]
theorem errState_wf : errState.wf := ⟨build_wf 16 (by decide), by decide +kernel⟩
theorem p1Push_wf : p1Push.wf := ⟨build_wf 1 (by decide), by decide +kernel⟩

theorem witness_DecodeInvertsEncode :
    Instr.reset.wellFormed = true ∧ (Instr.cfgwr 0x00 0).wellFormed = true ∧
    (Instr.cfgwr 0x06 0xFFFFFFFF).wellFormed = true ∧ (Instr.cfgrd 0x12).wellFormed = true ∧
    Instr.start.wellFormed = true ∧ (Instr.push 0xFFFFFFFF).wellFormed = true ∧ Instr.eos.wellFormed = true ∧
    (Instr.iqdec 0x8000 0xFFFF).wellFormed = true := by decide
theorem witness_EncodeInvertsDecode :
    decode (.cmd 0x02060000FFFFFFFF) = .ok (.cfgwr 0x06 0xFFFFFFFF) ∧
    decode (.iq 0xFFFF8000) = .ok (.iqdec 0x8000 0xFFFF) := ⟨rfl, rfl⟩
theorem witness_StepRunsDecodedCommand :
    (State.reset.pushWait = none ∧ State.reset.cmdQ = []) ∧ ({ p1 with pushWait := some 4 } : State).pushWait = some 4 ∧
    p1Push.pushWait = none ∧ p1Push.cmdQ = 0x0500000000000004 :: [] ∧ decodeCmd 0x0500000000000004 = .ok (.push 4) :=
  ⟨⟨rfl, rfl⟩, rfl, rfl, rfl, rfl⟩
theorem witness_StepRunsInputSample :
    ∃ o, p1Push.pushWait = none ∧ p1Push.cmdQ = 0x0500000000000004 :: [] ∧ p1Push.mode = .run ∧ p1Push.objs = some o ∧
      p1Push.inQ = 0x00 :: 0x40 :: 0x00 :: 0xC0 :: [] ∧
      decodeIqBytes [0x00, 0x40, 0x00, 0xC0] = some (.iqdec 0x4000 0xC000) :=
  ⟨_, rfl, rfl, rfl, rfl, rfl, rfl⟩
theorem witness_IllegalCommandChangesNothingElse :
    (∃ s : State, s.pushWait = none ∧ s.cmdQ = 0 :: [] ∧ decodeCmd 0 = .error .unassignedOpcode) ∧
    ∃ s t : State, step s = .next t ∧ s.cmderr = true ∧ t.cmderr = false :=
  ⟨⟨{ State.reset with cmdQ := [0] }, rfl, rfl, rfl⟩,
    { errState with cmderr := true, cmdQ := [0x0100000000000000] }, _, rfl, rfl, rfl⟩
theorem witness_WrongModeCommandChangesNothingElse :
    ((Instr.cfgwr 0x06 1).wellFormed = true ∧ p1.mode ≠ .idle) ∧ (Instr.start.wellFormed = true ∧ errState.mode ≠ .idle) ∧
    ((Instr.push 4).wellFormed = true ∧ State.reset.mode ≠ .run) ∧ (Instr.eos.wellFormed = true ∧ doneState.mode ≠ .run) ∧
    (Instr.cfgwr 0x07 1).wellFormed = false := by decide
theorem witness_ModeTransitionRelation :
    (∃ t, exec .reset doneState = .next t) ∧ (∃ t, exec .start State.reset = .next t) ∧ (∃ t, exec .eos p1 = .next t) ∧
    (∃ t, exec (.push 4) p1Push = .next t) ∧ (∃ t, exec (.iqdec 1 1) p1 = .next t) ∧
    (∃ t, step State.reset = .next t) ∧ ∀ i s', fetch State.reset ≠ .run i s' :=
  ⟨⟨_, rfl⟩, ⟨_, rfl⟩, ⟨_, rfl⟩, ⟨_, rfl⟩, ⟨_, rfl⟩, ⟨_, rfl⟩, fun _ _ h => by cases h⟩
theorem witness_ErrAndDoneAreLeftOnlyByReset :
    (∃ s t : State, s.mode = .err ∧ step s = .next t ∧ t.mode ≠ s.mode) ∧
    ∃ s t : State, s.mode = .done ∧ step s = .next t ∧ t.mode ≠ s.mode :=
  ⟨⟨{ errState with cmdQ := [0x0100000000000000] }, _, rfl, rfl, by decide⟩,
    { doneState with cmdQ := [0x0100000000000000] }, _, rfl, rfl, by decide⟩
theorem witness_CmderrRecordsRefusals :
    (∃ s t : State, step s = .next t ∧ s.cmderr ≠ t.cmderr ∧ t.cmderr = true) ∧
    ∃ s t : State, step s = .next t ∧ s.cmderr ≠ t.cmderr ∧ t.cmderr = false :=
  ⟨⟨{ State.reset with cmdQ := [0] }, _, rfl, by decide, rfl⟩,
    { errState with cmderr := true, cmdQ := [0x0100000000000000] }, _, rfl, by decide, rfl⟩
theorem witness_OneResponsePerCommand :
    (∃ s t : State, step s = .next t ∧ s.cmdQ ≠ [] ∧ t.pushWait = none) ∧
    ∃ s t : State, step s = .next t ∧ s.pushWait ≠ none ∧ t.pushWait ≠ none :=
  ⟨⟨p1Push, _, rfl, by decide +kernel, rfl⟩, { p1 with pushWait := some 4 }, _, rfl, by decide, by decide⟩
theorem witness_PortsAreQueues : ∃ t, step p1Push = .next t := ⟨_, rfl⟩
theorem witness_ResetStateIsTheRules : decodeCmd 0x0400000000000000 = .ok .start := rfl
theorem witness_CfgrdAnswersEveryRegister :
    ((0x07#8).toNat ∉ [0, 1, 2, 3, 4, 5, 6, 0x10, 0x11, 0x12] ∧ (0x13#8).toNat ∉ [0, 1, 2, 3, 4, 5, 6, 0x10, 0x11, 0x12]) ∧
    (0x00#8).toNat ∈ [0, 1, 2, 3, 4, 5, 6, 0x10, 0x11, 0x12] ∧ (0x06#8).toNat ∈ [0, 1, 2, 3, 4, 5, 6, 0x10, 0x11, 0x12] ∧
    (0x10#8).toNat ∈ [0, 1, 2, 3, 4, 5, 6, 0x10, 0x11, 0x12] ∧ (0x12#8).toNat ∈ [0, 1, 2, 3, 4, 5, 6, 0x10, 0x11, 0x12] := by
  decide
theorem witness_StatusRegistersFollowTheMode :
    (p1.wf ∧ p1.mode = .run ∧ p1.build.fmt = .exact ∧ p1.mode ≠ .err) ∧ errState.wf ∧ errState.mode = .err ∧
      errState.mode ≠ .run :=
  ⟨⟨⟨build_wf 1 (by decide), by decide +kernel⟩, by decide +kernel⟩, errState_wf, rfl, by decide⟩
/-- The hypotheses of `StartReportsLowestErrorCode`. -/
abbrev startHyps (s : State) (k : ℕ) : Prop :=
  s.mode = .idle ∧
    k = (if s.cfg.inrate.toInt ≤ 0 then 1
         else if s.cfg.outrate.toInt < 0 then 2
         else if s.cfg.bandwidth.toInt ≤ 0 ∨ 2 * s.cfg.bandwidth.toInt ≥ s.cfg.inrate.toInt then 3
         else if s.cfg.modscheme.toInt ≠ 0 then 4
         else if s.cfg.deviation.toInt ≤ 0 then 5
         else if s.cfg.taps.toInt < 1 ∨ (∃ m, s.build.lmax = some m ∧ s.cfg.taps.toInt > m) then 6
         else 0)
theorem witness_StartReportsLowestErrorCode :
    startHyps State.reset 1 ∧ startHyps (idleWith 1 0xFFFFFFFF 0 0 0 64 70) 2 ∧ startHyps (idleWith 2 0 1 0 1 64 70) 3 ∧
    startHyps (idleWith 3 0 1 1 0 64 70) 4 ∧ startHyps (idleWith 3 0 1 0 0 64 70) 5 ∧
    startHyps { idleWith 3 0 1 0 1 2 70 with build := { Build.default with lmax := some 1 } } 6 := by
  simp [startHyps, idleWith, State.reset, Cfg.reset]
theorem witness_StartReportsLowestErrorCode_valid : startHyps (idleWith 3 0 1 0 1 1 70) 0 := by
  simp [startHyps, idleWith, State.reset, Build.default]
theorem witness_StartCreatesTheObjects :
    (idleWith 3 0 1 0 1 1 70).mode = .idle ∧ validate Build.default (idleWith 3 0 1 0 1 1 70).cfg = none ∧
    (idleWith 3 0x7FFFFFFF 1 0 1 1 0x80000000).mode = .idle ∧
    validate Build.default (idleWith 3 0x7FFFFFFF 1 0 1 1 0x80000000).cfg = none := by decide +kernel
theorem witness_PushRunsTheStagesOverTheChunk :
    ∃ o, p1Push.mode = .run ∧ p1Push.objs = some o ∧ (4 : BitVec 32).toNat ≤ p1Push.inQ.length ∧
      (0 : BitVec 32).toNat ≤ p1Push.inQ.length := ⟨_, rfl, rfl, by decide, by decide⟩
theorem witness_PushWaitsForItsBytes :
    (p1Push.mode = .run ∧ p1Push.inQ.length < (5 : BitVec 32).toNat) ∧
    ∃ s : State, s.mode = .run ∧ s.pushWait = some 5 ∧ s.inQ.length < (5 : BitVec 32).toNat :=
  ⟨⟨rfl, by decide⟩, { p1Push with pushWait := some 5 }, rfl, rfl, by decide⟩
theorem witness_PushZeroDoesNothing : p1.mode = .run ∧ p1.objs ≠ none := ⟨rfl, by simp [p1, runningState, State.reset]⟩
theorem witness_TrailingBytesAreDropped :
    p1.mode = .run ∧ p1.objs ≠ none ∧ ([1, 2, 3, 4] : List Byte).length % 4 = 0 ∧ ([5, 6, 7] : List Byte).length < 4 ∧
    ([1, 2, 3, 4] : List Byte).length + ([5, 6, 7] : List Byte).length < 2 ^ 32 :=
  ⟨rfl, by simp [p1, runningState, State.reset], rfl, by decide, by decide⟩
theorem witness_ChunkSplitInvariance :
    ∃ s : State, s.mode = .run ∧ s.objs ≠ none ∧ s.inQ = [1, 2, 3, 4] ++ ([5, 6, 7, 8, 9] ++ [10]) ∧
      ([1, 2, 3, 4] : List Byte).length % 4 = 0 ∧
      ([1, 2, 3, 4] : List Byte).length + ([5, 6, 7, 8, 9] : List Byte).length < 2 ^ 32 :=
  ⟨{ p1 with inQ := [1, 2, 3, 4, 5, 6, 7, 8, 9, 10] }, rfl, by simp [p1, runningState, State.reset], rfl, rfl, by decide⟩
/-- A chunk cut inside a sample, every byte there. -/
theorem witness_ChunkSplitInvariance_inside :
    ∃ s : State, s.mode = .run ∧ (5 : BitVec 32).toNat % 4 ≠ 0 ∧
      (5 : BitVec 32).toNat + (4 : BitVec 32).toNat ≤ s.inQ.length :=
  ⟨{ p1 with inQ := [1, 2, 3, 4, 5, 6, 7, 8, 9] }, rfl, by decide, by decide⟩
theorem witness_EosReleasesTheObjects : p1.mode = .run ∧ errState.mode ≠ .run := ⟨rfl, by decide⟩
theorem witness_CfgfmWritesTheConfiguration :
    ∃ s : State, s.mode = .idle ∧ s.pushWait = none ∧
      s.cmdQ = (expandPseudo (.cfgfm 48000 0 0x80000000 0xFFFFFFFF)).filterMap commandWord? :=
  ⟨{ State.reset with cmdQ := _ }, rfl, rfl, rfl⟩
theorem witness_EveryStepKeepsTheInvariant : p1Push.wf ∧ ∃ t, step p1Push = .next t := ⟨p1Push_wf, _, rfl⟩
theorem witness_LegalStatesNeverStop : p1Push.wf ∧ State.reset.wf ∧ errState.wf ∧ doneState.wf :=
  ⟨p1Push_wf, ⟨build_wf 16 (by decide), by decide +kernel⟩, errState_wf, build_wf 16 (by decide), by decide +kernel⟩
theorem witness_ResetSatisfiesTheInvariant : ({ Build.default with rsm := 1 } : Build).wf ∧ p1.build.wf :=
  ⟨build_wf 1 (by decide), build_wf 1 (by decide)⟩
theorem witness_EveryStepKeepsTheBuild : ∃ t, step p1Push = .next t := ⟨_, rfl⟩
theorem witness_DesignsAreImmutableWhileRunning :
    ∃ (t : State) (o p : Objects), p1Push.mode = .run ∧ t.mode = .run ∧ p1Push.objs = some o ∧ t.objs = some p ∧
      step p1Push = .next t := ⟨_, _, _, rfl, rfl, rfl, rfl, rfl⟩
theorem witness_IqdecFeedsThePipeline : ∃ o, p1.objs = some o := ⟨_, rfl⟩
theorem witness_ChunkFraming :
    ∃ bs : List Byte, bs[4 * 1]? = some 5 ∧ bs[4 * 1 + 1]? = some 6 ∧ bs[4 * 1 + 2]? = some 7 ∧ bs[4 * 1 + 3]? = some 8 :=
  ⟨[1, 2, 3, 4, 5, 6, 7, 8, 9], rfl, rfl, rfl, rfl⟩
theorem witness_FirComputesTheConvolution :
    ∃ y, 1 ≤ 2 ∧ (rats [1 / 2, 1 / 4]).length = 2 ∧
      (firRun exact ⟨2, rats [1 / 2, 1 / 4], List.replicate 2 Cplx.zero, 2 - 1⟩ [cx 1 0, cx 0 1]).2[1]? = some y :=
  ⟨_, by decide, rfl, rfl⟩
theorem witness_FirDesignIsSymmetric : 0 < 1 ∧ 4 < 5 := by decide
theorem witness_DefaultPlanRealizesTheRatio :
    (1 ≤ 6 ∧ 1 ≤ 25 ∧ Nat.gcd 6 25 = 1 ∧ 6 < 25) ∧ (1 ≤ 160 ∧ 1 ≤ 147 ∧ Nat.gcd 160 147 = 1 ∧ 147 ≤ 160) ∧
    1 ≤ 1 ∧ Nat.gcd 1 1 = 1 := by decide
theorem witness_PhaseAccumulatorStaysBelowQ : stage32.wf 2 ∧ ({ stage32 with acc := 1 } : RsStage).wf 2 := by
  decide +kernel
theorem witness_StageOutputCount : stage32.wf 2 := by decide +kernel
theorem witness_DelayIsTheSumOverTheStages : ∀ s ∈ [(1, 2), (1, 2), (24, 25)], 1 ≤ s.1 ∧ 1 ≤ s.2 := by decide
theorem witness_CascadeRateAccuracy : [stage32, stage32] ≠ [] ∧ ∀ st ∈ [stage32, stage32], st.wf 2 ∧ st.acc = 0 := by
  decide +kernel
theorem witness_PushOutputBound :
    ∃ o t, p1Push.mode = .run ∧ p1Push.objs = some o ∧ o.wf ∧ (4 : BitVec 32).toNat ≤ p1Push.inQ.length ∧
      exec (.push 4) p1Push = .next t :=
  ⟨createObjects { Build.default with rsm := 1 } sampleCfg, _, rfl, rfl, by decide +kernel, by decide, rfl⟩
theorem witness_AngleExactValues :
    (0 : ℝ) < 3 ∧ (RealNum.rat 0).val = 0 ∧ (RealNum.rat 3).val = 3 ∧ (RealNum.rat (-3)).val = -3 := by
  norm_num [RealNum.val]
theorem witness_AngleIgnoresMagnitude :
    (0 : ℚ) < 1 / 4 ∧
    ¬((RealNum.rat 0).val = 0 ∧ (RealNum.rat (-1)).val = 0) ∧ (0 : ℝ) < 3 ∧ (RealNum.rat 0).val = 3 * (RealNum.rat 0).val ∧
    (RealNum.rat (-3)).val = 3 * (RealNum.rat (-1)).val := by
  norm_num [RealNum.val]
theorem witness_FmdemMeasuresThePhaseStep :
    (0 : ℚ) < (⟨1 / 4, some (cx 1 1)⟩ : FmState).kf ∧ (⟨1 / 4, some (cx 1 1)⟩ : FmState).prev = some (cx 1 1) ∧
    (⟨1 / 4, none⟩ : FmState).prev = none := by decide +kernel
theorem witness_QuantClampsBeforeScaling :
    1 ≤ (RealNum.rat 1).val ∧ (RealNum.rat (-1)).val ≤ -1 ∧ -1 < (RealNum.rat (99999 / 100000)).val ∧
    (RealNum.rat (99999 / 100000)).val < 1 := by
  norm_num [RealNum.val]
theorem witness_RoundNearestHalfAway :
    (0 : ℝ) ≤ 0 ∧ (0 : ℝ) ≤ 1 / 2 ∧ (-1 / 2 : ℝ) < 0 ∧ ∀ m : ℤ, (0 : ℝ) ≠ m + 1 / 2 := by
  refine ⟨le_rfl, by norm_num, by norm_num, fun m h => ?_⟩
  have : (2 * m + 1 : ℝ) = 0 := by linarith
  have : 2 * m + 1 = 0 := by exact_mod_cast this
  omega
theorem witness_PushCountsWhatItWrote :
    ∃ t, exec (.push 4) p1Push = .next t ∧ t.pushWait = none ∧ p1Push.mode = .run := ⟨_, rfl, rfl, rfl⟩
theorem witness_OutputBytesAreTheExactRounding :
    ∃ o, p1Push.build.fmt = .exact ∧ p1Push.mode = .run ∧ p1Push.objs = some o ∧
      (4 : BitVec 32).toNat ≤ p1Push.inQ.length ∧ (0 : BitVec 32).toNat ≤ p1Push.inQ.length :=
  ⟨_, rfl, rfl, rfl, by decide, by decide⟩

theorem witness_OrderlyShutdownEndsWithEos :
    (p1Eos.mode = .run ∧ p1Eos.pushWait = none ∧ p1Eos.cmdQ = [0x0600000000000000]) ∧
    p1Eos.wf ∧ ∃ t, p1Eos.orderlyShutdown 0 t :=
  ⟨⟨rfl, rfl, rfl⟩, ⟨build_wf 1 (by decide), by decide +kernel⟩, _, ⟨p1Eos, rfl, ⟨_, rfl⟩, rfl⟩, ⟨rfl, rfl⟩, rfl⟩
theorem witness_BankIsTheScaledPrototype : 1 ≤ 24 ∧ 24 * 16 - 1 < 24 * 16 := by decide
theorem witness_KaiserShapeBranches :
    50 < (51 : ℤ) ∧ (21 ≤ (21 : ℤ) ∧ (21 : ℤ) ≤ 50) ∧ (21 ≤ (50 : ℤ) ∧ (50 : ℤ) ≤ 50) ∧ (20 : ℤ) < 21 := by decide
theorem witness_KaiserWindowEndsAndCentre :
    1 = 1 ∧ 1 < 2 ∧ 0 < 2 ∧ 1 = 2 * 0 + 1 ∧ 5 = 2 * 2 + 1 ∧ (20 : ℤ) < 21 ∧ 4 < 5 := by decide
theorem witness_StageOutputsAreBranchSums :
    ∃ y, stage32.wf 2 ∧ (rsStage exact 2 stage32 (re 1)).2[1]? = some y :=
  ⟨_, by decide +kernel, rfl⟩

end Sys2Proof.Tests
end

/-! PROOFS. What one instruction and one step can do, said once; from it the port discipline (O13), what `CFGRD` answers
(O17), and that the designs of `START` stay while the machine runs (O32). -/

namespace Sys2Proof.Machine

/-- `ExecResult s i t`: the instruction `i` takes the machine from `s` to `t`, with one constructor for each way an
instruction can end in a next state and under its guards (45_commands.md R98 to R103, 60_exceptions.md R115, R118, R119). -/
inductive ExecResult (s : State) : Instr → State → Prop
  | badMode {i : Instr} (not_allowed : allowedIn i s.mode = false) : ExecResult s i s.badMode
  | reset : ExecResult s .reset (s.resetCore.respond .ok 0)
  | cfgwrIllegal {reg : RegNum} {imm : RegWord} (no_target : ∀ r, regOfNum reg = some r → regWritable r = false) :
      ExecResult s (.cfgwr reg imm) s.illegalCommand
  | cfgwr {reg : RegNum} {imm : RegWord} {r : Reg} (names : regOfNum reg = some r) (writable : regWritable r = true)
      (mode : s.mode = .idle) : ExecResult s (.cfgwr reg imm) ((s.writeReg r imm).respond .ok 0)
  | cfgrdIllegal {reg : RegNum} (unassigned : regOfNum reg = none) : ExecResult s (.cfgrd reg) s.illegalCommand
  | cfgrd {reg : RegNum} {r : Reg} (names : regOfNum reg = some r) :
      ExecResult s (.cfgrd reg) (s.respond .ok (s.readReg r))
  | startError {e : CfgError} (mode : s.mode = .idle) (invalid : validate s.build s.cfg = some e) :
      ExecResult s .start (s.raiseCfgError e)
  | start (mode : s.mode = .idle) (valid : validate s.build s.cfg = none) : ExecResult s .start s.startRun
  | pushHold {len : BitVec 32} (mode : s.mode = .run) (short : s.inQ.length < len.toNat) :
      ExecResult s (.push len) (s.holdPush len)
  | push {len : BitVec 32} {o : Objects} (mode : s.mode = .run) (ready : len.toNat ≤ s.inQ.length)
      (objs : s.objs = some o) : ExecResult s (.push len) (s.pushRun len o)
  | eos (mode : s.mode = .run) :
      ExecResult s .eos ((({ s with rsdelay := 0 } : State).setObjs none).setMode .done |>.respond .ok 0)
  | iqdec {a b : BitVec 16} {o : Objects} (objs : s.objs = some o) :
      ExecResult s (.iqdec a b)
        ((s.setObjs (some (sampleStep s.build o a b).1)).outWrite (pcmStream (sampleStep s.build o a b).2))

/-- Everything `CFGWR` can do, with the guards of each case. -/
theorem execCfgwr_result {reg : RegNum} {imm : RegWord} {s t : State} (h : execCfgwr reg imm s = .next t) :
    ExecResult s (.cfgwr reg imm) t := by
  unfold execCfgwr at h
  split at h
  · rename_i unassigned
    cases h
    exact .cfgwrIllegal (by simp [unassigned])
  · rename_i r names
    split at h
    · rename_i writable
      rcases guardMode_next h with ⟨allowed, e⟩ | ⟨not_allowed, rfl⟩
      · cases e
        exact .cfgwr names writable (by simpa [allowedIn] using allowed)
      · exact .badMode not_allowed
    · rename_i readOnly
      cases h
      exact .cfgwrIllegal (by simpa [names] using readOnly)

/-- Everything an instruction can do. -/
theorem exec_result {i : Instr} {s t : State} (h : exec i s = .next t) : ExecResult s i t := by
  cases i with
  | reset => cases h; exact .reset
  | cfgwr reg imm => exact execCfgwr_result h
  | cfgrd reg =>
    rcases execCfgrd_cases reg s with ⟨unassigned, e⟩ | ⟨r, names, e⟩ <;> cases e.symm.trans h
    · exact .cfgrdIllegal unassigned
    · exact .cfgrd names
  | start =>
    rcases execStart_cases s with ⟨hm, e⟩ | ⟨err, hm, invalid, e⟩ | ⟨hm, valid, e⟩ <;> cases e.symm.trans h
    · exact .badMode (by simp [allowedIn, hm])
    · exact .startError hm invalid
    · exact .start hm valid
  | push len =>
    rcases execPush_cases len s with ⟨hm, e⟩ | ⟨hm, short, e⟩ | ⟨o, hm, ready, objs, e⟩ | ⟨hm, _, _, e⟩ <;>
      cases e.symm.trans h
    · exact .badMode (by simp [allowedIn, hm])
    · exact .pushHold hm short
    · exact .push hm ready objs
  | eos =>
    rcases execEos_cases s with ⟨hm, e⟩ | ⟨hm, e⟩ <;> cases e.symm.trans h
    · exact .badMode (by simp [allowedIn, hm])
    · exact .eos hm
  | iqdec a b =>
    rcases execIqdec_cases a b s with ⟨_, e⟩ | ⟨o, objs, e⟩ <;> cases e.symm.trans h
    exact .iqdec objs

/-- The state in which fetched work runs: `q` is left on the `cmd` port and no `PUSH` waits. -/
def State.afterFetch (s : State) (q : List CmdWord) : State := { s with pushWait := none, cmdQ := q }

/-- What a step can do, for claims that do not ask which word was fetched: the core idles, or it has fetched, leaving `q`
on the `cmd` port, and turns an illegal word away or runs an instruction. -/
theorem step_next {s t : State} (h : step s = .next t) :
    t = s ∨ ∃ q, (q = s.cmdQ ∨ ∃ w, s.cmdQ = w :: q) ∧
      (t = (s.afterFetch q).illegalCommand ∨ ∃ i, exec i (s.afterFetch q) = .next t) := by
  rcases step_cases s with ⟨_, _, e⟩ | ⟨len, _, e⟩ | ⟨w, q, _, free, hq, _, e⟩ | ⟨w, q, i, free, hq, _, e⟩ <;>
    rw [e] at h
  · cases h; exact .inl rfl
  · exact .inr ⟨s.cmdQ, .inl rfl, .inr ⟨.push len, h⟩⟩
  · cases h; exact .inr ⟨q, .inr ⟨w, hq⟩, .inl (by simp [State.afterFetch, ← free])⟩
  · exact .inr ⟨q, .inr ⟨w, hq⟩, .inr ⟨i, by simpa [State.afterFetch, ← free] using h⟩⟩

/-! ## The ports -/

/-- No instruction takes from the `cmd` port: its word was taken by `fetch` (45_commands.md R97). -/
theorem exec_cmdQ {i : Instr} {s t : State} (h : exec i s = .next t) : t.cmdQ = s.cmdQ := by
  cases exec_result h <;> simp

/-- Only a `PUSH` reads the `in` port, and it takes the bytes of its chunk from the front (20_memory.md R36). -/
theorem exec_inQ {i : Instr} {s t : State} (h : exec i s = .next t) :
    ∃ n, n ≤ s.inQ.length ∧ t.inQ = s.inQ.drop n := by
  cases exec_result h with
  | @push len o mode ready objs => exact ⟨len.toNat, ready, by simp⟩
  | _ => exact ⟨0, by simp⟩

/-- What an instruction writes to `out` is a run of output samples: `PUSH` those of its chunk, `IQDEC` those of its
sample, any other none (44_quantizer.md R95). -/
theorem exec_outQ {i : Instr} {s t : State} (h : exec i s = .next t) :
    ∃ vs, t.outQ = s.outQ ++ pcmStream vs := by
  cases exec_result h with
  | push mode ready objs => exact ⟨_, State.pushRun_outQ ..⟩
  | iqdec objs => exact ⟨_, State.outWrite_outQ ..⟩
  | _ => exact ⟨[], by simp [pcmStream]⟩

/-- An instruction writes at the end of `rsp` or leaves it. -/
theorem exec_rspQ {i : Instr} {s t : State} (h : exec i s = .next t) : ∃ rs, t.rspQ = s.rspQ ++ rs := by
  cases exec_result h with
  | pushHold mode short => exact ⟨[], by simp⟩
  | iqdec objs => exact ⟨[], by simp⟩
  | _ => exact ⟨[_], rfl⟩

/-- The three ports an instruction reads or writes are queues: `in` is consumed from the front, `out` and `rsp` are
written at the end, `out` in whole samples of two bytes (10_state.md R23). -/
structure State.PortsAdvance (s t : State) : Prop where
  inQ : ∃ n, n ≤ s.inQ.length ∧ t.inQ = s.inQ.drop n
  outQ : ∃ bs, t.outQ = s.outQ ++ bs ∧ bs.length % 2 = 0
  rspQ : ∃ rs, t.rspQ = s.rspQ ++ rs

theorem State.PortsAdvance.refl (s : State) : s.PortsAdvance s := ⟨⟨0, by simp⟩, ⟨[], by simp⟩, ⟨[], by simp⟩⟩

theorem illegalCommand_portsAdvance (s : State) : s.PortsAdvance s.illegalCommand :=
  ⟨⟨0, by simp⟩, ⟨[], by simp⟩, ⟨_, State.illegalCommand_rspQ s⟩⟩

theorem exec_portsAdvance {i : Instr} {s t : State} (h : exec i s = .next t) : s.PortsAdvance t := by
  obtain ⟨vs, hvs⟩ := exec_outQ h
  exact ⟨exec_inQ h, ⟨pcmStream vs, hvs, by simp [pcmStream_length]⟩, exec_rspQ h⟩

/-- Fetching leaves the three ports alone. -/
theorem State.PortsAdvance.of_afterFetch {s t : State} {q : List CmdWord} (h : (s.afterFetch q).PortsAdvance t) :
    s.PortsAdvance t := ⟨h.inQ, h.outQ, h.rspQ⟩

theorem step_portsAdvance {s t : State} (h : step s = .next t) : s.PortsAdvance t := by
  rcases step_next h with rfl | ⟨q, _, rfl | ⟨i, e⟩⟩
  · exact .refl _
  · exact (illegalCommand_portsAdvance _).of_afterFetch
  · exact (exec_portsAdvance e).of_afterFetch

/-- A step takes at most one word from the front of the `cmd` port (20_memory.md R38). -/
theorem step_cmdQ {s t : State} (h : step s = .next t) : t.cmdQ = s.cmdQ ∨ ∃ w, s.cmdQ = w :: t.cmdQ := by
  rcases step_next h with rfl | ⟨q, taken, rfl | ⟨i, e⟩⟩
  · exact .inl rfl
  · exact taken
  · rw [exec_cmdQ e]; exact taken

/-- Settles O13: fetching takes the word from `cmd`, the instruction moves the other three ports. -/
theorem portsAreQueues : Obligations.PortsAreQueues := by
  intro s t h
  obtain ⟨inQ, outQ, rspQ⟩ := step_portsAdvance h
  exact ⟨inQ, outQ, rspQ, step_cmdQ h⟩

/-! ## `CFGRD` -/

/-- The three fields of `STATUS` do not overlap, so their concatenation is the sum of the mode's number and 4 times the
flag (10_state.md R16). -/
theorem statusWord_eq (m : Mode) (c : Bool) :
    statusWord m c = BitVec.ofNat 32 ((modeNum m).toNat + if c then 4 else 0) := by
  cases m <;> cases c <;> rfl

/-- Which register a number reads, as a table over the numbers (10_state.md R15, R16). -/
theorem readReg_of_regOfNum {s : State} {reg : RegNum} {r : Reg} (names : regOfNum reg = some r) :
    s.readReg r =
      if reg = 0 then s.cfg.inrate
      else if reg = 1 then s.cfg.outrate
      else if reg = 2 then s.cfg.bandwidth
      else if reg = 3 then s.cfg.modscheme
      else if reg = 4 then s.cfg.deviation
      else if reg = 5 then s.cfg.taps
      else if reg = 6 then s.cfg.atten
      else if reg = 0x10 then statusWord s.mode s.cmderr
      else if reg = 0x11 then s.errcode else s.rsdelay := by
  cases regNum_of_regOfNum names
  cases r <;> rfl

/-- `CFGRD` of an assigned register is allowed in every mode and answers what the register reads (45_commands.md R100). -/
theorem execCfgrd_of_assigned {reg : RegNum} {r : Reg} (s : State) (names : regOfNum reg = some r) :
    execCfgrd reg s = .next { s with rspQ := s.rspQ ++ [(s.readReg r).setWidth 64] } := by
  simp [execCfgrd, names, guardMode, allowedIn, State.respond, rspWord_ok]

/-- `CFGRD` of an unassigned number is illegal (60_exceptions.md R118). -/
theorem execCfgrd_of_unassigned {reg : RegNum} (s : State) (unassigned : regOfNum reg = none) :
    execCfgrd reg s = .next s.illegalCommand := by
  simp [execCfgrd, unassigned]

/-- Settles O17: the register number decides which of the two outcomes of `CFGRD` it is, and what is read. -/
theorem cfgrdAnswersEveryRegister : Obligations.CfgrdAnswersEveryRegister := by
  intro reg s
  rw [show exec (.cfgrd reg) s = execCfgrd reg s from rfl, ← regOfNum_eq_none_iff]
  refine ⟨fun unassigned => ?_, fun assigned => ?_⟩
  · rw [execCfgrd_of_unassigned s unassigned]
    simp [State.illegalCommand, State.respond, State.setCmderr]
  · obtain ⟨r, names⟩ := Option.ne_none_iff_exists'.mp fun none => (regOfNum_eq_none_iff reg).mp none assigned
    rw [execCfgrd_of_assigned s names, readReg_of_regOfNum names, statusWord_eq]
    cases s.mode <;> rfl

/-! ## What `START` designed -/

/-- What `START` designed of a cascade: each stage's ratio and its bank (10_state.md R19). -/
abbrev stageDesigns (sts : List RsStage) : List (ℕ × ℕ × List RealNum) := sts.map fun st => (st.p, st.q, st.coef)

/-- A sample through the cascade writes histories, heads and accumulators alone: no ratio and no bank. -/
theorem feed_stageDesigns (N : Numerics) (M n : ℕ) (sts : List RsStage) (v : Cplx) :
    stageDesigns (feed N M n sts v).1 = stageDesigns sts := by
  induction n generalizing sts v with
  | zero => cases sts <;> rfl
  | succ n ih =>
    cases sts with
    | nil => rfl
    | cons st rest =>
      have rest_keeps : stageDesigns ((rsStage N M st v).2.foldl
          (fun a y => ((feed N M n a.1 y).1, a.2 ++ (feed N M n a.1 y).2)) (rest, [])).1 = stageDesigns rest :=
        List.foldlRecOn (motive := fun a : List RsStage × List Cplx => stageDesigns a.1 = stageDesigns rest) _ _ rfl
          fun a ha y _ => (ih a.1 y).trans ha
      simp only [feed, List.map_cons, rsStage_p, rsStage_q, rsStage_coef, rest_keeps]

/-- Two sets of objects with the same latched values and the same designs: they differ at most in what samples write,
the histories, heads, accumulators and the previous sample (10_state.md R17 to R21). -/
structure Objects.SameDesign (o p : Objects) : Prop where
  inRate : p.inRate = o.inRate
  outRate : p.outRate = o.outRate
  firFc : p.firFc = o.firFc
  att : p.att = o.att
  firLen : p.fir.len = o.fir.len
  firCoef : p.fir.coef = o.fir.coef
  rsM : p.rs.m = o.rs.m
  delay : p.rs.delay = o.rs.delay
  stages : stageDesigns p.rs.stages = stageDesigns o.rs.stages
  kf : p.fm.kf = o.fm.kf

theorem Objects.SameDesign.refl (o : Objects) : o.SameDesign o := ⟨rfl, rfl, rfl, rfl, rfl, rfl, rfl, rfl, rfl, rfl⟩

theorem Objects.SameDesign.trans {o p r : Objects} (h : o.SameDesign p) (k : p.SameDesign r) : o.SameDesign r where
  inRate := k.inRate.trans h.inRate
  outRate := k.outRate.trans h.outRate
  firFc := k.firFc.trans h.firFc
  att := k.att.trans h.att
  firLen := k.firLen.trans h.firLen
  firCoef := k.firCoef.trans h.firCoef
  rsM := k.rsM.trans h.rsM
  delay := k.delay.trans h.delay
  stages := k.stages.trans h.stages
  kf := k.kf.trans h.kf

/-- One sample through the five stages keeps the designs. -/
theorem sampleStepWith_sameDesign (N : Numerics) (t : QTie) (o : Objects) (i q : BitVec 16) :
    o.SameDesign (sampleStepWith N t o i q).1 where
  inRate := rfl
  outRate := rfl
  firFc := rfl
  att := rfl
  firLen := rfl
  firCoef := rfl
  rsM := rfl
  delay := rfl
  stages := feed_stageDesigns ..
  kf := fmDemAll_kf ..

/-- A chunk keeps the designs. -/
theorem chunkLoopWith_sameDesign (N : Numerics) (t : QTie) (o : Objects) (ws : List IqWord) :
    o.SameDesign (chunkLoopWith N t o ws).1 := by
  induction ws generalizing o with
  | nil => exact .refl o
  | cons w ws ih => exact (sampleStepWith_sameDesign N t o (iqI w) (iqQ w)).trans (ih _)

/-- The configuration, `RSDELAY` and, where there are objects before and after, their designs are kept. -/
structure State.KeepsDesign (s t : State) : Prop where
  cfg : t.cfg = s.cfg
  rsdelay : t.rsdelay = s.rsdelay
  objs : ∀ o p, s.objs = some o → t.objs = some p → o.SameDesign p

/-- A step that leaves the objects alone. -/
theorem State.KeepsDesign.of_objs_eq {s t : State} (cfg : t.cfg = s.cfg) (rsdelay : t.rsdelay = s.rsdelay)
    (objs : t.objs = s.objs) : s.KeepsDesign t :=
  ⟨cfg, rsdelay, fun o p ho hp => by cases ho.symm.trans (objs.symm.trans hp); exact .refl o⟩

/-- From `RUN` to `RUN` only the instructions that process samples write the objects: `CFGWR` and `START` are turned away
(45_commands.md R108), `RESET` and `EOS` leave `RUN`. -/
theorem exec_keepsDesign {i : Instr} {s t : State} (hs : s.mode = .run) (ht : t.mode = .run)
    (h : exec i s = .next t) : s.KeepsDesign t := by
  cases exec_result h with
  | reset => cases ht
  | eos _ => cases ht
  | cfgwr _ _ mode => cases hs.symm.trans mode
  | startError mode _ => cases hs.symm.trans mode
  | start mode _ => cases hs.symm.trans mode
  | push _ _ objs =>
    refine ⟨rfl, rfl, fun o p ho hp => ?_⟩
    cases objs.symm.trans ho
    cases hp
    exact chunkLoopWith_sameDesign ..
  | iqdec objs =>
    refine ⟨rfl, rfl, fun o p ho hp => ?_⟩
    cases objs.symm.trans ho
    cases hp
    exact sampleStepWith_sameDesign ..
  | badMode _ | cfgwrIllegal _ | cfgrdIllegal _ | cfgrd _ | pushHold _ _ => exact .of_objs_eq rfl rfl rfl

theorem step_keepsDesign {s t : State} (hs : s.mode = .run) (ht : t.mode = .run) (h : step s = .next t) :
    s.KeepsDesign t := by
  rcases step_next h with rfl | ⟨q, _, rfl | ⟨i, e⟩⟩
  · exact .of_objs_eq rfl rfl rfl
  · exact .of_objs_eq rfl rfl rfl
  · obtain ⟨cfg, rsdelay, objs⟩ := exec_keepsDesign (s := s.afterFetch q) hs ht e
    exact ⟨cfg, rsdelay, objs⟩

/-- Settles O32: the designs stay because samples write none of them and every command that does is turned away or
leaves `RUN`. -/
theorem designsAreImmutableWhileRunning : Obligations.DesignsAreImmutableWhileRunning := by
  intro s t o p hs ht ho hp h
  obtain ⟨cfg, rsdelay, objs⟩ := step_keepsDesign hs ht h
  obtain ⟨inRate, outRate, firFc, att, firLen, firCoef, rsM, delay, stages, kf⟩ := objs o p ho hp
  exact ⟨cfg, rsdelay, inRate, outRate, firFc, att, firLen, firCoef, rsM, delay, stages, kf⟩

end Sys2Proof.Machine

/-! PROOFS. What a `PUSH` does with the bytes of its chunk: stray bytes behind the last whole sample change nothing
(O24), and the response counts the samples written (O53). -/

namespace Sys2Proof.Machine

/-- `s`, from whose `in` port a chunk has been taken, with objects `o`: the samples `ws` of the chunk have gone through
every stage, their output samples are written and counted in the response (45_commands.md R102). -/
def State.afterSamples (s : State) (o : Objects) (ws : List IqWord) : State :=
  ((s.setObjs (some (chunkLoop s.build o ws).1)).outWrite (pcmStream (chunkLoop s.build o ws).2)).respond .ok
    (BitVec.ofNat 32 (chunkLoop s.build o ws).2.length)

@[simp] theorem State.afterSamples_inQ (s : State) (o : Objects) (ws : List IqWord) :
    (s.afterSamples o ws).inQ = s.inQ := rfl

/-- Of the bytes of its chunk a `PUSH` uses only the whole samples. -/
theorem State.pushRun_chunk {s : State} {len : BitVec 32} {chunk more : List Byte} (o : Objects)
    (hlen : len.toNat = chunk.length) (hin : s.inQ = chunk ++ more) :
    s.pushRun len o = { s with inQ := more }.afterSamples o (iqWords chunk) := by
  simp [State.pushRun, State.afterSamples, State.inTake, State.inDrop, zext32, hlen, hin]

/-- A `PUSH` of all the bytes of `chunk`, with `more` queued behind them, completes in a running machine. -/
theorem exec_push_chunk {s : State} {o : Objects} {chunk more : List Byte} (mode : s.mode = .run)
    (objs : s.objs = some o) (short : chunk.length < 2 ^ 32) :
    exec (.push (BitVec.ofNat 32 chunk.length)) { s with inQ := chunk ++ more } =
      .next ({ s with inQ := more }.afterSamples o (iqWords chunk)) := by
  have hlen : (BitVec.ofNat 32 chunk.length).toNat = chunk.length := by
    rw [BitVec.toNat_ofNat, Nat.mod_eq_of_lt short]
  have completes := execPush_ready (len := BitVec.ofNat 32 chunk.length) (s := { s with inQ := chunk ++ more }) mode
    (by simp [hlen]) objs
  exact completes.trans (congrArg Host.Outcome.next (State.pushRun_chunk o hlen rfl))

/-- The bytes that complete no sample are dropped by the framing (40_iq_decoder.md R61). -/
theorem iqWords_append_tail {xs tail : List Byte} (whole : xs.length % 4 = 0) (stray : tail.length < 4) :
    iqWords (xs ++ tail) = iqWords xs := by
  rw [iqWords_append xs tail whole, iqWords_short stray, List.append_nil]

/-- Settles O24: both chunks hold the same whole samples, so both `PUSH`es reach the same state. -/
theorem trailingBytesAreDropped : Obligations.TrailingBytesAreDropped := by
  intro s xs tail more mode objs whole stray short
  obtain ⟨o, objs⟩ := Option.ne_none_iff_exists'.mp objs
  have without := exec_push_chunk (more := more) mode objs (chunk := xs) (by omega)
  have withTail := exec_push_chunk (more := more) mode objs (chunk := xs ++ tail) (by simpa using short)
  rw [iqWords_append_tail whole stray, List.append_assoc, List.length_append] at withTail
  exact ⟨_, without, withTail, State.afterSamples_inQ ..⟩

/-- Settles O53: of the ways a `PUSH` can end, it is turned away outside `RUN` alone and a held one still waits; the one
left writes `n` samples of two bytes each and answers `n`. -/
theorem pushCountsWhatItWrote : Obligations.PushCountsWhatItWrote := by
  intro len s t h completes mode
  cases exec_result h with
  | badMode not_allowed => simp [allowedIn, mode] at not_allowed
  | pushHold _ _ => simp at completes
  | @push _ o _ _ _ =>
    exact ⟨(chunkLoop s.build o (iqWords (s.inQ.take len.toNat))).2.length, by simp [pcmStream_length],
      State.pushRun_rspQ .., State.pushRun_inQ ..⟩

end Sys2Proof.Machine

/-! PROOFS. The command words: which of them the decoder refuses (O4), and the bytes of a word on a byte-wide transport
(O54). -/

namespace Sys2Proof.Machine

/-! ## Refused words -/

/-- A check that refuses adds its condition to those of the rest. -/
theorem ite_error_iff {p : Prop} [Decidable p] {e₀ : DecodeError} {x : Except DecodeError Instr} :
    (∃ e, (if p then .error e₀ else x) = .error e) ↔ p ∨ ∃ e, x = .error e := by
  split <;> simp_all

theorem decodePlain_error_iff {i : Instr} {reg : RegNum} {imm : BitVec 32} :
    (∃ e, decodePlain i reg imm = .error e) ↔ reg ≠ 0 ∨ imm ≠ 0 := by
  rw [decodePlain, ite_error_iff, ite_error_iff]
  simp

/-- The registers `CFGWR` may not write are the three status registers (10_state.md R16). -/
theorem regWritable_eq_false_iff {n : RegNum} {r : Reg} (h : regOfNum n = some r) :
    regWritable r = false ↔ n.toNat ∈ [0x10, 0x11, 0x12] := by
  revert n r; decide

theorem decodeFields_reset : decodeFields 1 = decodePlain .reset := rfl
theorem decodeFields_start : decodeFields 4 = decodePlain .start := rfl
theorem decodeFields_eos : decodeFields 6 = decodePlain .eos := rfl

theorem decodeFields_cfgwr_error_iff {reg : RegNum} {imm : BitVec 32} :
    (∃ e, decodeFields 2 reg imm = .error e) ↔
      reg.toNat ∉ [0, 1, 2, 3, 4, 5, 6, 0x10, 0x11, 0x12] ∨ reg.toNat ∈ [0x10, 0x11, 0x12] := by
  rw [← regOfNum_eq_none_iff]
  cases hr : regOfNum reg with
  | none => simp [decodeFields, hr]
  | some r =>
    rw [← regWritable_eq_false_iff hr]
    cases hw : regWritable r <;> simp [decodeFields, hr, hw]

theorem decodeFields_cfgrd_error_iff {reg : RegNum} {imm : BitVec 32} :
    (∃ e, decodeFields 3 reg imm = .error e) ↔
      reg.toNat ∉ [0, 1, 2, 3, 4, 5, 6, 0x10, 0x11, 0x12] ∨ imm ≠ 0 := by
  rw [← regOfNum_eq_none_iff]
  cases hr : regOfNum reg with
  | none => simp [decodeFields, hr]
  | some r =>
    have fields : decodeFields 3 reg imm = if imm ≠ 0 then .error .immNotZero else .ok (.cfgrd reg) := by
      simp [decodeFields, hr]
    rw [fields, ite_error_iff]
    simp

theorem decodeFields_push_error_iff {reg : RegNum} {imm : BitVec 32} :
    (∃ e, decodeFields 5 reg imm = .error e) ↔ reg ≠ 0 := by
  rw [show decodeFields 5 reg imm = if reg ≠ 0 then .error .regNotZero else .ok (.push imm) from rfl, ite_error_iff]
  simp

theorem decodeFields_of_unassigned {op : BitVec 8} (reg : RegNum) (imm : BitVec 32)
    (h : op.toNat ∉ [1, 2, 3, 4, 5, 6]) : decodeFields op reg imm = .error .unassignedOpcode := by
  unfold decodeFields
  split <;> simp_all

theorem decodeCmd_error_iff {w : CmdWord} :
    (∃ e, decodeCmd w = .error e) ↔
      cmdRsv w ≠ 0 ∨ ∃ e, decodeFields (cmdOpcode w) (cmdReg w) (cmdImm w) = .error e :=
  ite_error_iff

/-- The six assigned opcodes (30_encoding.md R48). -/
theorem opcode_cases {op : BitVec 8} (h : op.toNat ∈ [1, 2, 3, 4, 5, 6]) :
    op = 1 ∨ op = 2 ∨ op = 3 ∨ op = 4 ∨ op = 5 ∨ op = 6 := by
  revert op; decide

/-- Settles O4: apart from `rsv` the opcode says which clauses can apply, and those are the ones its row of the decoder
checks. -/
theorem illegalWordsAreThoseOfTheRule : Obligations.IllegalWordsAreThoseOfTheRule := by
  intro w
  rw [decodeCmd_error_iff]
  generalize cmdOpcode w = op
  by_cases assigned : op.toNat ∈ [1, 2, 3, 4, 5, 6]
  · obtain rfl | rfl | rfl | rfl | rfl | rfl := opcode_cases assigned
    · rw [decodeFields_reset, decodePlain_error_iff]; simp
    · rw [decodeFields_cfgwr_error_iff]; simp
    · rw [decodeFields_cfgrd_error_iff]; simp [or_comm]
    · rw [decodeFields_start, decodePlain_error_iff]; simp
    · rw [decodeFields_push_error_iff]; simp
    · rw [decodeFields_eos, decodePlain_error_iff]; simp
  · have refused := decodeFields_of_unassigned (cmdReg w) (cmdImm w) assigned
    exact iff_of_true (.inr ⟨_, refused⟩) (.inl assigned)

/-! ## Transport -/

@[simp] theorem bytesLE_length (n w : ℕ) : (bytesLE n w).length = n := by
  induction n generalizing w with
  | zero => rfl
  | succ n ih => simp [bytesLE, ih]

theorem bytesLE_getElem? {n k : ℕ} (w : ℕ) (h : k < n) :
    (bytesLE n w)[k]? = some (BitVec.ofNat 8 (w / 256 ^ k)) := by
  induction n generalizing w k with
  | zero => omega
  | succ n ih =>
    cases k with
    | zero => simp [bytesLE]
    | succ k =>
      rw [bytesLE, List.getElem?_cons_succ, ih _ (by omega), Nat.div_div_eq_div_mul, Nat.pow_succ']

/-- Reading `n` bytes back gives the number modulo `256 ^ n`. -/
theorem natOfBytesLE_bytesLE (n w : ℕ) : natOfBytesLE (bytesLE n w) = w % 256 ^ n := by
  induction n generalizing w with
  | zero => simp [bytesLE, natOfBytesLE, Nat.mod_one]
  | succ n ih =>
    have low : (BitVec.ofNat 8 w).toNat = w % 256 := BitVec.toNat_ofNat ..
    rw [bytesLE, natOfBytesLE, ih, low, Nat.pow_succ', Nat.mod_mul]

/-- Byte `k` of a word is its bits `8k + 7` to `8k`. -/
theorem bytesLE_toNat_getElem? {m n k : ℕ} (w : BitVec m) (h : k < n) :
    (bytesLE n w.toNat)[k]? = some (w.extractLsb' (8 * k) 8) := by
  have shift : w.toNat / 256 ^ k = w.toNat >>> (8 * k) := by rw [Nat.shiftRight_eq_div_pow, Nat.pow_mul]
  rw [bytesLE_getElem? _ h, shift]
  rfl

/-- The eight bytes of a 64-bit word give its number back. -/
theorem natOfBytesLE_bytesLE_word (w : BitVec 64) : natOfBytesLE (bytesLE 8 w.toNat) = w.toNat := by
  rw [natOfBytesLE_bytesLE]
  exact Nat.mod_eq_of_lt w.isLt

theorem decodeCmdBytes_cmdTransport (w : CmdWord) : decodeCmdBytes (cmdTransport w) = decodeCmd w := by
  rw [decodeCmdBytes, cmdTransport, natOfBytesLE_bytesLE_word, BitVec.ofNat_toNat, BitVec.setWidth_eq]

/-- Settles O54: both transports are the low-byte-first bytes of the word's number. -/
theorem transportIsLowByteFirst : Obligations.TransportIsLowByteFirst :=
  ⟨fun w => ⟨bytesLE_length .., decodeCmdBytes_cmdTransport w, fun _ hk => bytesLE_toNat_getElem? w hk⟩,
    fun w => ⟨bytesLE_length .., natOfBytesLE_bytesLE_word w, fun _ hk => bytesLE_toNat_getElem? w hk⟩⟩

end Sys2Proof.Machine

/-! PROOFS. The IQ decoder: a coordinate is its signed field over 32768 (O33), and a chunk holds one sample for each
four bytes from its start (O35). -/

namespace Sys2Proof.Machine

/-! ## One coordinate -/

/-- The coordinate a 16-bit field decodes to (40_iq_decoder.md R60). -/
def iqCoord (v : BitVec 16) : RealNum := .rat ((v.toInt : ℚ) / 32768)

theorem iqSample_eq (i q : BitVec 16) : iqSample i q = ⟨iqCoord i, iqCoord q⟩ := rfl

theorem iqCoord_val (v : BitVec 16) : (iqCoord v).val = (v.toInt : ℝ) / 32768 := by
  simp [iqCoord]

theorem iqCoord_val_mul (v : BitVec 16) : (iqCoord v).val * 32768 = v.toInt := by
  rw [iqCoord_val]
  exact div_mul_cancel₀ _ (by norm_num)

/-- The interval of a coordinate, that of a 16-bit signed integer scaled (40_iq_decoder.md R62). -/
theorem iqCoord_mem_Icc (v : BitVec 16) : (iqCoord v).val ∈ Set.Icc (-1 : ℝ) (32767 / 32768) := by
  have lower : ((-32768 : ℤ) : ℝ) ≤ v.toInt := Int.cast_le.mpr v.le_toInt
  have upper : (v.toInt : ℝ) ≤ (32767 : ℤ) := Int.cast_le.mpr (Int.le_of_lt_add_one v.toInt_lt)
  push_cast at lower upper
  have scaled := iqCoord_val_mul v
  constructor <;> linarith

/-- The field comes back from its coordinate (40_iq_decoder.md R63). -/
theorem ofInt_floor_iqCoord (v : BitVec 16) : BitVec.ofInt 16 ⌊(iqCoord v).val * 32768⌋ = v := by
  rw [iqCoord_val_mul, Int.floor_intCast, BitVec.ofInt_toInt]

/-- Settles O33: the two coordinates of a sample are decoded alike, so the facts about one give those about both. -/
theorem iqdecDecodesExactly : Obligations.IqdecDecodesExactly := by
  intro i q
  obtain ⟨re_lower, re_upper⟩ := iqCoord_mem_Icc i
  obtain ⟨im_lower, im_upper⟩ := iqCoord_mem_Icc q
  rw [iqSample_eq]
  exact ⟨rfl, re_lower, re_upper, im_lower, im_upper, ofInt_floor_iqCoord i, ofInt_floor_iqCoord q⟩

/-! ## A chunk -/

/-- Four stream bytes are the two fields of a sample word, in-phase field first, low byte first (20_memory.md R33). -/
theorem iqOfBytes_eq_fields (b0 b1 b2 b3 : Byte) :
    iqOfBytes b0 b1 b2 b3 = (b3 ++ b2 : BitVec 16) ++ (b1 ++ b0 : BitVec 16) :=
  BitVec.append_assoc

@[simp] theorem iqI_iqOfBytes (b0 b1 b2 b3 : Byte) : iqI (iqOfBytes b0 b1 b2 b3) = b1 ++ b0 := by
  rw [iqOfBytes_eq_fields, iqI_append]

@[simp] theorem iqQ_iqOfBytes (b0 b1 b2 b3 : Byte) : iqQ (iqOfBytes b0 b1 b2 b3) = b3 ++ b2 := by
  rw [iqOfBytes_eq_fields, iqQ_append]

/-- Bytes `4j` to `4j + 3` of a chunk make word `j`. -/
theorem iqWords_getElem? {b0 b1 b2 b3 : Byte} : ∀ (bs : List Byte) (j : ℕ), bs[4 * j]? = some b0 →
    bs[4 * j + 1]? = some b1 → bs[4 * j + 2]? = some b2 → bs[4 * j + 3]? = some b3 →
    (iqWords bs)[j]? = some (iqOfBytes b0 b1 b2 b3)
  | [], _, _, _, _, h3 | [_], _, _, _, _, h3 | [_, _], _, _, _, _, h3 | [_, _, _], _, _, _, _, h3 => by simp at h3
  | _ :: _ :: _ :: _ :: _, 0, rfl, rfl, rfl, rfl => rfl
  | _ :: _ :: _ :: _ :: rest, j + 1, h0, h1, h2, h3 => iqWords_getElem? rest j h0 h1 h2 h3

theorem iqDecode_length (bs : List Byte) : (iqDecode bs).length = bs.length / 4 := by
  rw [iqDecode, List.length_map, iqWords_length]

/-- Settles O35: the words of a chunk are framed four bytes each, and a word decodes field by field. -/
theorem chunkFraming : Obligations.ChunkFraming := by
  intro bs
  refine ⟨iqDecode_length bs, fun j b0 b1 b2 b3 h0 h1 h2 h3 => ?_⟩
  rw [iqDecode, List.getElem?_map, iqWords_getElem? bs j h0 h1 h2 h3, Option.map_some, iqI_iqOfBytes, iqQ_iqOfBytes]
  rfl

end Sys2Proof.Machine

/-! PROOFS. The resampler: a stage keeps its form and its phase accumulator below `Q` (O40), a `PUSH` writes no more than
the bound of its bytes (O43), and the default plan realizes its ratio (O39). -/

namespace Sys2Proof.Machine

/-! ## One stage -/

theorem headNext_lt {head M : ℕ} (inside : head < M) : headNext head M < M := Nat.mod_lt _ (by omega)

/-- `RSSTAGE` keeps the form of a stage; that of the accumulator is 42_resampler.md R83. -/
theorem rsStage_wf (N : Numerics) {M : ℕ} {st : RsStage} (x : Cplx) (h : st.wf M) : (rsStage N M st x).1.wf M := by
  obtain ⟨p_pos, q_pos, coprime, coef, hist, head, acc⟩ := h
  obtain ⟨_, _, _, _, acc_lt⟩ := rsStage_spec N M st x
  exact ⟨p_pos, q_pos, coprime, coef, (rsStage_hist_length N M st x).trans hist, headNext_lt head, acc_lt q_pos acc⟩

/-- Settles O40: of the form of a stage, a sample writes the history, the head and the accumulator alone. -/
theorem phaseAccumulatorStaysBelowQ : Obligations.PhaseAccumulatorStaysBelowQ :=
  fun N _ _ x h => rsStage_wf N x h

/-! ## Output counts -/

/-- With the accumulator below `Q` the ceiling of a stage's count needs no truncation at 0. -/
theorem stageCount_eq {P Q a : ℕ} (below : a < Q) (n : ℕ) : stageCount P Q a n = (n * P + (Q - 1 - a)) / Q := by
  rw [stageCount]
  by_cases reached : a ≤ n * P
  · congr 1; omega
  · rw [Nat.div_eq_of_lt (by omega), Nat.div_eq_of_lt (by omega)]

/-- The first of a stage's inputs gives the outputs of its `RSSTAGE`, the others what is counted from the accumulator it
leaves. -/
theorem stageCount_succ (N : Numerics) {M : ℕ} {st : RsStage} (x : Cplx) (h : st.wf M) (n : ℕ) :
    stageCount st.p st.q st.acc (n + 1) =
      (rsStage N M st x).2.length + stageCount st.p st.q (rsStage N M st x).1.acc n := by
  obtain ⟨_, q_pos, _, _, _, _, below⟩ := h
  obtain ⟨_, _, _, acc_eq, acc_lt⟩ := rsStage_spec N M st x
  have acc_eq := acc_eq q_pos
  have acc_lt := acc_lt q_pos below
  have split_off : (n + 1) * st.p + (st.q - 1 - st.acc) =
      n * st.p + (st.q - 1 - (rsStage N M st x).1.acc) + (rsStage N M st x).2.length * st.q := by
    rw [Nat.succ_mul]; omega
  rw [stageCount_eq below, stageCount_eq acc_lt, split_off, Nat.add_mul_div_right _ _ q_pos, Nat.add_comm]

/-- `AdvancesTo M sts sts' ins outs`: the counts fit that the cascade `sts` became `sts'` by taking `ins` inputs and
giving `outs` outputs. The stages of `sts'` are legal, and however many inputs follow, `sts` counts for all of them `outs`
and what `sts'` counts for those that follow (42_resampler.md R78). -/
structure AdvancesTo (M : ℕ) (sts sts' : List RsStage) (ins outs : ℕ) : Prop where
  wf : ∀ st ∈ sts', st.wf M
  length : sts'.length = sts.length
  count : ∀ n, cascadeCount sts (ins + n) = outs + cascadeCount sts' n

theorem AdvancesTo.refl {M : ℕ} {sts : List RsStage} (wf : ∀ st ∈ sts, st.wf M) : AdvancesTo M sts sts 0 0 :=
  ⟨wf, rfl, fun n => by rw [Nat.zero_add, Nat.zero_add]⟩

theorem AdvancesTo.trans {M : ℕ} {sts sts' sts'' : List RsStage} {i i' k k' : ℕ} (h : AdvancesTo M sts sts' i k)
    (h' : AdvancesTo M sts' sts'' i' k') : AdvancesTo M sts sts'' (i + i') (k + k') :=
  ⟨h'.wf, h'.length.trans h.length, fun n => by rw [Nat.add_assoc, h.count, h'.count, Nat.add_assoc]⟩

/-- One round of the loop of `feed`: the stages behind take one output `y` of the stage in front, `a` the stages and the
outputs so far (42_resampler.md R77). -/
def feedRound (N : Numerics) (M n : ℕ) (a : List RsStage × List Cplx) (y : Cplx) : List RsStage × List Cplx :=
  ((feed N M n a.1 y).1, a.2 ++ (feed N M n a.1 y).2)

theorem feed_cons (N : Numerics) (M n : ℕ) (st : RsStage) (rest : List RsStage) (v : Cplx) :
    feed N M (n + 1) (st :: rest) v =
      ((rsStage N M st v).1 :: ((rsStage N M st v).2.foldl (feedRound N M n) (rest, [])).1,
        ((rsStage N M st v).2.foldl (feedRound N M n) (rest, [])).2) := rfl

/-- If one input advances a cascade of `len` stages by the outputs of `feed`, then the loop over `ys` advances it by
`ys.length` inputs and the outputs it collects. -/
theorem advancesTo_foldl_feedRound {N : Numerics} {M n len : ℕ}
    (feeds : ∀ (sts : List RsStage) (v : Cplx), sts.length = len → (∀ st ∈ sts, st.wf M) →
      AdvancesTo M sts (feed N M n sts v).1 1 (feed N M n sts v).2.length)
    {sts : List RsStage} (hlen : sts.length = len) (ys : List Cplx) {a : List RsStage × List Cplx} {i : ℕ}
    (sofar : AdvancesTo M sts a.1 i a.2.length) :
    AdvancesTo M sts (ys.foldl (feedRound N M n) a).1 (i + ys.length) (ys.foldl (feedRound N M n) a).2.length := by
  induction ys generalizing a i with
  | nil => exact sofar
  | cons y ys ih =>
    have round := sofar.trans (feeds a.1 y (sofar.length.trans hlen) sofar.wf)
    rw [← List.length_append] at round
    rw [List.length_cons, Nat.add_comm ys.length, ← Nat.add_assoc]
    exact ih (a := feedRound N M n a y) round

/-- One input sample advances a cascade by the outputs of `feed`. -/
theorem feed_advancesTo (N : Numerics) {M : ℕ} (n : ℕ) (sts : List RsStage) (v : Cplx) (hlen : sts.length = n)
    (wf : ∀ st ∈ sts, st.wf M) : AdvancesTo M sts (feed N M n sts v).1 1 (feed N M n sts v).2.length := by
  induction n generalizing sts v with
  | zero =>
    cases List.eq_nil_of_length_eq_zero hlen
    exact ⟨wf, rfl, fun _ => rfl⟩
  | succ n ih =>
    cases sts with
    | nil => cases hlen
    | cons st rest =>
      obtain ⟨st_wf, rest_wf⟩ := List.forall_mem_cons.mp wf
      have behind := advancesTo_foldl_feedRound ih (Nat.succ.inj hlen) (rsStage N M st v).2
        (a := (rest, [])) (.refl rest_wf)
      rw [Nat.zero_add] at behind
      rw [feed_cons]
      refine ⟨List.forall_mem_cons.mpr ⟨rsStage_wf N v st_wf, behind.wf⟩, congrArg Nat.succ behind.length, fun m => ?_⟩
      calc cascadeCount (st :: rest) (1 + m)
          = cascadeCount rest (stageCount st.p st.q st.acc (m + 1)) := by rw [Nat.add_comm]; rfl
        _ = _ := by rw [stageCount_succ N v st_wf, behind.count]; rfl

/-! ## The bound of a `PUSH` -/

/-- A sample through the five stages gives the outputs of the cascade: the filter gives one sample, and the demodulator
and the quantizer answer each of theirs with one. -/
theorem sampleStepWith_advancesTo (N : Numerics) (t : QTie) {M : ℕ} {o : Objects} (i q : BitVec 16) (hM : o.rs.m = M)
    (wf : ∀ st ∈ o.rs.stages, st.wf M) :
    AdvancesTo M o.rs.stages (sampleStepWith N t o i q).1.rs.stages 1 (sampleStepWith N t o i q).2.length := by
  subst hM
  simpa [sampleStepWith, rsStep] using feed_advancesTo N _ o.rs.stages (firStep N o.fir (iqSample i q)).2 rfl wf

theorem chunkLoopWith_advancesTo (N : Numerics) (t : QTie) {M : ℕ} (ws : List IqWord) {o : Objects} (hM : o.rs.m = M)
    (wf : ∀ st ∈ o.rs.stages, st.wf M) :
    AdvancesTo M o.rs.stages (chunkLoopWith N t o ws).1.rs.stages ws.length (chunkLoopWith N t o ws).2.length := by
  induction ws generalizing o with
  | nil => exact .refl wf
  | cons w ws ih =>
    have first := sampleStepWith_advancesTo N t (iqI w) (iqQ w) hM wf
    have others := ih (o := (sampleStepWith N t o (iqI w) (iqQ w)).1) hM first.wf
    simpa [chunkLoopWith, Nat.add_comm] using first.trans others

theorem stageCount_le {P Q a n n' : ℕ} (h : n ≤ n') : stageCount P Q a n ≤ stageCount P Q 0 n' := by
  have := Nat.mul_le_mul_right P h
  exact Nat.div_le_div_right (by omega)

/-- A larger accumulator in any stage means no more outputs: the bound is the count with the accumulators at 0. -/
theorem cascadeCount_le_outputBound (sts : List RsStage) {n n' : ℕ} (h : n ≤ n') :
    cascadeCount sts n ≤ outputBound sts n' := by
  induction sts generalizing n n' with
  | nil => exact h
  | cons st rest ih => exact ih (stageCount_le h)

/-- A chunk of `ws.length` samples gives at most the bound of 42_resampler.md R84. -/
theorem chunkLoop_length_le (b : Build) {o : Objects} (wf : o.wf) (ws : List IqWord) :
    (chunkLoop b o ws).2.length ≤ outputBound o.rs.stages ws.length := by
  obtain ⟨_, ⟨_, _, stages_wf⟩, _⟩ := wf
  calc (chunkLoop b o ws).2.length
      ≤ cascadeCount o.rs.stages (ws.length + 0) := by
        rw [(chunkLoopWith_advancesTo (numericsOf b) b.qtie ws rfl stages_wf).count]
        exact Nat.le_add_right ..
    _ ≤ outputBound o.rs.stages ws.length := cascadeCount_le_outputBound _ le_rfl

/-- Settles O43: with its bytes there a `PUSH` decodes `len / 4` samples, and each output sample is two bytes. -/
theorem pushOutputBound : Obligations.PushOutputBound := by
  intro s t o len mode objs wf ready h
  cases (execPush_ready mode ready objs).symm.trans h
  have bound := chunkLoop_length_le s.build wf (iqWords (s.inQ.take len.toNat))
  rw [iqWords_length, List.length_take, Nat.min_eq_left ready] at bound
  rw [State.pushRun_outQ, List.length_append, pcmStream_length]
  omega

/-! ## The default plan -/

/-- `reduce(x, y)` takes out a common factor and leaves a coprime pair. -/
theorem reduceRatio_spec {x y : ℕ} (hx : 1 ≤ x) :
    ∃ g, 1 ≤ g ∧ g * (reduceRatio x y).1 = x ∧ g * (reduceRatio x y).2 = y ∧
      Nat.gcd (reduceRatio x y).1 (reduceRatio x y).2 = 1 :=
  have gcd_pos := Nat.gcd_pos_of_pos_left y hx
  ⟨Nat.gcd x y, gcd_pos, Nat.mul_div_cancel' (Nat.gcd_dvd_left x y), Nat.mul_div_cancel' (Nat.gcd_dvd_right x y),
    Nat.coprime_div_gcd_div_gcd gcd_pos⟩

/-- Reducing keeps a ratio within a factor of 2 below 1. -/
theorem reduceRatio_snd_bounds {x y : ℕ} (hx : 1 ≤ x) (le : x ≤ y) (lt : y < 2 * x) :
    (reduceRatio x y).1 ≤ (reduceRatio x y).2 ∧ (reduceRatio x y).2 < 2 * (reduceRatio x y).1 := by
  obtain ⟨g, g_pos, x_eq, y_eq, _⟩ := reduceRatio_spec (y := y) hx
  constructor
  · exact Nat.le_of_mul_le_mul_left (by omega) g_pos
  · exact Nat.lt_of_mul_lt_mul_left (a := g) (by rw [Nat.mul_left_comm]; omega)

theorem reduceRatio_swap (x y : ℕ) : reduceRatio x y = (reduceRatio y x).swap := by
  rw [reduceRatio, reduceRatio, Nat.gcd_comm]; rfl

/-- Equal stages `(c, d)` and one reduced stage, in any order, are a plan of `P/Q` if their ratios multiply to it. -/
theorem planOk_of_perm {P Q x y c d k : ℕ} {plan : List (ℕ × ℕ)}
    (stages : plan.Perm (reduceRatio x y :: List.replicate k (c, d))) (hx : 1 ≤ x) (hy : 1 ≤ y)
    (hcd : 1 ≤ c ∧ 1 ≤ d ∧ Nat.gcd c d = 1) (ratio : x * c ^ k * Q = y * d ^ k * P) : planOk P Q plan := by
  obtain ⟨g, g_pos, x_eq, y_eq, coprime⟩ := reduceRatio_spec (y := y) hx
  refine ⟨fun nil => ?_, fun s hs => ?_, Nat.eq_of_mul_eq_mul_left g_pos ?_⟩
  · simp [nil] at stages
  · rcases List.mem_cons.mp (stages.mem_iff.mp hs) with rfl | hs
    · exact ⟨Nat.pos_of_mul_pos_left (hx.trans_eq x_eq.symm), Nat.pos_of_mul_pos_left (hy.trans_eq y_eq.symm), coprime⟩
    · rw [List.eq_of_mem_replicate hs]; exact hcd
  · rw [(stages.map Prod.fst).prod_eq, (stages.map Prod.snd).prod_eq]
    simpa [← Nat.mul_assoc, x_eq, y_eq] using ratio

theorem defaultPlan_of_lt {P Q : ℕ} (h : P < Q) : defaultPlan P Q =
    List.replicate (largestPow P Q) (1, 2) ++ [reduceRatio (2 ^ largestPow P Q * P) Q] := if_pos h

theorem defaultPlan_of_le {P Q : ℕ} (h : Q ≤ P) : defaultPlan P Q =
    reduceRatio P (2 ^ largestPow Q P * Q) :: List.replicate (largestPow Q P) (2, 1) := if_neg (by omega)

/-- The default plan is one of the plans 42_resampler.md R82 allows. -/
theorem planOk_defaultPlan {P Q : ℕ} (hP : 1 ≤ P) (hQ : 1 ≤ Q) : planOk P Q (defaultPlan P Q) := by
  rcases Nat.lt_or_ge P Q with lt | ge
  · rw [defaultPlan_of_lt lt]
    exact planOk_of_perm (List.perm_append_singleton ..) (Nat.mul_pos (by positivity) hP) hQ (by decide) (by ring)
  · rw [defaultPlan_of_le ge]
    exact planOk_of_perm (.refl _) hP (Nat.mul_pos (by positivity) hQ) (by decide) (by ring)

/-- Settles O39: the largest power of two that fits leaves a ratio within a factor of 2 of 1 for the reduced stage. -/
theorem defaultPlanRealizesTheRatio : Obligations.DefaultPlanRealizesTheRatio := by
  intro P Q hP hQ _
  refine ⟨planOk_defaultPlan hP hQ, fun lt => ?_, fun ge => ?_⟩
  · obtain ⟨fits, largest⟩ := largestPow_spec hP lt.le
    exact ⟨_, _, _, defaultPlan_of_lt lt, reduceRatio_snd_bounds (Nat.mul_pos (by positivity) hP) fits largest⟩
  · obtain ⟨fits, largest⟩ := largestPow_spec hQ ge
    have bounds := reduceRatio_snd_bounds (Nat.mul_pos (by positivity) hQ) fits largest
    rw [reduceRatio_swap] at bounds
    exact ⟨_, _, _, defaultPlan_of_le ge, bounds⟩

end Sys2Proof.Machine

/-! PROOFS. The commands one by one: what each does to `mode` (O9, O10), and the whole of `RESET` (O14), `CFGWR` (O16) and
`EOS` (O26). -/

namespace Sys2Proof.Machine

/-! ## The mode -/

/-- Settles O9: an instruction that runs under its guard enters the mode of 45_commands.md R107, and one that is turned
away is one the table leaves in its mode. -/
theorem modeTransitionRelation : Obligations.ModeTransitionRelation := by
  refine ⟨fun i s t h => ?_, fun s t h noRun => ?_⟩
  · cases exec_result h with
    | badMode not_allowed => cases i <;> simp_all [allowedIn]
    | startError mode invalid => simp [mode, invalid]
    | start mode valid => simp [mode, valid]
    | eos mode => simp [mode]
    | _ => simp
  · rcases fetch_cases s with ⟨_, _, e⟩ | ⟨_, _, e⟩ | ⟨_, _, _, _, _, _, e⟩ | ⟨_, _, _, _, _, _, e⟩
    · simp only [step, e] at h
      cases h; rfl
    · exact absurd e (noRun _ _)
    · simp only [step, e] at h
      cases h; rfl
    · exact absurd e (noRun _ _)

/-- Of the instructions only `RESET` leaves `ERR` or `DONE` (60_exceptions.md R117). -/
theorem exec_leaves_err_or_done {i : Instr} {s t : State} (stopped : s.mode = .err ∨ s.mode = .done)
    (h : exec i s = .next t) (leaves : t.mode ≠ s.mode) : i = .reset ∧ t.mode = .idle := by
  obtain ⟨notIdle, notRun⟩ : s.mode ≠ .idle ∧ s.mode ≠ .run := by rcases stopped with e | e <;> simp [e]
  have mode := modeTransitionRelation.1 i s t h
  cases i with
  | reset => exact ⟨rfl, mode⟩
  | start => exact absurd (mode.trans (if_neg notIdle)) leaves
  | eos => exact absurd (mode.trans (if_neg notRun)) leaves
  | _ => exact absurd mode leaves

/-- Settles O10: a step that leaves the mode runs an instruction, which is `RESET`; so it resumed no `PUSH`, and the word
it took is the one word of `RESET`. -/
theorem errAndDoneAreLeftOnlyByReset : Obligations.ErrAndDoneAreLeftOnlyByReset := by
  intro s t stopped h leaves
  rcases step_cases s with ⟨_, _, e⟩ | ⟨len, _, e⟩ | ⟨w, rest, _, _, _, _, e⟩ | ⟨w, rest, i, free, cmdQ, decoded, e⟩ <;>
    rw [e] at h
  · cases h; exact absurd rfl leaves
  · cases (exec_leaves_err_or_done (s := { s with pushWait := none }) stopped h leaves).1
  · cases h; exact absurd rfl leaves
  · obtain ⟨rfl, idle⟩ := exec_leaves_err_or_done (s := { s with cmdQ := rest }) stopped h leaves
    exact ⟨idle, free, rest, by rw [cmdQ, decodeCmd_eq_reset decoded]⟩

/-! ## `RESET` and `EOS` -/

/-- Settles O14: `RESET` is the power-on reset and one response. -/
theorem resetCommandRestoresResetValues : Obligations.ResetCommandRestoresResetValues := by
  refine ⟨rfl, fun s => ⟨rfl, ?_⟩⟩
  calc exec .reset s = .next (s.powerOn.respond .ok 0) := execReset_eq s
    _ = _ := by simp [State.respond, State.powerOn]

/-- Settles O26: in `RUN` the guard lets `EOS` through, in every other mode it answers `BADMODE`. -/
theorem eosReleasesTheObjects : Obligations.EosReleasesTheObjects := by
  refine ⟨rfl, fun s => ?_⟩
  rcases execEos_cases s with ⟨notRun, e⟩ | ⟨run, e⟩
  · refine ⟨fun run => absurd run notRun, fun _ => ?_⟩
    rw [show exec .eos s = execEos s from rfl, e]
    simp [State.badMode, State.respond, State.setCmderr]
  · refine ⟨fun _ => ⟨_, e, ?_, ?_⟩, fun notRun => absurd run notRun⟩
    · simp [State.respond, State.setObjs, State.setMode]
    · change statusWord .done s.cmderr = _
      cases s.cmderr <;> rfl

/-! ## `CFGWR` -/

/-- The numbers `CFGWR` may name are those of the seven configuration registers (10_state.md R15). -/
theorem exists_regWritable_iff (n : RegNum) :
    (∃ r, regOfNum n = some r ∧ regWritable r = true) ↔ n.toNat ≤ 6 := by
  refine ⟨fun ⟨_, names, writable⟩ => (regWritable_iff names).mp writable, fun h => ?_⟩
  have assigned : regOfNum n ≠ none := fun none => (regOfNum_eq_none_iff n).mp none (by simp; omega)
  obtain ⟨r, names⟩ := Option.ne_none_iff_exists'.mp assigned
  exact ⟨r, names, (regWritable_iff names).mpr h⟩

/-- `CFGWR` of a number that is not writable is illegal in every mode (60_exceptions.md R118). -/
theorem execCfgwr_of_not_writable {reg : RegNum} (imm : RegWord) (s : State) (h : 6 < reg.toNat) :
    execCfgwr reg imm s = .next s.illegalCommand := by
  rcases names : regOfNum reg with _ | r
  · simp [execCfgwr, names]
  · have readOnly : regWritable r ≠ true := mt (regWritable_iff names).mp (by omega)
    simp [execCfgwr, names, readOnly]

/-- `CFGWR` of a writable register is allowed in `IDLE` alone (45_commands.md R99, R108). -/
theorem execCfgwr_of_writable {reg : RegNum} {r : Reg} (imm : RegWord) (s : State) (names : regOfNum reg = some r)
    (writable : regWritable r = true) :
    execCfgwr reg imm s = .next (if s.mode ≠ .idle then s.badMode else (s.writeReg r imm).respond .ok 0) := by
  by_cases mode : s.mode = .idle <;> simp [execCfgwr, names, writable, guardMode, allowedIn, mode]

/-- Which register a number writes, as a table over the numbers (10_state.md R15). -/
theorem Cfg.write_of_regOfNum {reg : RegNum} {r : Reg} (c : Cfg) (imm : RegWord) (names : regOfNum reg = some r) :
    c.write r imm =
      { inrate := if reg = 0 then imm else c.inrate
        outrate := if reg = 1 then imm else c.outrate
        bandwidth := if reg = 2 then imm else c.bandwidth
        modscheme := if reg = 3 then imm else c.modscheme
        deviation := if reg = 4 then imm else c.deviation
        taps := if reg = 5 then imm else c.taps
        atten := if reg = 6 then imm else c.atten } := by
  cases regNum_of_regOfNum names
  cases r <;> rfl

/-- Settles O16: the number decides whether the command is legal, then the mode whether it is allowed. -/
theorem cfgwrWritesOneRegister : Obligations.CfgwrWritesOneRegister := by
  refine fun reg imm s => ⟨rfl, ?_⟩
  rw [show exec (.cfgwr reg imm) s = execCfgwr reg imm s from rfl]
  by_cases notWritable : 6 < reg.toNat
  · rw [execCfgwr_of_not_writable imm s notWritable, if_pos notWritable]
    simp [State.illegalCommand, State.respond, State.setCmderr]
  · obtain ⟨r, names, writable⟩ := (exists_regWritable_iff reg).mpr (by omega)
    rw [execCfgwr_of_writable imm s names writable, if_neg notWritable]
    by_cases mode : s.mode = .idle
    · simp [mode, State.respond, State.writeReg, Cfg.write_of_regOfNum s.cfg imm names]
    · simp [mode, State.badMode, State.respond, State.setCmderr]

end Sys2Proof.Machine

/-! PROOFS. The five stages over a whole chunk: a `PUSH` equals each stage run over the chunk in turn (O21), and cutting a
stream behind a whole sample changes nothing (O25). -/

namespace Sys2Proof.Machine

/-! ## The cascade -/

/-- If `feed` is the stage-by-stage run for one input of a cascade of `n` stages, its loop over `ys` is that run for all of
`ys`, behind the outputs collected before. -/
theorem foldl_feedRound_eq_cascadeRun {N : Numerics} {M n : ℕ}
    (feeds : ∀ (sts : List RsStage) (v : Cplx), sts.length = n → feed N M n sts v = cascadeRun N M sts [v])
    {a : List RsStage × List Cplx} (len : a.1.length = n) (ys : List Cplx) :
    ys.foldl (feedRound N M n) a = ((cascadeRun N M a.1 ys).1, a.2 ++ (cascadeRun N M a.1 ys).2) := by
  induction ys generalizing a with
  | nil => simp
  | cons y ys ih =>
    have round : feedRound N M n a y = ((cascadeRun N M a.1 [y]).1, a.2 ++ (cascadeRun N M a.1 [y]).2) := by
      rw [feedRound, feeds a.1 y len]
    rw [List.foldl_cons, ih (by simp [round, len]), round, ← List.singleton_append (l := ys), cascadeRun_append,
      List.append_assoc]

/-- Giving every output of a stage to the next before the stage goes on is the same as running each stage over the whole
sequence in turn (42_resampler.md R77): no stage reads another's state. -/
theorem feed_eq_cascadeRun (N : Numerics) (M n : ℕ) (sts : List RsStage) (v : Cplx) (len : sts.length = n) :
    feed N M n sts v = cascadeRun N M sts [v] := by
  induction n generalizing sts v with
  | zero =>
    cases List.eq_nil_of_length_eq_zero len
    rfl
  | succ n ih =>
    cases sts with
    | nil => cases len
    | cons st rest =>
      rw [feed_cons, foldl_feedRound_eq_cascadeRun ih (Nat.succ.inj len)]
      simp [cascadeRun, stageRun]

/-! ## The five stages over samples -/

/-- `samplesByStages N t o xs`: the samples `xs` of a chunk through stages 2 to 5, each run over the whole of them in turn
(45_commands.md R104). -/
def samplesByStages (N : Numerics) (t : QTie) (o : Objects) (xs : List Cplx) : Objects × List OutSample :=
  let f := firRun N o.fir xs
  let r := cascadeRun N o.rs.m o.rs.stages f.2
  let d := fmDemAll N o.fm r.2
  ({ o with fir := f.1, rs := { o.rs with stages := r.1 }, fm := d.1 }, d.2.map (quant N t))

theorem chunkByStages_eq_samplesByStages (N : Numerics) (t : QTie) (o : Objects) (bs : List Byte) :
    chunkByStages N t o bs = samplesByStages N t o (iqDecode bs) := rfl

theorem samplesByStages_nil (N : Numerics) (t : QTie) (o : Objects) : samplesByStages N t o [] = (o, []) := by
  simp [samplesByStages, firRun, fmDemAll]

/-- Samples in two parts: every stage goes on from where the first part left it. -/
theorem samplesByStages_append (N : Numerics) (t : QTie) (o : Objects) (xs ys : List Cplx) :
    samplesByStages N t o (xs ++ ys) =
      ((samplesByStages N t (samplesByStages N t o xs).1 ys).1,
        (samplesByStages N t o xs).2 ++ (samplesByStages N t (samplesByStages N t o xs).1 ys).2) := by
  simp [samplesByStages, firRun_append, cascadeRun_append, fmDemAll_append]

/-- One sample through the pipeline is the run of each stage over that one sample. -/
theorem sampleStepWith_eq_samplesByStages (N : Numerics) (t : QTie) (o : Objects) (i q : BitVec 16) :
    sampleStepWith N t o i q = samplesByStages N t o [iqSample i q] := by
  simp only [sampleStepWith, rsStep, feed_eq_cascadeRun N _ _ _ _ rfl, samplesByStages, firRun]

/-- The loop over the samples of a chunk is the run of each stage over the whole chunk (45_commands.md R104). -/
theorem chunkLoopWith_eq_samplesByStages (N : Numerics) (t : QTie) (o : Objects) (ws : List IqWord) :
    chunkLoopWith N t o ws = samplesByStages N t o (ws.map fun w => iqSample (iqI w) (iqQ w)) := by
  induction ws generalizing o with
  | nil => exact (samplesByStages_nil N t o).symm
  | cons w ws ih =>
    rw [List.map_cons, ← List.singleton_append (l := ws.map _), samplesByStages_append,
      ← sampleStepWith_eq_samplesByStages]
    simp only [chunkLoopWith, ih]

theorem chunkLoop_eq_chunkByStages (b : Build) (o : Objects) (bs : List Byte) :
    chunkLoop b o (iqWords bs) = chunkByStages (numericsOf b) b.qtie o bs :=
  (chunkLoopWith_eq_samplesByStages ..).trans (chunkByStages_eq_samplesByStages ..).symm

/-! ## One `PUSH` -/

/-- The two bytes of a word as its low half and its high half (44_quantizer.md R95). -/
theorem pcmBytes_eq (v : PcmWord) : pcmBytes v = [v.setWidth 8, (v >>> 8).setWidth 8] := by
  have low : v.extractLsb' 0 8 = v.setWidth 8 := BitVec.eq_of_toNat_eq (by simp)
  have high : v.extractLsb' 8 8 = (v >>> 8).setWidth 8 := BitVec.eq_of_toNat_eq (by simp)
  rw [pcmBytes, low, high]

theorem State.pushRun_outBytes (s : State) (len : BitVec 32) (o : Objects) :
    (s.pushRun len o).outBytes =
      s.outBytes ++ (chunkLoop s.build o (iqWords (s.inQ.take len.toNat))).2.flatMap fun v => pcmBytes v.val := by
  rw [State.outBytes, State.pushRun_outQ, List.map_append, pcmStream_val, State.outBytes]

/-- Settles O21: the loop of the `PUSH` is the run of the stages over its chunk, and the rest is what `PUSH` writes. -/
theorem pushRunsTheStagesOverTheChunk : Obligations.PushRunsTheStagesOverTheChunk := by
  intro len s o mode objs ready
  rw [← chunkLoop_eq_chunkByStages]
  refine ⟨s.pushRun len o, execPush_ready mode ready objs, ?_, ?_⟩
  · rw [← rspWord_ok]
    rfl
  · simp only [State.pushRun_outBytes, pcmBytes_eq]

/-! ## Cutting a chunk -/

/-- Of a chunk in two parts the second goes on with the objects the first leaves. -/
theorem chunkLoop_iqWords_append (b : Build) (o : Objects) {xs : List Byte} (ys : List Byte) (whole : xs.length % 4 = 0) :
    chunkLoop b o (iqWords (xs ++ ys)) =
      ((chunkLoop b (chunkLoop b o (iqWords xs)).1 (iqWords ys)).1,
        (chunkLoop b o (iqWords xs)).2 ++ (chunkLoop b (chunkLoop b o (iqWords xs)).1 (iqWords ys)).2) := by
  rw [iqWords_append xs ys whole]
  exact chunkLoopWith_append ..

/-- `exec_push_chunk` for a machine whose `in` port starts with the chunk. -/
theorem exec_push_of_inQ {s : State} {o : Objects} {chunk more : List Byte} (mode : s.mode = .run)
    (objs : s.objs = some o) (inQ : s.inQ = chunk ++ more) (short : chunk.length < 2 ^ 32) :
    exec (.push (BitVec.ofNat 32 chunk.length)) s = .next ({ s with inQ := more }.afterSamples o (iqWords chunk)) := by
  have completes := exec_push_chunk (more := more) mode objs short
  rwa [← inQ] at completes

/-- A `PUSH` of less than a sample drops its bytes and answers 0 (40_iq_decoder.md R61). -/
theorem exec_push_less_than_sample {s : State} {o : Objects} {chunk more : List Byte} (mode : s.mode = .run)
    (objs : s.objs = some o) (inQ : s.inQ = chunk ++ more) (stray : chunk.length < 4) :
    exec (.push (BitVec.ofNat 32 chunk.length)) s = .next ({ s with inQ := more }.respond .ok 0) := by
  rw [exec_push_of_inQ mode objs inQ (by omega), iqWords_short stray]
  simp [State.afterSamples, State.setObjs, State.outWrite, State.respond, chunkLoop, pcmStream, objs]

/-- The running machine of program P1 (95_test_vectors.md) with one sample on `in`. -/
def oneSampleQueued : State :=
  { runningState State.reset with build := { Build.default with rsm := 1 }, inQ := [0x00, 0x40, 0x00, 0xC0] }

/-- Cut inside its one sample, the chunk of `oneSampleQueued` holds no whole sample in either part and nothing is
written. -/
theorem oneSampleQueued_halves :
    ∃ t u, exec (.push 2) oneSampleQueued = .next t ∧ exec (.push 2) t = .next u ∧ u.outBytes = [] := by
  have first := exec_push_less_than_sample (s := oneSampleQueued) (chunk := [0x00, 0x40]) (more := [0x00, 0xC0]) rfl rfl rfl
    (by decide)
  have second := exec_push_less_than_sample (s := { oneSampleQueued with inQ := [0x00, 0xC0] }.respond .ok 0)
    (chunk := [0x00, 0xC0]) (more := []) rfl rfl rfl (by decide)
  exact ⟨_, _, first, second, rfl⟩

/-- The whole chunk gives an output sample. -/
theorem oneSampleQueued_whole : ∃ v, exec (.push 4) oneSampleQueued = .next v ∧ v.outBytes ≠ [] := by
  refine ⟨_, execPush_ready rfl (by decide) rfl, ?_⟩
  rw [State.outBytes, ne_eq, List.map_eq_nil_iff]
  decide +kernel

/-- Settles O25: with `xs` whole the second `PUSH` goes on with the objects and the stream the uncut one has at that
place; cut inside a sample, no part holds it. -/
theorem chunkSplitInvariance : Obligations.ChunkSplitInvariance := by
  constructor
  · intro s xs ys more mode objs inQ whole short
    obtain ⟨o, objs⟩ := Option.ne_none_iff_exists'.mp objs
    have first := exec_push_of_inQ mode objs inQ (by omega)
    have second := exec_push_of_inQ (s := { s with inQ := ys ++ more }.afterSamples o (iqWords xs)) (more := more) mode rfl
      rfl (by omega)
    have both := exec_push_of_inQ (chunk := xs ++ ys) (more := more) mode objs (by simpa using inQ) (by simpa using short)
    rw [List.length_append] at both
    have loops := chunkLoop_iqWords_append s.build o ys whole
    refine ⟨_, _, _, (chunkLoop s.build o (iqWords xs)).2.length,
      (chunkLoop s.build (chunkLoop s.build o (iqWords xs)).1 (iqWords ys)).2.length, first, second, both, ?_, ?_, ?_⟩
    · simp [State.afterSamples, State.setObjs, State.outWrite, State.respond, loops, pcmStream_append]
    · simp [State.afterSamples]
    · simp [State.afterSamples, loops]
  · obtain ⟨t, u, first, second, nothing⟩ := oneSampleQueued_halves
    obtain ⟨v, whole, something⟩ := oneSampleQueued_whole
    exact ⟨oneSampleQueued, t, u, v, 2, 2, rfl, by decide, by decide, first, second, whole, nothing ▸ something.symm⟩

end Sys2Proof.Machine

/-! PROOFS. Commands that are turned away and the configuration error (60_exceptions.md): an illegal word (O7), a command
in a wrong mode or with a register it may not name (O8), and `START` on a bad configuration (O19). -/

namespace Sys2Proof.Machine

/-! ## Illegal words -/

/-- An illegal command in full: the flag, the response, nothing else (60_exceptions.md R118). -/
theorem State.illegalCommand_eq (s : State) :
    s.illegalCommand = { s with cmderr := true, rspQ := s.rspQ ++ [0x0100000000000000] } := by
  simp [State.illegalCommand, State.respond, State.setCmderr]

/-- A word the decoder refuses is taken and turned away, in every mode. -/
theorem step_of_decodeCmd_error {s : State} {w : CmdWord} {rest : List CmdWord} {e : DecodeError}
    (free : s.pushWait = none) (cmdQ : s.cmdQ = w :: rest) (refused : decodeCmd w = .error e) :
    step s = .next ({ s with cmdQ := rest } : State).illegalCommand := by
  simp [step, fetch, free, cmdQ, refused]

/-- Of the instructions only `RESET` clears `cmderr` (10_state.md R13). -/
theorem exec_clears_cmderr {i : Instr} {s t : State} (set : s.cmderr = true) (h : exec i s = .next t)
    (cleared : t.cmderr = false) : i = .reset := by
  rcases exec_cmderr_cases h with ⟨isReset, _⟩ | keeps | rfl | rfl
  · exact isReset
  · simp [keeps, set] at cleared
  · simp at cleared
  · simp at cleared

/-- Settles O7: an illegal word goes the one way of a refusal; and a step that clears the flag runs an instruction, which
is `RESET`, so it resumed no `PUSH` and took the one word of `RESET`. -/
theorem illegalCommandChangesNothingElse : Obligations.IllegalCommandChangesNothingElse := by
  refine ⟨fun s w rest e free cmdQ refused => ?_, fun s t h set cleared => ?_⟩
  · rw [step_of_decodeCmd_error free cmdQ refused, State.illegalCommand_eq]
  · rcases step_cases s with ⟨_, _, e⟩ | ⟨len, _, e⟩ | ⟨w, rest, _, _, _, _, e⟩ | ⟨w, rest, i, free, cmdQ, decoded, e⟩ <;>
      rw [e] at h
    · cases h; simp [set] at cleared
    · cases exec_clears_cmderr (s := { s with pushWait := none }) set h cleared
    · cases h; simp at cleared
    · obtain rfl := exec_clears_cmderr (s := { s with cmdQ := rest }) set h cleared
      exact ⟨free, rest, by rw [cmdQ, decodeCmd_eq_reset decoded]⟩

/-! ## Wrong mode and misnamed register -/

/-- A refusal for the mode in full: the flag, the response, nothing else (60_exceptions.md R119). -/
theorem State.badMode_eq (s : State) :
    s.badMode = { s with cmderr := true, rspQ := s.rspQ ++ [0x0200000000000000] } := by
  simp [State.badMode, State.respond, State.setCmderr]

theorem wellFormed_cfgwr_iff {reg : RegNum} {imm : RegWord} :
    (Instr.cfgwr reg imm).wellFormed = true ↔ ∃ r, regOfNum reg = some r ∧ regWritable r = true := by
  cases names : regOfNum reg <;> simp [Instr.wellFormed, names]

theorem wellFormed_cfgrd_eq_false_iff {reg : RegNum} : (Instr.cfgrd reg).wellFormed = false ↔ regOfNum reg = none := by
  simp [Instr.wellFormed]

/-- A legal command the mode does not allow is turned away by the mode check (45_commands.md R97 (2)). -/
theorem exec_of_not_allowed {i : Instr} {s : State} (legal : i.wellFormed = true)
    (not_allowed : allowedIn i s.mode = false) : exec i s = .next s.badMode := by
  cases i with
  | cfgwr reg imm =>
    obtain ⟨r, names, writable⟩ := wellFormed_cfgwr_iff.mp legal
    have notIdle : s.mode ≠ .idle := of_decide_eq_false not_allowed
    rw [show exec (.cfgwr reg imm) s = execCfgwr reg imm s from rfl, execCfgwr_of_writable imm s names writable,
      if_pos notIdle]
  | start | push | eos => exact guardMode_of_not_allowed not_allowed
  | reset | cfgrd | iqdec => cases not_allowed

/-- Only `CFGWR` and `CFGRD` can be misformed, by their register, and this is seen before the mode
(notes/assumptions/19.md). -/
theorem exec_of_not_wellFormed {i : Instr} (s : State) (misnamed : i.wellFormed = false) :
    exec i s = .next s.illegalCommand := by
  cases i with
  | cfgwr reg imm =>
    have notWritable : ¬ reg.toNat ≤ 6 := by
      rw [← exists_regWritable_iff, ← wellFormed_cfgwr_iff (imm := imm), misnamed]
      exact Bool.false_ne_true
    exact execCfgwr_of_not_writable imm s (by omega)
  | cfgrd reg => exact execCfgrd_of_unassigned s (wellFormed_cfgrd_eq_false_iff.mp misnamed)
  | reset | start | push | eos | iqdec => cases misnamed

/-- Settles O8: each of the four commands is one its mode does not allow, and a misnamed register is illegal before any
mode is looked at. -/
theorem wrongModeCommandChangesNothingElse : Obligations.WrongModeCommandChangesNothingElse := by
  refine ⟨fun i s legal wrongMode => ?_, fun i s misnamed => ?_⟩
  · rw [← State.badMode_eq]
    refine exec_of_not_allowed legal ?_
    rcases wrongMode with ⟨⟨_, _, rfl⟩, mode⟩ | ⟨rfl, mode⟩ | ⟨⟨_, rfl⟩, mode⟩ | ⟨rfl, mode⟩ <;>
      exact decide_eq_false mode
  · rw [exec_of_not_wellFormed s misnamed, State.illegalCommand_eq]

/-! ## The configuration error -/

/-- Searching tries the first element, then the others. -/
theorem find?_cons_eq_ite {α : Type} (p : α → Bool) (a : α) (l : List α) :
    (a :: l).find? p = if p a then some a else l.find? p := by
  cases h : p a <;> simp [h]

/-- The bound of `TAPS` from above is there only in a build with `LMAX` (60_exceptions.md R112). -/
theorem cfgErrorHolds_taps_iff (b : Build) (c : Cfg) :
    cfgErrorHolds b c .taps = true ↔ c.taps.toInt < 1 ∨ ∃ m, b.lmax = some m ∧ c.taps.toInt > m := by
  cases lmax : b.lmax <;> simp [cfgErrorHolds, lmax]

/-- `Validate()` as a chain over the registers in the order of 60_exceptions.md R114. `DEVIATION` is tried only where
`MODSCHEME` is 0, which its own condition asks for. -/
theorem validate_eq (b : Build) (c : Cfg) :
    validate b c =
      if c.inrate.toInt ≤ 0 then some .inrate
      else if c.outrate.toInt < 0 then some .outrate
      else if c.bandwidth.toInt ≤ 0 ∨ 2 * c.bandwidth.toInt ≥ c.inrate.toInt then some .bandwidth
      else if c.modscheme.toInt ≠ 0 then some .scheme
      else if c.deviation.toInt ≤ 0 then some .deviation
      else if c.taps.toInt < 1 ∨ (∃ m, b.lmax = some m ∧ c.taps.toInt > m) then some .taps
      else none := by
  simp only [validate, cfgErrorOrder, find?_cons_eq_ite, List.find?_nil, cfgErrorHolds_taps_iff]
  by_cases scheme : c.modscheme.toInt = 0 <;> simp [cfgErrorHolds, scheme]

/-- The number of a configuration error, 0 where there is none: what `Validate()` returns (60_exceptions.md R113). -/
def validateCode : Option CfgError → ℕ
  | none => 0
  | some e => (cfgErrorCode e).toNat

theorem cfgErrorCode_toNat_ne_zero (e : CfgError) : (cfgErrorCode e).toNat ≠ 0 := by
  cases e <;> decide

/-- A `CFGERR` response is its response code over its value, zero-extended. -/
theorem rspWord_cfgerr (v : BitVec 32) : rspWord .cfgerr v = 0x0300000000000000 ||| v.setWidth 64 := by
  unfold rspWord rspCodeNum
  ext i hi
  simp only [BitVec.getElem_append, BitVec.getElem_or, BitVec.getElem_setWidth]
  interval_cases i <;> simp

/-- The entry of 60_exceptions.md R115 in full, by the number of the error. -/
theorem State.raiseCfgError_eq (s : State) (e : CfgError) :
    s.raiseCfgError e =
      { s with mode := .err, errcode := BitVec.ofNat 32 (cfgErrorCode e).toNat,
               rspQ := s.rspQ ++ [0x0300000000000000 ||| BitVec.ofNat 64 (cfgErrorCode e).toNat] } := by
  rw [BitVec.ofNat_toNat, BitVec.ofNat_toNat, BitVec.setWidth_eq, ← rspWord_cfgerr]
  rfl

/-- Settles O19: the chain of conditions is `Validate()`, and `START` goes by its answer. -/
theorem startReportsLowestErrorCode : Obligations.StartReportsLowestErrorCode := by
  intro s k idle code
  have validated : k = validateCode (validate s.build s.cfg) := by
    rw [code, validate_eq]
    split_ifs <;> rfl
  rcases execStart_cases s with ⟨notIdle, _⟩ | ⟨e, _, invalid, raises⟩ | ⟨_, valid, runs⟩
  · exact absurd idle notIdle
  · obtain rfl : k = (cfgErrorCode e).toNat := by rw [validated, invalid]; rfl
    rw [← State.raiseCfgError_eq]
    exact ⟨fun _ => raises, fun noError => absurd noError (cfgErrorCode_toNat_ne_zero e)⟩
  · obtain rfl : k = 0 := by rw [validated, valid]; rfl
    exact ⟨fun isError => absurd rfl isError, fun _ => ⟨_, runs, State.startRun_mode s⟩⟩

end Sys2Proof.Machine

/-! PROOFS. The state after reset: its values, that its first act is to take a command word, and that a `START` straight
after it fails (O15). -/

namespace Sys2Proof.Machine

/-- With no `PUSH` waiting, a legal word at the front of the `cmd` port is taken and its instruction runs. -/
theorem step_of_decodeCmd_ok {s : State} {w : CmdWord} {rest : List CmdWord} {i : Instr}
    (free : s.pushWait = none) (cmdQ : s.cmdQ = w :: rest) (decoded : decodeCmd w = .ok i) :
    step s = exec i { s with cmdQ := rest } := by
  simp [step, fetch, free, cmdQ, decoded]

/-- Straight after reset `INRATE` is 0, and its bound is the first that `Validate()` tries (60_exceptions.md R114). -/
theorem exec_start_reset :
    exec .start State.reset = .next { State.reset with mode := .err, errcode := 1, rspQ := [0x0300000000000001] } := by
  have noRate : State.reset.cfg.inrate.toInt ≤ 0 := by decide
  have failsWithInrate := startReportsLowestErrorCode State.reset 1 rfl (if_pos noRate).symm
  exact failsWithInrate.1 one_ne_zero

/-- Settles O15: the values are those `State.reset` is written with, no `PUSH` waits after reset, and `START` finds no
`INRATE`. -/
theorem resetStateIsTheRules : Obligations.ResetStateIsTheRules :=
  ⟨rfl, rfl, rfl, rfl, rfl, rfl, rfl, rfl, rfl, rfl, rfl, rfl,
    fun _ _ _ decoded => step_of_decodeCmd_ok rfl rfl decoded, exec_start_reset⟩

end Sys2Proof.Machine

/-! PROOFS. The two encodings as inverses of each other: decoding an encoded instruction (O2), encoding a decoded word
(O3), and the words written out from the encoding tables (O1). -/

namespace Sys2Proof.Machine

/-! ## What each row of the opcode map decodes to -/

theorem decodeFields_cfgwr_ok_iff {reg : RegNum} {imm : BitVec 32} {i : Instr} :
    decodeFields 2 reg imm = .ok i ↔ (Instr.cfgwr reg imm).wellFormed = true ∧ .cfgwr reg imm = i := by
  cases names : regOfNum reg with
  | none => simp [decodeFields, names, Instr.wellFormed]
  | some r => cases writable : regWritable r <;> simp [decodeFields, names, writable, Instr.wellFormed]

/-- A check passes words whose condition it does not refuse. -/
theorem ite_ok_iff {p : Prop} [Decidable p] {e : DecodeError} {i j : Instr} :
    (if p then .error e else .ok i : Except DecodeError Instr) = .ok j ↔ ¬p ∧ i = j := by
  split <;> simp_all

theorem decodeFields_cfgrd_ok_iff {reg : RegNum} {imm : BitVec 32} {i : Instr} :
    decodeFields 3 reg imm = .ok i ↔ (Instr.cfgrd reg).wellFormed = true ∧ imm = 0 ∧ .cfgrd reg = i := by
  cases names : regOfNum reg with
  | none => simp [decodeFields, names, Instr.wellFormed]
  | some r =>
    have fields : decodeFields 3 reg imm = if imm ≠ 0 then .error .immNotZero else .ok (.cfgrd reg) := by
      simp [decodeFields, names]
    rw [fields, ite_ok_iff, not_not]
    simp [Instr.wellFormed, names]

theorem decodeFields_push_ok_iff {reg : RegNum} {imm : BitVec 32} {i : Instr} :
    decodeFields 5 reg imm = .ok i ↔ reg = 0 ∧ .push imm = i := by
  rw [show decodeFields 5 reg imm = if reg ≠ 0 then .error .regNotZero else .ok (.push imm) from rfl, ite_ok_iff,
    not_not]

/-- A command word with a zero `rsv` field is decoded by its other three fields. -/
theorem decodeCmd_cmdWord (op : BitVec 8) (reg : RegNum) (imm : BitVec 32) :
    decodeCmd (cmdWord op reg 0 imm) = decodeFields op reg imm := by
  simp [decodeCmd]

/-! ## The two directions -/

/-- Settles O2: the encoder writes the fields its row of the decoder asks for. -/
theorem decodeInvertsEncode : Obligations.DecodeInvertsEncode := by
  intro i legal
  cases i with
  | reset | start | eos => exact (decodeCmd_cmdWord ..).trans (decodePlain_ok.mpr ⟨rfl, rfl, rfl⟩)
  | cfgwr reg imm => exact (decodeCmd_cmdWord ..).trans (decodeFields_cfgwr_ok_iff.mpr ⟨legal, rfl⟩)
  | cfgrd reg => exact (decodeCmd_cmdWord ..).trans (decodeFields_cfgrd_ok_iff.mpr ⟨legal, rfl, rfl⟩)
  | push len => exact (decodeCmd_cmdWord ..).trans (decodeFields_push_ok_iff.mpr ⟨rfl, rfl⟩)
  | iqdec i q => simp [encode, decode, decodeIq]

/-- The fields a row of the decoder accepts are those the encoder writes. -/
theorem encode_of_decodeFields_ok {op : BitVec 8} {reg : RegNum} {imm : BitVec 32} {i : Instr}
    (h : decodeFields op reg imm = .ok i) : encode i = .cmd (cmdWord op reg 0 imm) ∧ i.wellFormed = true := by
  by_cases assigned : op.toNat ∈ [1, 2, 3, 4, 5, 6]
  · obtain rfl | rfl | rfl | rfl | rfl | rfl := opcode_cases assigned
    · obtain ⟨rfl, rfl, rfl⟩ := decodePlain_ok.mp h
      exact ⟨rfl, rfl⟩
    · obtain ⟨legal, rfl⟩ := decodeFields_cfgwr_ok_iff.mp h
      exact ⟨rfl, legal⟩
    · obtain ⟨legal, rfl, rfl⟩ := decodeFields_cfgrd_ok_iff.mp h
      exact ⟨rfl, legal⟩
    · obtain ⟨rfl, rfl, rfl⟩ := decodePlain_ok.mp h
      exact ⟨rfl, rfl⟩
    · obtain ⟨rfl, rfl⟩ := decodeFields_push_ok_iff.mp h
      exact ⟨rfl, rfl⟩
    · obtain ⟨rfl, rfl, rfl⟩ := decodePlain_ok.mp h
      exact ⟨rfl, rfl⟩
  · cases (decodeFields_of_unassigned reg imm assigned).symm.trans h

/-- Settles O3: a word is its fields, and of those `rsv` is 0 and the row accepts the others. -/
theorem encodeInvertsDecode : Obligations.EncodeInvertsDecode := by
  intro w i h
  cases w with
  | cmd w =>
    obtain ⟨rsv, fields⟩ := decodeCmd_ok h
    obtain ⟨encoded, legal⟩ := encode_of_decodeFields_ok fields
    rw [← rsv, cmdWord_fields] at encoded
    exact ⟨encoded, legal⟩
  | iq w =>
    cases h
    exact ⟨congrArg PortWord.iq (iq_fields w), rfl⟩

/-- Settles O1: the decoder, run on each of the words. -/
theorem specWordsDecode : Obligations.SpecWordsDecode :=
  ⟨rfl, rfl, rfl, rfl, rfl, rfl, rfl, rfl, rfl, rfl, rfl, rfl, rfl⟩

end Sys2Proof.Machine

/-! PROOFS. The step of the core: which work it takes up (O5), and what every step keeps of the build (O31), does to
`cmderr` (O11) and answers (O12). -/

namespace Sys2Proof.Machine

/-! ## The work a step takes up -/

theorem step_of_idle {s : State} (free : s.pushWait = none) (cmdQ : s.cmdQ = []) : step s = .next s := by
  simp [step, fetch, free, cmdQ]

theorem step_of_waiting {s : State} {len : BitVec 32} (waiting : s.pushWait = some len) :
    step s = exec (.push len) { s with pushWait := none } := by
  simp [step, fetch, waiting]

/-- Settles O5: the three places where the core finds its work. -/
theorem stepRunsDecodedCommand : Obligations.StepRunsDecodedCommand :=
  fun _ => ⟨step_of_idle, fun _ => step_of_waiting, fun _ _ _ => step_of_decodeCmd_ok⟩

/-- What a step can do, for claims about commands: the core idles, or it has fetched, leaving `q` on the `cmd` port, and
turns an illegal word away or runs a command, never the sample instruction. -/
theorem step_command_cases (s : State) :
    (s.pushWait = none ∧ s.cmdQ = [] ∧ step s = .next s) ∨
    ∃ q, step s = .next (s.afterFetch q).illegalCommand ∨
      ∃ i, (∀ a b, i ≠ .iqdec a b) ∧ step s = exec i (s.afterFetch q) := by
  rcases step_cases s with idle | ⟨len, _, e⟩ | ⟨w, q, _, free, _, _, e⟩ | ⟨w, q, i, free, _, decoded, e⟩
  · exact .inl idle
  · exact .inr ⟨s.cmdQ, .inr ⟨.push len, fun _ _ => Instr.noConfusion, e⟩⟩
  · exact .inr ⟨q, .inl (by simp [e, State.afterFetch, ← free])⟩
  · have command (a b) : i ≠ .iqdec a b := fun isSample => decodeCmd_ne_iqdec w a b (isSample ▸ decoded)
    exact .inr ⟨q, .inr ⟨i, command, by simp [e, State.afterFetch, ← free]⟩⟩

/-! ## The build -/

theorem exec_build {i : Instr} {s t : State} (h : exec i s = .next t) : t.build = s.build := by
  cases exec_result h <;> simp

/-- Settles O31: fetching writes two fields, an instruction others, and neither the build. -/
theorem everyStepKeepsTheBuild : Obligations.EveryStepKeepsTheBuild := by
  intro s t h
  rcases step_next h with rfl | ⟨q, _, rfl | ⟨i, e⟩⟩
  · rfl
  · rfl
  · exact exec_build (s := s.afterFetch q) e

/-! ## The flag `cmderr` -/

/-- From `s` to `t` a command was refused: the flag is set and the response says why (60_exceptions.md R118, R119). -/
def State.Refused (s t : State) : Prop :=
  t.cmderr = true ∧ (t.rspQ = s.rspQ ++ [0x0100000000000000] ∨ t.rspQ = s.rspQ ++ [0x0200000000000000])

theorem illegalCommand_refused (s : State) : s.Refused s.illegalCommand := ⟨rfl, .inl (by simp)⟩

theorem badMode_refused (s : State) : s.Refused s.badMode := ⟨rfl, .inr (by simp)⟩

/-- An instruction that changes the flag is refused or is `RESET` (10_state.md R13). -/
theorem exec_changes_cmderr {i : Instr} {s t : State} (h : exec i s = .next t) (changed : s.cmderr ≠ t.cmderr) :
    s.Refused t ∨ i = .reset ∧ t = s.resetCore.respond .ok 0 := by
  rcases exec_cmderr_cases h with reset | keeps | rfl | rfl
  · exact .inr reset
  · exact absurd keeps.symm changed
  · exact .inl (illegalCommand_refused s)
  · exact .inl (badMode_refused s)

/-- A step that changes the flag turns a command away or takes and runs the word of `RESET`. -/
theorem step_changes_cmderr {s t : State} (h : step s = .next t) (changed : s.cmderr ≠ t.cmderr) :
    s.Refused t ∨ s.pushWait = none ∧ ∃ rest, s.cmdQ = 0x0100000000000000 :: rest ∧
      t = ({ s with cmdQ := rest } : State).resetCore.respond .ok 0 := by
  rcases step_cases s with ⟨_, _, e⟩ | ⟨len, _, e⟩ | ⟨w, rest, _, _, _, _, e⟩ | ⟨w, rest, i, free, cmdQ, decoded, e⟩ <;>
    rw [e] at h
  · cases h; exact absurd rfl changed
  · rcases exec_changes_cmderr (s := { s with pushWait := none }) h changed with refused | ⟨notPush, _⟩
    · exact .inl refused
    · cases notPush
  · cases h; exact .inl (illegalCommand_refused { s with cmdQ := rest })
  · rcases exec_changes_cmderr (s := { s with cmdQ := rest }) h changed with refused | ⟨rfl, t_eq⟩
    · exact .inl refused
    · exact .inr ⟨free, rest, by rw [cmdQ, decodeCmd_eq_reset decoded], t_eq⟩

/-- Settles O11: a refusal leaves the flag set, `RESET` leaves it clear. -/
theorem cmderrRecordsRefusals : Obligations.CmderrRecordsRefusals := by
  intro s t h changed
  rcases step_changes_cmderr h changed with ⟨set, response⟩ | ⟨free, rest, cmdQ, rfl⟩
  · exact ⟨fun _ => response, fun clear => by simp [set] at clear⟩
  · exact ⟨fun set => by simp at set, fun _ => ⟨free, ⟨rest, cmdQ⟩, rfl, by simp⟩⟩

/-! ## Responses -/

/-- Between `s` and `t` a command is answered by one response, or it is a `PUSH` that waits and has none yet
(30_encoding.md R50, 20_memory.md R43). -/
def State.Answers (s t : State) : Prop :=
  (t.pushWait = none → ∃ r, t.rspQ = s.rspQ ++ [r]) ∧ (t.pushWait ≠ none → t.rspQ = s.rspQ)

theorem State.Answers.of_response {s t : State} (r : RspWord) (done : t.pushWait = none)
    (rspQ : t.rspQ = s.rspQ ++ [r]) : s.Answers t := ⟨fun _ => ⟨r, rspQ⟩, fun waits => absurd done waits⟩

/-- `IQDEC`, which is no command, is the one instruction without a response. -/
theorem exec_answers {i : Instr} {s t : State} (command : ∀ a b, i ≠ .iqdec a b) (free : s.pushWait = none)
    (h : exec i s = .next t) : s.Answers t := by
  cases exec_result h with
  | pushHold _ _ => exact ⟨fun done => by simp at done, fun _ => rfl⟩
  | iqdec _ => exact absurd rfl (command _ _)
  | reset => exact .of_response _ rfl rfl
  | _ => exact .of_response _ free rfl

/-- Settles O12: a core that does not idle turns a word away or runs a command with no `PUSH` waiting. -/
theorem oneResponsePerCommand : Obligations.OneResponsePerCommand := by
  intro s t h busy
  rcases step_command_cases s with ⟨free, noWord, _⟩ | ⟨q, e | ⟨i, command, e⟩⟩
  · rcases busy with waiting | queued
    · exact absurd free waiting
    · exact absurd noWord queued
  · cases e.symm.trans h
    exact State.Answers.of_response _ rfl rfl
  · exact exec_answers (s := s.afterFetch q) command rfl (e.symm.trans h)

end Sys2Proof.Machine

/-! PROOFS. The invariant of the legal states: it holds after reset (O29), every step keeps it (O28) and has a next
state (O30); and what it says at the end of an orderly shutdown (O55). -/

namespace Sys2Proof.Machine

/-! ## The two halves of the invariant -/

theorem State.objectsWf_of_not_run {s : State} (mode : s.mode ≠ .run) :
    s.objectsWf = true ↔ s.objs = none ∧ s.rsdelay = 0 := by
  cases objs : s.objs <;> simp [State.objectsWf, objs, mode]

/-- The objects `o` are legal, those `START` makes of the configuration `c` in the build `b`, and `RSDELAY` shows their
delay (10_state.md R17 to R21). -/
structure Objects.LegalFor (o : Objects) (b : Build) (c : Cfg) (rsdelay : RegWord) : Prop where
  wf : o.wf
  latched : o.latchedFrom c
  shown : o.delayShown b rsdelay

theorem State.objectsWf_of_run {s : State} (mode : s.mode = .run) :
    s.objectsWf = true ↔ ∃ o, s.objs = some o ∧ o.LegalFor s.build s.cfg s.rsdelay := by
  cases objs : s.objs with
  | none => simp [State.objectsWf, objs, mode]
  | some o =>
    simp only [State.objectsWf, objs, decide_eq_true_eq, Option.some.injEq, exists_eq_left']
    exact ⟨fun ⟨_, wf, latched, shown⟩ => ⟨wf, latched, shown⟩, fun ⟨wf, latched, shown⟩ => ⟨mode, wf, latched, shown⟩⟩

/-- A legal state outside `RUN` has no objects. -/
theorem State.wf.no_objs {s : State} (h : s.wf) (mode : s.mode ≠ .run) : s.objs = none ∧ s.rsdelay = 0 :=
  have ⟨_, objects, _⟩ := h
  (State.objectsWf_of_not_run mode).mp objects

/-- A legal state in `RUN` has legal objects. -/
theorem State.wf.has_objs {s : State} (h : s.wf) (mode : s.mode = .run) :
    ∃ o, s.objs = some o ∧ o.LegalFor s.build s.cfg s.rsdelay :=
  have ⟨_, objects, _⟩ := h
  (State.objectsWf_of_run mode).mp objects

/-- Outside `RUN` and `ERR` a state of a legal build is legal if nothing is left of a run. -/
theorem State.wf_of_stopped {s : State} (build : s.build.wf) (notRun : s.mode ≠ .run) (notErr : s.mode ≠ .err)
    (objs : s.objs = none) (rsdelay : s.rsdelay = 0) (free : s.pushWait = none) (errcode : s.errcode = 0) : s.wf :=
  ⟨build, (State.objectsWf_of_not_run notRun).mpr ⟨objs, rsdelay⟩, fun waits => absurd free waits,
    by simp [notErr, errcode], by simp [errcode]⟩

/-! ## Reset -/

theorem State.resetCore_wf {s : State} (build : s.build.wf) : s.resetCore.wf :=
  State.wf_of_stopped build (by simp) (by simp) rfl rfl rfl rfl

theorem defaultBuild_wf : Build.default.wf := by
  refine ⟨by decide, ?_, ?_⟩ <;> norm_num [Build.default]

/-- Settles O29: whatever the host queues, the state after reset has no objects and its registers at 0. -/
theorem resetSatisfiesTheInvariant : Obligations.ResetSatisfiesTheInvariant := by
  refine ⟨?_, fun b ws bs build => ?_, fun s build => State.resetCore_wf build⟩
  · exact State.resetCore_wf (s := State.reset) defaultBuild_wf
  · exact State.resetCore_wf (s := { State.reset with build := b, cmdQ := ws, inQ := bs }) build

/-! ## What `START` makes -/

theorem planOk_planOf (b : Build) {P Q : ℕ} (hP : 1 ≤ P) (hQ : 1 ≤ Q) : planOk P Q (planOf b P Q) := by
  unfold planOf
  split
  · exact planOk_defaultPlan hP hQ
  · split
    · assumption
    · exact planOk_defaultPlan hP hQ

theorem ratioOf_pos {inRate outRate : ℤ} (hin : 0 < inRate) (hout : 0 < outRate) :
    1 ≤ (ratioOf inRate outRate).1 ∧ 1 ≤ (ratioOf inRate outRate).2 := by
  obtain ⟨g, _, out_eq, in_eq, _⟩ := reduceRatio_spec (x := outRate.toNat) (y := inRate.toNat) (by omega)
  exact ⟨Nat.pos_of_mul_pos_left (a := g) (by rw [ratioOf, out_eq]; omega),
    Nat.pos_of_mul_pos_left (a := g) (by rw [ratioOf, in_eq]; omega)⟩

theorem effectiveOutRate_pos {c : Cfg} (hin : 0 < c.inrate.toInt) (hout : 0 ≤ c.outrate.toInt) :
    0 < effectiveOutRate c := by
  unfold effectiveOutRate
  split <;> omega

theorem firInit_wf (N : Numerics) {L : ℕ} (fc : RealNum) (A : ℤ) (hL : 1 ≤ L) : (firInit N L fc A).wf :=
  ⟨hL, firDesign_length .., List.length_replicate .., Nat.sub_lt hL one_pos⟩

theorem stageInit_wf (N : Numerics) (rsbw : RealNum) {M : ℕ} (A : ℤ) {s : ℕ × ℕ} (hM : 1 ≤ M)
    (hs : 1 ≤ s.1 ∧ 1 ≤ s.2 ∧ Nat.gcd s.1 s.2 = 1) : (stageInit N rsbw M A s).wf M :=
  have ⟨p_pos, q_pos, coprime⟩ := hs
  ⟨p_pos, q_pos, coprime, bankDesign_length .., List.length_replicate .., Nat.sub_lt hM one_pos, q_pos⟩

theorem rsInit_wf (N : Numerics) {b : Build} (A : ℤ) {P Q : ℕ} {plan : List (ℕ × ℕ)} (hM : 1 ≤ b.rsm)
    (ok : planOk P Q plan) : (rsInit N b A plan).wf := by
  obtain ⟨nonempty, stages, _⟩ := ok
  refine ⟨hM, fun nil => nonempty (List.map_eq_nil_iff.mp nil), fun st hst => ?_⟩
  obtain ⟨s, hs, rfl⟩ := List.mem_map.mp hst
  exact stageInit_wf N b.rsbw A hM (stages s hs)

/-- The objects of a configuration that passes `Validate()` are legal (45_commands.md R101). -/
theorem createObjects_legalFor {b : Build} {c : Cfg} (build : b.wf) (valid : validate b c = none) :
    (createObjects b c).LegalFor b c (delayReg (numericsOf b) (createObjects b c).rs.delay) := by
  obtain ⟨inrate, outrate, bandwidth, nyquist, _, deviation, taps⟩ := validate_none valid
  have outRate := effectiveOutRate_pos inrate outrate
  obtain ⟨P_pos, Q_pos⟩ := ratioOf_pos inrate outRate
  have plan := planOk_planOf b P_pos Q_pos
  obtain ⟨rsm, _⟩ := build
  have inrate' : (0 : ℚ) < c.inrate.toInt := by exact_mod_cast inrate
  refine ⟨⟨firInit_wf _ _ _ (by omega), rsInit_wf _ _ rsm plan, ?_, inrate, outRate, ?_, ?_⟩, ?_, ?_⟩
  · exact div_pos (by exact_mod_cast deviation) (by exact_mod_cast outRate)
  · exact div_pos (by exact_mod_cast bandwidth) inrate'
  · refine (div_lt_iff₀ inrate').mpr ?_
    have : (2 * c.bandwidth.toInt : ℚ) < c.inrate.toInt := by exact_mod_cast nyquist
    linarith
  · refine ⟨rfl, rfl, rfl, rfl, Int.toNat_of_nonneg (by omega), rfl, ?_⟩
    exact (stagePairs_map_stageInit ..).symm ▸ plan
  · exact ⟨congrArg (totalDelay _ _) (stagePairs_map_stageInit ..).symm, rfl⟩

/-! ## What samples leave -/

theorem sampleStepWith_wf (N : Numerics) (t : QTie) {o : Objects} (i q : BitVec 16) (h : o.wf) :
    (sampleStepWith N t o i q).1.wf := by
  obtain ⟨fir, ⟨m_pos, stages, stages_wf⟩, kf, rates⟩ := h
  obtain ⟨_, _, fir_wf⟩ := firStep_spec N o.fir (iqSample i q)
  have advances := sampleStepWith_advancesTo N t i q rfl stages_wf
  refine ⟨fir_wf fir, ⟨m_pos, fun nil => stages ?_, advances.wf⟩, (fmDemAll_kf ..).symm ▸ kf, rates⟩
  exact List.eq_nil_of_length_eq_zero (advances.length.symm.trans (by rw [nil]; rfl))

theorem chunkLoopWith_wf (N : Numerics) (t : QTie) {o : Objects} (ws : List IqWord) (h : o.wf) :
    (chunkLoopWith N t o ws).1.wf := by
  induction ws generalizing o with
  | nil => exact h
  | cons w ws ih => exact ih (sampleStepWith_wf N t (iqI w) (iqQ w) h)

theorem Objects.SameDesign.stagePairs_eq {o p : Objects} (h : o.SameDesign p) :
    stagePairs p.rs.stages = stagePairs o.rs.stages := by
  have pairs (sts : List RsStage) : stagePairs sts = (stageDesigns sts).map fun d => (d.1, d.2.1) := by
    simp [stagePairs, Function.comp_def]
  rw [pairs, pairs, h.stages]

/-- Objects whose designs are those of legal ones are legal if their own buffers are. -/
theorem Objects.LegalFor.of_sameDesign {o p : Objects} {b : Build} {c : Cfg} {rsdelay : RegWord}
    (h : o.LegalFor b c rsdelay) (same : o.SameDesign p) (wf : p.wf) : p.LegalFor b c rsdelay := by
  obtain ⟨_, latched, shown⟩ := h
  refine ⟨wf, ?_, ?_⟩
  · rw [Objects.latchedFrom, same.inRate, same.outRate, same.att, same.firFc, same.firLen, same.kf, same.stagePairs_eq]
    exact latched
  · rw [Objects.delayShown, same.delay, same.rsM, same.stagePairs_eq]
    exact shown

/-! ## Every step -/

/-- Fetching writes no field of the invariant but `pushWait`, which it clears. -/
theorem State.wf.afterFetch {s : State} (h : s.wf) (q : List CmdWord) : (s.afterFetch q).wf := by
  obtain ⟨build, objects, _, err, errcode⟩ := h
  exact ⟨build, objects, fun waits => absurd rfl waits, err, errcode⟩

theorem cfgErrorCode_legal (e : CfgError) : cfgErrorCode e ≠ 0 ∧ (cfgErrorCode e).toNat ≤ 6 := by
  cases e <;> decide

theorem State.wf.run_of_objs {s : State} {o : Objects} (h : s.wf) (objs : s.objs = some o) : s.mode = .run := by
  by_contra notRun
  cases (h.no_objs notRun).1.symm.trans objs

/-- The objects may be replaced by legal ones of the same designs. -/
theorem State.wf.setObjs {s : State} {o p : Objects} (h : s.wf) (objs : s.objs = some o) (same : o.SameDesign p)
    (wf : o.wf → p.wf) : (s.setObjs (some p)).wf := by
  have mode := h.run_of_objs objs
  obtain ⟨o', objs', legal⟩ := h.has_objs mode
  cases objs.symm.trans objs'
  obtain ⟨build, _, waits, err, errcode⟩ := h
  have objects := (State.objectsWf_of_run (s := s.setObjs (some p)) mode).mpr
    ⟨p, rfl, legal.of_sameDesign same (wf legal.wf)⟩
  exact ⟨build, objects, waits, err, errcode⟩

/-- Every instruction keeps the invariant. The ports and `cmderr` are no part of it, so a refusal, a `CFGRD` and the
writes to the ports leave it as it is. -/
theorem exec_wf {i : Instr} {s t : State} (h : s.wf) (free : s.pushWait = none) (e : exec i s = .next t) : t.wf := by
  have ⟨build, objects, _, err, errcode⟩ := h
  cases exec_result e with
  | badMode _ | cfgwrIllegal _ | cfgrdIllegal _ | cfgrd _ => exact h
  | reset => exact State.resetCore_wf build
  | cfgwr _ _ mode =>
    obtain ⟨objs, rsdelay⟩ := h.no_objs (by simp [mode])
    exact State.wf_of_stopped build (by simp [mode]) (by simp [mode]) objs rsdelay free (by simpa [mode] using err)
  | @startError error mode _ =>
    have stopped := (State.objectsWf_of_not_run (s := s.raiseCfgError error) (by simp)).mpr (h.no_objs (by simp [mode]))
    obtain ⟨nonzero, le⟩ := cfgErrorCode_legal error
    exact ⟨build, stopped, fun waits => absurd free waits, iff_of_true rfl nonzero, le⟩
  | start mode valid =>
    have running := (State.objectsWf_of_run (s := s.startRun) rfl).mpr ⟨_, rfl, createObjects_legalFor build valid⟩
    exact ⟨build, running, fun _ => rfl, by simp, by simp⟩
  | pushHold mode _ => exact ⟨build, objects, fun _ => mode, err, errcode⟩
  | push mode _ objs => exact h.setObjs objs (chunkLoopWith_sameDesign ..) (chunkLoopWith_wf _ _ _)
  | eos mode => exact State.wf_of_stopped build (by simp) (by simp) rfl rfl free (by simpa [mode] using err)
  | iqdec objs => exact h.setObjs objs (sampleStepWith_sameDesign ..) (sampleStepWith_wf _ _ _ _)

/-- Settles O28: fetching drops at most the wait of a `PUSH`, and every instruction keeps the rest. -/
theorem everyStepKeepsTheInvariant : Obligations.EveryStepKeepsTheInvariant := by
  intro s t h e
  rcases step_next e with rfl | ⟨q, _, rfl | ⟨i, e⟩⟩
  · exact h
  · exact h.afterFetch q
  · exact exec_wf (h.afterFetch q) rfl e

/-- A command in a legal state does not stop: a `PUSH` in `RUN` finds its objects. -/
theorem exec_command_next {i : Instr} {s : State} (h : s.wf) (command : ∀ a b, i ≠ .iqdec a b) :
    ∃ t, exec i s = .next t := by
  cases i with
  | reset => exact ⟨_, execReset_eq s⟩
  | cfgwr reg imm => rcases execCfgwr_cases reg imm s with e | ⟨_, e⟩ | ⟨_, _, _, _, e⟩ <;> exact ⟨_, e⟩
  | cfgrd reg => rcases execCfgrd_cases reg s with ⟨_, e⟩ | ⟨_, _, e⟩ <;> exact ⟨_, e⟩
  | start => rcases execStart_cases s with ⟨_, e⟩ | ⟨_, _, _, e⟩ | ⟨_, _, e⟩ <;> exact ⟨_, e⟩
  | push len =>
    rcases execPush_cases len s with ⟨_, e⟩ | ⟨_, _, e⟩ | ⟨_, _, _, _, e⟩ | ⟨mode, _, noObjs, _⟩
    · exact ⟨_, e⟩
    · exact ⟨_, e⟩
    · exact ⟨_, e⟩
    · obtain ⟨o, objs, _⟩ := h.has_objs mode
      cases noObjs.symm.trans objs
  | eos => rcases execEos_cases s with ⟨_, e⟩ | ⟨_, e⟩ <;> exact ⟨_, e⟩
  | iqdec a b => exact absurd rfl (command a b)

/-- Settles O30: the core idles, turns a word away, or runs a command, and never the sample instruction. -/
theorem legalStatesNeverStop : Obligations.LegalStatesNeverStop := by
  intro s h
  rcases step_command_cases s with ⟨_, _, e⟩ | ⟨q, e | ⟨i, command, e⟩⟩
  · exact ⟨_, e⟩
  · exact ⟨_, e⟩
  · rw [e]
    exact exec_command_next (h.afterFetch q) command

/-! ## Runs -/

/-- The first of `k + 1` steps of any machine. -/
theorem run_succ_of_step {M : Host.Core} {s s' : M.State} (h : M.step s = .next s') (k : ℕ) :
    M.run (k + 1) s = M.run k s' := by
  rw [Host.Core.run, h]

theorem core_run_succ_of_step {s s' : State} (h : step s = .next s') (k : ℕ) :
    Sys2Proof.core.run (k + 1) s = Sys2Proof.core.run k s' :=
  run_succ_of_step (M := Sys2Proof.core) h k

/-- A run from a legal state ends in one. -/
theorem core_run_wf {s t : State} {k : ℕ} (h : s.wf) (run : Sys2Proof.core.run k s = .next t) : t.wf := by
  induction k generalizing s with
  | zero => cases run; exact h
  | succ k ih =>
    obtain ⟨s', e⟩ := legalStatesNeverStop s h
    rw [core_run_succ_of_step e] at run
    exact ih (everyStepKeepsTheInvariant s s' h e) run

theorem fetch_of_decodeCmd_ok {s : State} {w : CmdWord} {rest : List CmdWord} {i : Instr}
    (free : s.pushWait = none) (cmdQ : s.cmdQ = w :: rest) (decoded : decodeCmd w = .ok i) :
    fetch s = .run i { s with cmdQ := rest } := by
  simp [fetch, free, cmdQ, decoded]

/-- Settles O55: the `EOS` step empties the `cmd` port; and the state it leaves is legal, in `DONE` and finished, so it
has no objects and idles. -/
theorem orderlyShutdownEndsWithEos : Obligations.OrderlyShutdownEndsWithEos := by
  refine ⟨fun s mode free cmdQ => ?_, fun s t k legal ⟨⟨before, run, _, last⟩, finished, mode⟩ => ?_⟩
  · have fetched := fetch_of_decodeCmd_ok (i := .eos) free cmdQ rfl
    obtain ⟨t, e, rfl, _⟩ := (eosReleasesTheObjects.2 { s with cmdQ := [] }).1 mode
    exact ⟨_, ⟨s, rfl, ⟨_, fetched⟩, (step_of_decodeCmd_ok free cmdQ rfl).trans e⟩, ⟨rfl, free⟩, rfl⟩
  · have t_wf := everyStepKeepsTheInvariant before t (core_run_wf legal run) last
    obtain ⟨objs, rsdelay⟩ := t_wf.no_objs (by simp [mode])
    obtain ⟨cmdQ, free⟩ := finished
    exact ⟨mode, objs, rsdelay, step_of_idle free cmdQ⟩

end Sys2Proof.Machine

/-! PROOFS. The commands with their effect in full: `START` (O20), the five `CFGWR` of `CFGFM` (O27), a `PUSH` that
waits (O22) or is empty (O23), and one sample through the pipeline (O34, O6). -/

namespace Sys2Proof.Machine

/-! ## `START` and `CFGFM` -/

/-- Settles O20: a valid configuration leaves `START` one way to go, and the objects are those of `createObjects`. -/
theorem startCreatesTheObjects : Obligations.StartCreatesTheObjects := by
  intro s idle valid
  obtain ⟨_, _, _, _, _, _, taps⟩ := validate_none valid
  have taps_eq : (s.cfg.taps.toInt.toNat : ℤ) = s.cfg.taps.toInt := Int.toNat_of_nonneg (by omega)
  refine ⟨createObjects s.build s.cfg, ?_, rfl, ?_, rfl, taps_eq, rfl, rfl, rfl, ?_, rfl, ?_, ?_, ?_, rfl⟩
  · rcases execStart_cases s with ⟨notIdle, _⟩ | ⟨_, _, invalid, _⟩ | ⟨_, _, runs⟩
    · exact absurd idle notIdle
    · cases valid.symm.trans invalid
    · exact runs.trans (by simp [State.startRun, State.respond])
  · rw [ite_not]; rfl
  · exact Nat.sub_add_cancel (show 1 ≤ s.cfg.taps.toInt.toNat by omega)
  · exact stagePairs_map_stageInit ..
  · intro st hst
    obtain ⟨pair, _, rfl⟩ := List.mem_map.mp hst
    exact ⟨rfl, rfl, rfl, rfl⟩
  · exact congrArg (totalDelay _ _) (stagePairs_map_stageInit ..).symm

/-- The effect of `CFGWR` of a writable register in `IDLE`, the response included (45_commands.md R99). -/
def State.configure (s : State) (w : Reg × RegWord) : State := (s.writeReg w.1 w.2).respond .ok 0

/-- The command words of a list of register writes. -/
def writeWords (ws : List (Reg × RegWord)) : List CmdWord := ws.map fun w => cmdWord 0x02 (regNum w.1) 0 w.2

/-- In `IDLE` the word of a `CFGWR` of a writable register writes it. -/
theorem step_configure {s : State} {w : Reg × RegWord} {rest : List CmdWord} (writable : regWritable w.1 = true)
    (idle : s.mode = .idle) (free : s.pushWait = none)
    (cmdQ : s.cmdQ = cmdWord 0x02 (regNum w.1) 0 w.2 :: rest) :
    step s = .next (({ s with cmdQ := rest } : State).configure w) := by
  have legal : (Instr.cfgwr (regNum w.1) w.2).wellFormed = true :=
    wellFormed_cfgwr_iff.mpr ⟨_, regOfNum_regNum _, writable⟩
  have decoded := (decodeCmd_cmdWord ..).trans (decodeFields_cfgwr_ok_iff.mpr ⟨legal, rfl⟩)
  refine (step_of_decodeCmd_ok free cmdQ decoded).trans ?_
  exact (execCfgwr_of_writable w.2 _ (regOfNum_regNum _) writable).trans (by simp [idle, State.configure])

/-- A list of register writes, one after the other. -/
def State.configureAll (s : State) (ws : List (Reg × RegWord)) : State := ws.foldl State.configure s

/-- Register writes queued in `IDLE` take effect in turn, one step each. -/
theorem core_run_configure {s : State} {ws : List (Reg × RegWord)} (writable : ∀ w ∈ ws, regWritable w.1 = true)
    (idle : s.mode = .idle) (free : s.pushWait = none) (cmdQ : s.cmdQ = writeWords ws) :
    Sys2Proof.core.run ws.length s = .next (({ s with cmdQ := [] } : State).configureAll ws) := by
  induction ws generalizing s with
  | nil =>
    have same : ({ s with cmdQ := [] } : State) = s := by rw [show [] = s.cmdQ from cmdQ.symm]
    exact congrArg Host.Outcome.next same.symm
  | cons w ws ih =>
    obtain ⟨first, others⟩ := List.forall_mem_cons.mp writable
    have e := step_configure first idle free cmdQ
    rw [List.length_cons, core_run_succ_of_step e]
    exact ih others (s := State.configure { s with cmdQ := writeWords ws } w) idle free rfl

/-- Settles O27: the expansion is five register writes, and their effects together are the configuration's five fields
and five responses. -/
theorem cfgfmWritesTheConfiguration : Obligations.CfgfmWritesTheConfiguration := by
  intro s a b c d idle free cmdQ
  have runs := core_run_configure
    (ws := [(.inrate, a), (.outrate, b), (.bandwidth, c), (.modscheme, 0), (.deviation, d)]) (by simp [regWritable])
    idle free cmdQ
  exact runs.trans (by simp [State.configureAll, State.configure, State.writeReg, State.respond, Cfg.write])

/-! ## `PUSH` -/

theorem execPush_short {len : BitVec 32} {s : State} (mode : s.mode = .run) (short : s.inQ.length < len.toNat) :
    execPush len s = .next (s.holdPush len) := by
  rcases execPush_cases len s with ⟨notRun, _⟩ | ⟨_, _, e⟩ | ⟨_, _, ready, _⟩ | ⟨_, ready, _⟩
  · exact absurd mode notRun
  · exact e
  · omega
  · omega

/-- Settles O22: a waiting core takes its `PUSH` up again, and without the bytes this only sets the wait again. -/
theorem pushWaitsForItsBytes : Obligations.PushWaitsForItsBytes := by
  refine fun len s => ⟨fun mode short => execPush_short mode short, fun mode waiting short => ?_, fun bs waiting => ?_⟩
  · have held := execPush_short (s := { s with pushWait := none }) mode short
    have same : ({ s with pushWait := none } : State).holdPush len = s := by simp [State.holdPush, ← waiting]
    exact (step_of_waiting waiting).trans (held.trans (congrArg Host.Outcome.next same))
  · exact step_of_waiting (s := s.hostBytes bs) waiting

/-- Settles O23: the empty chunk is less than a sample. -/
theorem pushZeroDoesNothing : Obligations.PushZeroDoesNothing := by
  intro s mode objs
  obtain ⟨o, objs⟩ := Option.ne_none_iff_exists'.mp objs
  have nothing := exec_push_less_than_sample (chunk := []) (more := s.inQ) mode objs rfl (by decide)
  exact nothing.trans (by simp [State.respond])

/-! ## One sample -/

theorem execIqdec_of_objs {s : State} {o : Objects} (i q : BitVec 16) (objs : s.objs = some o) :
    execIqdec i q s = .next ((s.setObjs (some (sampleStep s.build o i q).1)).outWrite
      (pcmStream (sampleStep s.build o i q).2)) := by
  simp [execIqdec, objs]

/-- Settles O34: the five stages are those of `sampleStep`, and each output sample stands for its two bytes. -/
theorem iqdecFeedsThePipeline : Obligations.IqdecFeedsThePipeline := by
  intro i q s o objs N f r d
  have words : (sampleStep s.build o i q).2 = d.2.map (quant N s.build.qtie) := rfl
  refine ⟨_, execIqdec_of_objs i q objs, ?_, ?_⟩
  · rw [words, pcmStream, List.flatMap_map]
    rfl
  · rw [State.outBytes_outWrite, pcmStream_val, words, List.flatMap_map, State.outBytes_setObjs]
    simp only [pcmBytes_eq]

theorem chunkLoop_singleton (b : Build) (o : Objects) (w : IqWord) :
    chunkLoop b o [w] = sampleStep b o (iqI w) (iqQ w) := by
  simp [chunkLoop, chunkLoopWith, sampleStep]

/-- Settles O6: the chunk of the `PUSH` is the one sample, which goes through the pipeline as `IQDEC` sends it. -/
theorem stepRunsInputSample : Obligations.StepRunsInputSample := by
  intro s b0 b1 b2 b3 more rest o i free cmdQ mode objs inQ decoded
  cases decoded
  have pushes := exec_push_of_inQ (s := { s with cmdQ := rest }) (chunk := [b0, b1, b2, b3]) (more := more) mode objs
    inQ (by simp)
  have fetched := step_of_decodeCmd_ok (i := .push 4) free cmdQ rfl
  refine ⟨_, (sampleStep s.build o (iqI (iqOfBytes b0 b1 b2 b3)) (iqQ (iqOfBytes b0 b1 b2 b3))).2.length,
    execIqdec_of_objs _ _ objs, ?_, fetched.trans (pushes.trans ?_)⟩
  · simp [pcmStream_length]
  · rw [show iqWords [b0, b1, b2, b3] = [iqOfBytes b0 b1 b2 b3] from rfl, State.afterSamples, chunkLoop_singleton]
    rfl

end Sys2Proof.Machine

/-! PROOFS. The resampler over sequences: how many outputs a stage (O41) and a cascade (O42) give, the two orders of
feeding a cascade (O44), the delay of a plan (O45) and the register that shows it (O18). -/

namespace Sys2Proof.Machine

/-! ## Output counts -/

/-- Settles O44: the number of stages is the fuel `feed` needs. -/
theorem depthFirstEqualsStageByStage : Obligations.DepthFirstEqualsStageByStage :=
  fun N M sts x => feed_eq_cascadeRun N M sts.length sts x rfl

/-- What a stage over a sequence does to the phase accumulator: `P` off for each input, `Q` on for each output, and it
ends below `Q` (42_resampler.md R78, R83). -/
theorem stageRun_acc (N : Numerics) {M : ℕ} {st : RsStage} (xs : List Cplx) (wf : st.wf M) :
    (stageRun N M st xs).1.acc + xs.length * st.p = st.acc + (stageRun N M st xs).2.length * st.q ∧
      (stageRun N M st xs).1.acc < st.q := by
  induction xs generalizing st with
  | nil =>
    obtain ⟨_, _, _, _, _, _, below⟩ := wf
    exact ⟨by simp [stageRun], below⟩
  | cons x xs ih =>
    have ⟨_, q_pos, _⟩ := wf
    obtain ⟨_, _, _, first, _⟩ := rsStage_spec N M st x
    obtain ⟨others, below⟩ := ih (rsStage_wf N x wf)
    refine ⟨?_, below⟩
    simp only [stageRun, List.length_append, List.length_cons, rsStage_p, rsStage_q] at others ⊢
    linarith [first q_pos]

/-- Settles O41: the outputs are the one integer that leaves the accumulator in `0 .. Q - 1`. -/
theorem stageOutputCount : Obligations.StageOutputCount := by
  intro N M st xs wf outs
  obtain ⟨balance, below⟩ := stageRun_acc N xs wf
  obtain ⟨_, q_pos, _⟩ := wf
  refine ⟨?_, ?_⟩
  · have q_pos : (0 : ℚ) < st.q := by exact_mod_cast q_pos
    have below : ((stageRun N M st xs).1.acc : ℚ) < st.q := by exact_mod_cast below
    have nonneg : (0 : ℚ) ≤ (stageRun N M st xs).1.acc := Nat.cast_nonneg _
    have balance : ((stageRun N M st xs).1.acc : ℚ) + xs.length * st.p = st.acc + outs * st.q := by
      exact_mod_cast balance
    have ceil : ⌈(((xs.length * st.p : ℕ) - (st.acc : ℤ) : ℚ)) / st.q⌉ = (outs : ℤ) := by
      rw [Int.ceil_eq_iff, lt_div_iff₀ q_pos, div_le_iff₀ q_pos]
      push_cast
      constructor <;> linarith
    rw [ceil, max_eq_right (Int.natCast_nonneg outs)]
  · have balance : ((stageRun N M st xs).1.acc : ℤ) + xs.length * st.p = st.acc + outs * st.q := by
      exact_mod_cast balance
    linarith

theorem pairsRatio_cons (s : ℕ × ℕ) (l : List (ℕ × ℕ)) : pairsRatio (s :: l) = s.1 / s.2 * pairsRatio l := by
  simp [pairsRatio]

theorem pairsRatio_pos {l : List (ℕ × ℕ)} (pos : ∀ s ∈ l, 1 ≤ s.1 ∧ 1 ≤ s.2) : 0 < pairsRatio l := by
  induction l with
  | nil => exact one_pos
  | cons s l ih =>
    obtain ⟨⟨p_pos, q_pos⟩, others⟩ := List.forall_mem_cons.mp pos
    rw [pairsRatio_cons]
    exact mul_pos (div_pos (by exact_mod_cast p_pos) (by exact_mod_cast q_pos)) (ih others)

theorem stagePairs_pos {M : ℕ} {sts : List RsStage} (wf : ∀ st ∈ sts, st.wf M) :
    ∀ s ∈ stagePairs sts, 1 ≤ s.1 ∧ 1 ≤ s.2 := by
  intro s hs
  obtain ⟨st, hst, rfl⟩ := List.mem_map.mp hs
  obtain ⟨p_pos, q_pos, _⟩ := wf st hst
  exact ⟨p_pos, q_pos⟩

/-- From a zero accumulator a stage is ahead of its ratio by less than one output. -/
theorem stageRun_rate (N : Numerics) {M : ℕ} {st : RsStage} (xs : List Cplx) (wf : st.wf M) (start : st.acc = 0) :
    (0 : ℚ) ≤ (stageRun N M st xs).2.length - xs.length * (st.p / st.q) ∧
      (stageRun N M st xs).2.length - xs.length * (st.p / st.q : ℚ) < 1 := by
  obtain ⟨balance, below⟩ := stageRun_acc N xs wf
  have q_pos : (0 : ℚ) < st.q := by exact_mod_cast (Nat.zero_le _).trans_lt below
  have ahead : (stageRun N M st xs).2.length - xs.length * (st.p / st.q : ℚ) = (stageRun N M st xs).1.acc / st.q := by
    have balance : ((stageRun N M st xs).1.acc : ℚ) + xs.length * st.p = (stageRun N M st xs).2.length * st.q := by
      rw [start, Nat.zero_add] at balance
      exact_mod_cast balance
    field_simp
    linarith
  rw [ahead]
  exact ⟨by positivity, (div_lt_one q_pos).mpr (by exact_mod_cast below)⟩

/-- From zero accumulators a cascade is never behind its ratio, and ahead of it by less than the slack of its stages:
what the first stage is ahead counts by the ratio of those behind it (42_resampler.md R78). -/
theorem cascadeRun_rate (N : Numerics) {M : ℕ} (sts : List RsStage) (xs : List Cplx)
    (start : ∀ st ∈ sts, st.wf M ∧ st.acc = 0) :
    0 ≤ (cascadeRun N M sts xs).2.length - xs.length * pairsRatio (stagePairs sts) ∧
      (cascadeRun N M sts xs).2.length - xs.length * pairsRatio (stagePairs sts) ≤ countSlack (stagePairs sts) ∧
      (sts ≠ [] →
        (cascadeRun N M sts xs).2.length - xs.length * pairsRatio (stagePairs sts) < countSlack (stagePairs sts)) := by
  induction sts generalizing xs with
  | nil => simp [cascadeRun, stagePairs, pairsRatio, countSlack]
  | cons st rest ih =>
    obtain ⟨⟨wf, acc⟩, rest_start⟩ := List.forall_mem_cons.mp start
    obtain ⟨first_nonneg, first_lt⟩ := stageRun_rate N xs wf acc
    obtain ⟨behind_nonneg, behind_le, _⟩ := ih (stageRun N M st xs).2 rest_start
    have ratio_pos := pairsRatio_pos (stagePairs_pos fun s hs => (rest_start s hs).1)
    have split : ((cascadeRun N M (st :: rest) xs).2.length : ℚ) - xs.length * pairsRatio (stagePairs (st :: rest)) =
        ((cascadeRun N M rest (stageRun N M st xs).2).2.length -
            (stageRun N M st xs).2.length * pairsRatio (stagePairs rest)) +
          ((stageRun N M st xs).2.length - xs.length * (st.p / st.q : ℚ)) * pairsRatio (stagePairs rest) := by
      rw [show stagePairs (st :: rest) = (st.p, st.q) :: stagePairs rest from rfl, pairsRatio_cons, cascadeRun]
      ring
    have slack : countSlack (stagePairs (st :: rest)) =
        pairsRatio (stagePairs rest) + countSlack (stagePairs rest) := rfl
    have first_scaled_lt := mul_lt_mul_of_pos_right first_lt ratio_pos
    have first_scaled_nonneg := mul_nonneg first_nonneg ratio_pos.le
    rw [split, slack]
    exact ⟨by linarith, by linarith, fun _ => by linarith⟩

/-- Settles O42: with a stage in the cascade the bound from above is strict. -/
theorem cascadeRateAccuracy : Obligations.CascadeRateAccuracy := by
  intro N M sts xs nonempty start outs
  obtain ⟨nonneg, _, lt⟩ := cascadeRun_rate N sts xs start
  exact ⟨nonneg, lt nonempty⟩

/-! ## The delay -/

/-- Where nothing is rounded the delay adds for each stage its own delay over the ratio in front of it (42_resampler.md
R80); `sum` is what the stages before have added, `ρ` their ratio. -/
theorem delaySum_eq {N : Numerics} (unrounded : ∀ q, N.delayRnd q = q) (M : ℕ) (sum ρ : ℚ) (l : List (ℕ × ℕ)) :
    delaySum N M sum ρ l = sum + ∑ i ∈ Finset.range l.length,
      (((l.getD i (1, 1)).1 : ℚ) * M - 1) / (2 * (l.getD i (1, 1)).1) / (ρ * pairsRatio (l.take i)) := by
  induction l generalizing sum ρ with
  | nil => simp [delaySum]
  | cons s l ih =>
    rw [delaySum, ih, List.length_cons, Finset.sum_range_succ']
    simp only [unrounded, stageDelay, List.getD_cons_succ, List.getD_cons_zero, List.take_succ_cons, List.take_zero,
      pairsRatio_cons, ← mul_assoc]
    simp [pairsRatio]
    ring

theorem totalDelay_eq {N : Numerics} (unrounded : ∀ q, N.delayRnd q = q) (M : ℕ) (l : List (ℕ × ℕ)) :
    totalDelay N M l = ∑ i ∈ Finset.range l.length,
      (((l.getD i (1, 1)).1 : ℚ) * M - 1) / (2 * (l.getD i (1, 1)).1) / pairsRatio (l.take i) := by
  simp [totalDelay, delaySum_eq unrounded]

/-- Settles O45: the exact format rounds no part of the delay. -/
theorem delayIsTheSumOverTheStages : Obligations.DelayIsTheSumOverTheStages :=
  fun _ M l _ => totalDelay_eq (fun _ => rfl) M l

/-- An unrounded delay of a legal plan is not negative. -/
theorem totalDelay_nonneg {N : Numerics} (unrounded : ∀ q, N.delayRnd q = q) {M : ℕ} {l : List (ℕ × ℕ)} (hM : 1 ≤ M)
    (pos : ∀ s ∈ l, 1 ≤ s.1 ∧ 1 ≤ s.2) : 0 ≤ totalDelay N M l := by
  rw [totalDelay_eq unrounded]
  refine Finset.sum_nonneg fun i hi => div_nonneg (div_nonneg ?_ (by positivity)) ?_
  · have p_pos : 1 ≤ (l.getD i (1, 1)).1 := by
      rw [List.getD_eq_getElem _ _ (Finset.mem_range.mp hi)]
      exact (pos _ (List.getElem_mem _)).1
    have : (1 : ℚ) ≤ (l.getD i (1, 1)).1 * M := by exact_mod_cast Nat.mul_pos p_pos hM
    linarith
  · exact (pairsRatio_pos fun s hs => pos s (List.mem_of_mem_take hs)).le

/-! ## The status registers -/

/-- `RSDELAY` holds the clamped integer as it is: it fits the register. -/
theorem delayReg_toNat (N : Numerics) (d : ℚ) :
    ((delayReg N d).toNat : ℤ) = max 0 (min ⌊N.delayRnd (d * 65536)⌋ (2 ^ 32 - 1)) := by
  rw [delayReg, BitVec.toNat_ofInt, Int.toNat_of_nonneg (Int.emod_nonneg _ (by norm_num))]
  exact Int.emod_eq_of_lt (le_max_left ..) (by omega)

theorem Objects.LegalFor.delay_nonneg {o : Objects} {b : Build} {c : Cfg} {rsdelay : RegWord}
    (h : o.LegalFor b c rsdelay) (exact_fmt : b.fmt = .exact) : 0 ≤ o.rs.delay := by
  obtain ⟨⟨_, ⟨m_pos, _, stages⟩, _⟩, _, ⟨delay, _⟩⟩ := h
  rw [delay]
  exact totalDelay_nonneg (numericsOf_exact_delayRnd exact_fmt) m_pos (stagePairs_pos stages)

/-- Settles O18: the invariant says what the two registers hold, and a delay that is not negative needs no clamp
at 0. -/
theorem statusRegistersFollowTheMode : Obligations.StatusRegistersFollowTheMode := by
  intro s h
  have ⟨_, _, _, err, errcode_le⟩ := h
  refine ⟨fun notRun => (h.no_objs notRun).2, fun run => ?_, fun notErr => ?_, fun isErr => ⟨?_, errcode_le⟩⟩
  · obtain ⟨o, objs, legal⟩ := h.has_objs run
    obtain ⟨_, register⟩ := legal.shown
    have shows : ((s.readReg .rsdelay).toNat : ℤ) =
        max 0 (min ⌊(numericsOf s.build).delayRnd (o.rs.delay * 65536)⌋ (2 ^ 32 - 1)) := by
      rw [State.readReg, register, delayReg_toNat]
    refine ⟨o, objs, fun exact_fmt => ?_, shows⟩
    have nonneg : 0 ≤ ⌊o.rs.delay * 65536⌋ := Int.floor_nonneg.mpr
      (mul_nonneg (legal.delay_nonneg exact_fmt) (by norm_num))
    rw [shows, numericsOf_exact_delayRnd exact_fmt, max_eq_right (le_min nonneg (by norm_num))]
  · exact not_not.mp (mt err.mpr notErr)
  · exact Nat.pos_of_ne_zero fun zero => err.mp isErr (BitVec.eq_of_toNat_eq zero)

end Sys2Proof.Machine

/-! PROOFS. The two dot products in the exact format: the filter is the convolution with its coefficient set (O36), and
an output of a resampler stage is the sum of its branch over the history (O59). -/

namespace Sys2Proof.Machine

/-! ## The circular buffer -/

/-- The entry `k` places back from the head, without the `mod`. -/
theorem back_eq {head k n : ℕ} (hhead : head < n) (hk : k < n) :
    (head + n - k) % n = if k ≤ head then head - k else head + n - k := by
  split
  · rw [show head + n - k = head - k + n by omega, Nat.add_mod_right, Nat.mod_eq_of_lt (by omega)]
  · exact Nat.mod_eq_of_lt (by omega)

theorem headNext_eq {head n : ℕ} (hhead : head < n) : headNext head n = if head + 1 = n then 0 else head + 1 := by
  unfold headNext
  split
  · rename_i h; rw [h, Nat.mod_self]
  · exact Nat.mod_eq_of_lt (by omega)

/-- The integer `mod` of the rules, on natural numbers. -/
theorem headBack_eq {head k n : ℕ} (hk : k < n) : headBack head k n = (head + n - k) % n := by
  have shift : ((head : ℤ) - k) % n = ((head + n - k : ℕ) : ℤ) % n := by
    rw [show ((head + n - k : ℕ) : ℤ) = (head : ℤ) - k + n by omega, Int.add_emod_right]
  rw [headBack, shift]
  exact Int.toNat_natCast _

/-! ## The dot product -/

@[simp] theorem cplxZero_re_val : Cplx.zero.re.val = 0 := by simp [Cplx.zero]
@[simp] theorem cplxZero_im_val : Cplx.zero.im.val = 0 := by simp [Cplx.zero]

/-- A sum of complex numbers in the exact format, lane by lane. -/
theorem foldl_cadd_val (z : RealNum) (f : ℕ → Cplx) (n : ℕ) :
    ((List.range n).foldl (fun y k => (exactNumerics z).cadd y (f k)) Cplx.zero).re.val =
        ∑ k ∈ Finset.range n, (f k).re.val ∧
      ((List.range n).foldl (fun y k => (exactNumerics z).cadd y (f k)) Cplx.zero).im.val =
        ∑ k ∈ Finset.range n, (f k).im.val := by
  induction n with
  | zero => simp
  | succ n ih =>
    obtain ⟨re, im⟩ := ih
    simp [List.range_succ, Finset.sum_range_succ, re, im]

/-- Where every index is in range, the dot product in the exact format is the sum of the real products, lane by lane. -/
theorem dotProduct_val (z : RealNum) {g : List RealNum} {φ stride : ℕ} {h : List Cplx} {head n : ℕ}
    (coefs : ∀ k < n, φ + k * stride < g.length) (hist : h.length = n) :
    (dotProduct (exactNumerics z) g φ stride h head n).re.val = ∑ k ∈ Finset.range n,
        (g.getD (φ + k * stride) (.rat 0)).val * (h.getD ((head + n - k) % n) Cplx.zero).re.val ∧
      (dotProduct (exactNumerics z) g φ stride h head n).im.val = ∑ k ∈ Finset.range n,
        (g.getD (φ + k * stride) (.rat 0)).val * (h.getD ((head + n - k) % n) Cplx.zero).im.val := by
  have coef : ∀ k < n, coefAt g (φ + k * stride) = g.getD (φ + k * stride) (.rat 0) := fun k hk => by
    simp [coefAt, coefs k hk]
  have entry : ∀ k < n, histAt h (headBack head k n) = h.getD ((head + n - k) % n) Cplx.zero := fun k hk => by
    have inside : (head + n - k) % n < h.length := hist ▸ Nat.mod_lt _ (by omega)
    simp [histAt, headBack_eq hk, inside]
  obtain ⟨re, im⟩ := foldl_cadd_val z
    (fun k => (exactNumerics z).cscale (coefAt g (φ + k * stride)) (histAt h (headBack head k n))) n
  rw [dotProduct, re, im]
  constructor <;> refine Finset.sum_congr rfl fun k hk => ?_
  · rw [exact_cscale_re_val, coef k (Finset.mem_range.mp hk), entry k (Finset.mem_range.mp hk)]
  · rw [exact_cscale_im_val, coef k (Finset.mem_range.mp hk), entry k (Finset.mem_range.mp hk)]

/-! ## The filter -/

/-- `f.Holds past`: the filter's history is the samples `past`, newest first, and zero behind them. -/
def FirState.Holds (f : FirState) (past : List Cplx) : Prop :=
  ∀ k < f.len, f.hist.getD ((f.head + f.len - k) % f.len) Cplx.zero = past.getD k Cplx.zero

/-- A sample taken in is the newest of the history. -/
theorem firPush_holds {f : FirState} {past : List Cplx} (wf : f.wf) (h : f.Holds past) (x : Cplx) :
    (firPush f x).Holds (x :: past) := by
  obtain ⟨len, _, hist, head⟩ := wf
  intro k hk
  simp only [firPush] at hk ⊢
  have head' : headNext f.head f.len < f.len := headNext_lt head
  rw [back_eq head' hk]
  cases k with
  | zero => simp [hist, head']
  | succ k =>
    have old := h k (by omega)
    rw [back_eq head (by omega)] at old
    rw [List.getD_cons_succ, ← old]
    have step_eq := headNext_eq head
    have same_entry : (if k + 1 ≤ headNext f.head f.len then headNext f.head f.len - (k + 1)
        else headNext f.head f.len + f.len - (k + 1)) = if k ≤ f.head then f.head - k else f.head + f.len - k := by
      split_ifs at * <;> omega
    have other : headNext f.head f.len ≠ if k ≤ f.head then f.head - k else f.head + f.len - k := by
      split_ifs at * <;> omega
    rw [same_entry, List.getD_eq_getElem?_getD, List.getD_eq_getElem?_getD, List.getElem?_set_ne other]

/-- Output `n` of the filter over a sequence is that of a filter with the same coefficients that holds the first `n + 1`
inputs. -/
theorem firRun_getElem? (N : Numerics) {f : FirState} {past : List Cplx} (wf : f.wf) (h : f.Holds past) {xs : List Cplx}
    {n : ℕ} {y : Cplx} (hy : (firRun N f xs).2[n]? = some y) :
    ∃ g : FirState, g.wf ∧ g.len = f.len ∧ g.coef = f.coef ∧ g.Holds ((xs.take (n + 1)).reverse ++ past) ∧
      y = firOutput N g := by
  induction xs generalizing f past n with
  | nil => simp [firRun] at hy
  | cons x xs ih =>
    obtain ⟨_, _, keeps⟩ := firStep_spec N f x
    cases n with
    | zero =>
      simp only [firRun, List.getElem?_cons_zero, Option.some.injEq] at hy
      exact ⟨firPush f x, keeps wf, rfl, rfl, by simpa using firPush_holds wf h x, hy.symm⟩
    | succ n =>
      obtain ⟨g, g_wf, len, coef, holds, output⟩ := ih (keeps wf) (firPush_holds wf h x) hy
      exact ⟨g, g_wf, len, coef, by simpa using holds, output⟩

theorem firRun_length (N : Numerics) (f : FirState) (xs : List Cplx) : (firRun N f xs).2.length = xs.length := by
  induction xs generalizing f with
  | nil => rfl
  | cons x xs ih => simp [firRun, ih]

/-- The first `n + 1` inputs read from the newest: input `n - k`, and zero before the first. -/
theorem reverse_take_getD {xs : List Cplx} {n : ℕ} (hn : n < xs.length) (k : ℕ) :
    (xs.take (n + 1)).reverse.getD k Cplx.zero = if k ≤ n then xs.getD (n - k) Cplx.zero else Cplx.zero := by
  have len : (xs.take (n + 1)).length = n + 1 := by simp; omega
  split
  · rw [List.getD_eq_getElem?_getD, List.getD_eq_getElem?_getD, List.getElem?_reverse (by omega), len,
      List.getElem?_take_of_lt (by omega), show n + 1 - 1 - k = n - k by omega]
  · exact List.getD_eq_default _ _ (by simp; omega)

theorem FirState.holds_nil {f : FirState} (zero : f.hist = List.replicate f.len Cplx.zero) : f.Holds [] := by
  intro k hk
  simp [zero, List.getD_eq_getElem?_getD, Nat.mod_lt _ (Nat.zero_lt_of_lt hk)]

/-- Output `n` of a filter that starts with zero history: the filter that gives it holds the inputs up to `n`, and its
dot product pairs coefficient `k` with the input `k` places back (41_fir_filter.md R68). -/
theorem firRun_val (z : RealNum) {f : FirState} (wf : f.wf) (zero : f.hist = List.replicate f.len Cplx.zero)
    {xs : List Cplx} {n : ℕ} {y : Cplx} (hy : (firRun (exactNumerics z) f xs).2[n]? = some y) :
    y.re.val = (∑ k ∈ Finset.range f.len,
        if k ≤ n then (f.coef.getD k (.rat 0)).val * (xs.getD (n - k) Cplx.zero).re.val else 0) ∧
      y.im.val = (∑ k ∈ Finset.range f.len,
        if k ≤ n then (f.coef.getD k (.rat 0)).val * (xs.getD (n - k) Cplx.zero).im.val else 0) := by
  have hn : n < xs.length := firRun_length (exactNumerics z) f xs ▸ (List.getElem?_eq_some_iff.mp hy).1
  obtain ⟨g, ⟨_, coef_len, hist_len, _⟩, len, coef, holds, rfl⟩ :=
    firRun_getElem? (exactNumerics z) wf (FirState.holds_nil zero) hy
  rw [← len, ← coef]
  obtain ⟨re, im⟩ := dotProduct_val z (g := g.coef) (φ := 0) (stride := 1) (head := g.head)
    (by simp [coef_len]) hist_len
  have entry : ∀ k < g.len, g.hist.getD ((g.head + g.len - k) % g.len) Cplx.zero =
      if k ≤ n then xs.getD (n - k) Cplx.zero else Cplx.zero := fun k hk => by
    rw [holds k hk, List.append_nil, reverse_take_getD hn]
  rw [firOutput, re, im]
  constructor <;>
  · refine Finset.sum_congr rfl fun k hk => ?_
    rw [entry k (Finset.mem_range.mp hk)]
    split <;> simp

/-- Settles O36: the filter of the statement starts with zero history. -/
theorem firComputesTheConvolution : Obligations.FirComputesTheConvolution :=
  fun z L coef _ hL hcoef => ⟨firRun_length .., fun _ _ hy =>
    firRun_val z (f := ⟨L, coef, List.replicate L Cplx.zero, L - 1⟩)
      ⟨hL, hcoef, List.length_replicate .., Nat.sub_lt hL one_pos⟩ rfl hy⟩

/-! ## A resampler stage -/

/-- The branches of one round start at the accumulator and are `Q` apart (42_resampler.md R76). -/
theorem branchLoop_getElem? {P Q : ℕ} {fuel acc j φ : ℕ} (h : (branchLoop P Q fuel acc).1[j]? = some φ) :
    φ = acc + j * Q := by
  induction fuel generalizing acc j with
  | zero => simp [branchLoop] at h
  | succ fuel ih =>
    rw [branchLoop] at h
    split at h
    · cases j with
      | zero => simpa using h.symm
      | succ j =>
        rw [ih h]
        ring
    · simp at h

/-- Settles O59: output `j` belongs to branch `j` of the loop, and the branch and its stride keep every index inside the
bank. -/
theorem stageOutputsAreBranchSums : Obligations.StageOutputsAreBranchSums := by
  intro z M st x y j wf hy hist head
  obtain ⟨_, q_pos, _, coef_len, hist_len, _⟩ := wf
  simp only [rsStage, List.getElem?_map, Option.map_eq_some_iff] at hy
  obtain ⟨φ, hφ, rfl⟩ := hy
  obtain ⟨_, _, _, below⟩ := branchLoop_spec q_pos st.p st.acc (Nat.le_add_left ..)
  have φ_lt := below φ (List.mem_of_getElem? hφ)
  obtain rfl := branchLoop_getElem? hφ
  have coefs : ∀ k < M, st.acc + j * st.q + k * st.p < st.coef.length := fun k hk => by
    have := Nat.mul_le_mul_right st.p (Nat.succ_le_of_lt hk)
    rw [Nat.succ_mul] at this
    rw [coef_len, Nat.mul_comm st.p]
    omega
  obtain ⟨re, im⟩ := dotProduct_val z (h := hist) (head := head) coefs ((rsStage_hist_length ..).trans hist_len)
  exact ⟨φ_lt, rfl, rfl, re, im⟩

end Sys2Proof.Machine

/-! PROOFS. The coefficient designs in the exact format: the Kaiser window (O58) and its shape parameter (O57), the taps
of `FIRDSN` (O37, O38) and the banks of the resampler (O56). -/

namespace Sys2Proof.Machine

/-! ## The Kaiser window -/

theorem kaiserBeta_of_lt (z : RealNum) {A : ℤ} (h : A < 21) : (kaiserBeta (exactNumerics z) A).val = 0 := by
  rw [kaiserBeta, if_neg (by omega), if_neg (by omega), RealNum.val_rat, Rat.cast_zero]

theorem kaiserBeta_of_gt (z : RealNum) {A : ℤ} (h : 50 < A) :
    (kaiserBeta (exactNumerics z) A).val = 0.1102 * (A - 8.7) := by
  rw [kaiserBeta, if_pos h]
  simp only [exact_mul_val, exact_sub_val, RealNum.val_rat]
  norm_num

theorem kaiserBeta_of_mem (z : RealNum) {A : ℤ} (h : 21 ≤ A) (h' : A ≤ 50) :
    (kaiserBeta (exactNumerics z) A).val = 0.5842 * ((A : ℝ) - 21) ^ (0.4 : ℝ) + 0.07886 * (A - 21) := by
  have nonneg : (0 : ℝ) ≤ A - 21 := sub_nonneg.mpr (by exact_mod_cast h)
  rw [kaiserBeta, if_neg (by omega), if_pos h]
  simp only [exact_add_val, exact_mul_val, exact_sub_val, exact_rnd, exact_pow04_val, RealNum.val_rat]
  norm_num [abs_of_nonneg nonneg]

/-- Settles O57: the branches of the definition, read as real numbers. -/
theorem kaiserShapeBranches : Obligations.KaiserShapeBranches := by
  refine fun z A => ⟨kaiserBeta_of_gt z, kaiserBeta_of_mem z, kaiserBeta_of_lt z, ?_⟩
  rw [kaiserBeta_of_gt z (by norm_num)]
  norm_num

/-- The clamp at 0 under the square root changes nothing: the real root of a negative number is 0. -/
theorem sqrt_max_zero (x : ℝ) : Real.sqrt (max 0 x) = Real.sqrt x := by
  rcases le_total 0 x with h | h
  · rw [max_eq_right h]
  · rw [max_eq_left h, Real.sqrt_zero, Real.sqrt_eq_zero_of_nonpos h]

theorem kaiserArg_val (z : RealNum) {L : ℕ} (hL : 1 < L) (n : ℕ) :
    (kaiserArg (exactNumerics z) L n).val = max 0 (1 - (2 * n / ((L : ℝ) - 1) - 1) ^ 2) := by
  have width : (RealNum.rat ((L : ℚ) - 1)).val = (L : ℝ) - 1 := by simp
  have width_pos : (0 : ℝ) < (L : ℝ) - 1 := sub_pos.mpr (by exact_mod_cast hL)
  have place := exact_div_val z (.rat (2 * n)) (width.trans_ne width_pos.ne')
  simp only [kaiserArg, RealNum.val_atLeastZero, exact_sub_val, exact_mul_val, place, width, RealNum.val_rat]
  push_cast
  ring_nf

theorem kaiserWindow_one (N : Numerics) (A : ℤ) (n : ℕ) : kaiserWindow N 1 A n = .rat 1 := rfl

/-- The window of more than one tap, as real numbers (41_fir_filter.md R65). -/
theorem kaiserWindow_val (z : RealNum) {L : ℕ} (hL : 1 < L) (A : ℤ) (n : ℕ) :
    (kaiserWindow (exactNumerics z) L A n).val =
      besselI0 ((kaiserBeta (exactNumerics z) A).val * Real.sqrt (1 - (2 * n / ((L : ℝ) - 1) - 1) ^ 2)) /
        besselI0 (kaiserBeta (exactNumerics z) A).val := by
  have denominator : ((exactNumerics z).rnd ((exactNumerics z).i0 (kaiserBeta (exactNumerics z) A))).val ≠ 0 := by
    simpa using besselI0_ne_zero _
  rw [kaiserWindow, if_neg (by omega), exact_div_val z _ denominator]
  simp only [exact_rnd, exact_i0_val, exact_mul_val, exact_sqrt_val, kaiserArg_val z hL, sqrt_max_zero]

/-- Where the window's argument is at an end of the square root's range the root is 0. -/
theorem kaiserWindow_val_of_sq_eq_one (z : RealNum) {L : ℕ} (hL : 1 < L) (A : ℤ) {n : ℕ}
    (h : (2 * n / ((L : ℝ) - 1) - 1) ^ 2 = 1) :
    (kaiserWindow (exactNumerics z) L A n).val = 1 / besselI0 (kaiserBeta (exactNumerics z) A).val := by
  rw [kaiserWindow_val z hL, h, sub_self, Real.sqrt_zero, mul_zero, besselI0_zero]

theorem kaiserWindow_val_centre (z : RealNum) (A : ℤ) (m : ℕ) :
    (kaiserWindow (exactNumerics z) (2 * m + 1) A m).val = 1 := by
  rcases Nat.eq_zero_or_pos m with rfl | pos
  · simp [kaiserWindow_one]
  · have centre : 2 * (m : ℝ) / (((2 * m + 1 : ℕ) : ℝ) - 1) - 1 = 0 := by
      have : (m : ℝ) ≠ 0 := by exact_mod_cast pos.ne'
      push_cast
      rw [add_sub_cancel_right, div_self (by simpa using this), sub_self]
    rw [kaiserWindow_val z (by omega), centre]
    simpa using div_self (besselI0_ne_zero _)

theorem kaiserWindow_val_of_lt (z : RealNum) {L : ℕ} (hL : 1 ≤ L) {A : ℤ} (hA : A < 21) (n : ℕ) :
    (kaiserWindow (exactNumerics z) L A n).val = 1 := by
  rcases hL.eq_or_lt with rfl | hL
  · simp [kaiserWindow_one]
  · simp [kaiserWindow_val z hL, kaiserBeta_of_lt z hA]

/-- Settles O58: at the ends the square root is 0, at the centre 1, and `β` is 0 for a small attenuation. -/
theorem kaiserWindowEndsAndCentre : Obligations.KaiserWindowEndsAndCentre := by
  intro z L A β
  refine ⟨?_, fun hL n _ => kaiserWindow_val z hL A n, fun hL => ⟨?_, ?_⟩, ?_, fun hA n hn =>
    kaiserWindow_val_of_lt z (Nat.zero_lt_of_lt hn) hA n⟩
  · rintro rfl
    simp [kaiserWindow_one]
  · exact kaiserWindow_val_of_sq_eq_one z hL A (by norm_num)
  · refine kaiserWindow_val_of_sq_eq_one z hL A ?_
    have width : (L : ℝ) - 1 ≠ 0 := (sub_pos.mpr (by exact_mod_cast hL)).ne'
    rw [Nat.cast_sub hL.le, Nat.cast_one, mul_div_assoc, div_self width]
    norm_num
  · rintro m rfl
    exact kaiserWindow_val_centre z A m

/-! ## The taps -/

/-- A tap in the exact format is the formula of 41_fir_filter.md R65. -/
theorem firTap_val (z : RealNum) (L : ℕ) (fc : RealNum) (A : ℤ) (n : ℕ) :
    (firTap (exactNumerics z) L fc A n).val =
      2 * fc.val *
        (if 2 * fc.val * (n - ((L : ℝ) - 1) / 2) = 0 then 1
          else Real.sin (Real.pi * (2 * fc.val * (n - ((L : ℝ) - 1) / 2))) /
            (Real.pi * (2 * fc.val * (n - ((L : ℝ) - 1) / 2)))) *
        (kaiserWindow (exactNumerics z) L A n).val := by
  have half : ((exactNumerics z).div (.rat ((L : ℚ) - 1)) (.rat 2)).val = ((L : ℝ) - 1) / 2 := by
    rw [exact_div_val z _ (by simp)]
    simp
  simp only [firTap, sincPrototype, exact_mul_val, exact_sinc_val, exact_sub_val, half, RealNum.val_rat, Rat.cast_ofNat,
    Rat.cast_natCast]

/-- The window is symmetric: mirroring a tap changes the sign under the square (41_fir_filter.md R67). -/
theorem kaiserWindow_val_mirror (z : RealNum) {L : ℕ} (A : ℤ) {n : ℕ} (hn : n < L) :
    (kaiserWindow (exactNumerics z) L A (L - 1 - n)).val = (kaiserWindow (exactNumerics z) L A n).val := by
  rcases (Nat.succ_le_of_lt (Nat.zero_lt_of_lt hn)).eq_or_lt with rfl | hL
  · simp only [kaiserWindow_one]
  · have width : (L : ℝ) - 1 ≠ 0 := (sub_pos.mpr (by exact_mod_cast hL)).ne'
    have mirrored : 2 * ((L - 1 - n : ℕ) : ℝ) / ((L : ℝ) - 1) - 1 = -(2 * n / ((L : ℝ) - 1) - 1) := by
      rw [Nat.sub_sub, Nat.cast_sub (by omega)]
      push_cast
      field_simp
      ring
    rw [kaiserWindow_val z hL, kaiserWindow_val z hL, mirrored, neg_sq]

/-- Settles O37: mirroring a tap changes the sign of its argument, and the sinc and the window are even. -/
theorem firDesignIsSymmetric : Obligations.FirDesignIsSymmetric := by
  intro z L fc A n hn
  refine ⟨firTap_val z L fc A n, ?_⟩
  have mirrored : ((L - 1 - n : ℕ) : ℝ) - ((L : ℝ) - 1) / 2 = -(n - ((L : ℝ) - 1) / 2) := by
    rw [Nat.sub_sub, Nat.cast_sub (by omega)]
    push_cast
    ring
  rw [firTap_val, firTap_val, mirrored, kaiserWindow_val_mirror z A hn]
  simp only [mul_neg, neg_eq_zero, Real.sin_neg, neg_div_neg_eq]

/-- Settles O38: at the centre the argument of the sinc is 0 and the window is 1. -/
theorem firCentreTapIsTwiceTheCutoff : Obligations.FirCentreTapIsTwiceTheCutoff := by
  intro z m fc A
  have centre : (m : ℝ) - (((2 * m + 1 : ℕ) : ℝ) - 1) / 2 = 0 := by
    push_cast
    ring
  rw [firTap_val, centre, mul_zero, if_pos rfl, kaiserWindow_val_centre, mul_one, mul_one]

/-! ## The banks -/

/-- Settles O56: the bank is the design of `P·M` taps at the stage's cutoff, each tap times `P`. -/
theorem bankIsTheScaledPrototype : Obligations.BankIsTheScaledPrototype := by
  intro z rsbw M A P Q hP
  refine ⟨bankDesign_length .., (exactNumerics z).div rsbw (.rat (max P Q : ℕ)), ?_, fun j hj => ?_⟩
  · have nonzero : (RealNum.rat (max P Q : ℕ)).val ≠ 0 := by
      rw [RealNum.val_rat, Rat.cast_natCast, Nat.cast_ne_zero]
      omega
    rw [exact_div_val z _ nonzero]
    simp
  · have entry : (bankDesign (exactNumerics z) rsbw M A P Q)[j]? = some ((RealNum.rat P).times
        (firTap (exactNumerics z) (P * M) ((exactNumerics z).div rsbw (.rat (max P Q : ℕ))) A j)) := by
      simp [bankDesign, firDesign, hj]
    exact ⟨_, entry, by rw [RealNum.val_times, RealNum.val_rat, Rat.cast_natCast]⟩

end Sys2Proof.Machine

/-! PROOFS. The demodulator and the quantizer in the exact format: the angle (O46, O47), the phase step (O48), the
rounding (O51), the clamp and the range (O49, O50), and the bytes on `out` (O52, O60). -/

namespace Sys2Proof.Machine

/-! ## The angle -/

/-- The listed angle of a rational direction holds at every distance from the origin. -/
theorem realTurns_of_direction {p q v : ℚ} (away : ¬(p = 0 ∧ q = 0)) (listed : turnsRational p q = some v) (zero : ℝ)
    {r : ℝ} (hr : 0 < r) : realTurns zero (r * p) (r * q) = v := by
  rw [realTurns_scale hr, turnsRational_spec zero away listed]

theorem realTurns_origin (zero : ℝ) : realTurns zero 0 0 = zero / (2 * Real.pi) := by
  simp [realTurns]

/-- Settles O46: each listed point is a multiple of a direction of the table. -/
theorem angleExactValues : Obligations.AngleExactValues := by
  intro z y x r hr turns
  have at_direction (p q v : ℚ) (listed : ¬(p = 0 ∧ q = 0) ∧ turnsRational p q = some v)
      (h : y.val = r * p ∧ x.val = r * q) : turns = v := by
    obtain ⟨hy, hx⟩ := h
    obtain ⟨away, listed⟩ := listed
    simp only [turns, exact_angle_val, hy, hx, realTurns_of_direction away listed z.val hr]
  refine ⟨fun h => ?_, fun h => ?_, fun h => ?_, fun h => ?_, fun h => ?_, fun h => ?_, fun h => ?_, fun h => ?_,
    fun ⟨hy, hx⟩ => ?_⟩
  · simpa using at_direction 0 1 0 (by norm_num [turnsRational]) (by simpa using h)
  · simpa using at_direction 1 1 (1 / 8) (by norm_num [turnsRational]) (by simpa using h)
  · simpa using at_direction 1 0 (1 / 4) (by norm_num [turnsRational]) (by simpa using h)
  · simpa using at_direction 1 (-1) (3 / 8) (by norm_num [turnsRational]) (by simpa using h)
  · simpa using at_direction 0 (-1) (1 / 2) (by norm_num [turnsRational]) (by simpa using h)
  · simpa using at_direction (-1) (-1) (-3 / 8) (by norm_num [turnsRational]) (by simpa using h)
  · simpa using at_direction (-1) 0 (-1 / 4) (by norm_num [turnsRational]) (by simpa using h)
  · simpa using at_direction (-1) 1 (-1 / 8) (by norm_num [turnsRational]) (by simpa using h)
  · simp only [turns, exact_angle_val, hy, hx, realTurns_origin]

/-- Away from the origin the angle in turns points to the point. -/
theorem realTurns_points {zero y x : ℝ} (away : ¬(y = 0 ∧ x = 0)) :
    x = Real.sqrt (x ^ 2 + y ^ 2) * Real.cos (2 * Real.pi * realTurns zero y x) ∧
      y = Real.sqrt (x ^ 2 + y ^ 2) * Real.sin (2 * Real.pi * realTurns zero y x) := by
  have angle : 2 * Real.pi * realTurns zero y x = Complex.arg ⟨x, y⟩ := by
    rw [realTurns, if_neg away]
    exact mul_div_cancel₀ _ (by positivity)
  have distance : Real.sqrt (x ^ 2 + y ^ 2) = ‖(⟨x, y⟩ : ℂ)‖ := (Complex.norm_eq_sqrt_sq_add_sq ⟨x, y⟩).symm
  rw [angle, distance, Complex.norm_mul_cos_arg, Complex.norm_mul_sin_arg]
  exact ⟨rfl, rfl⟩

theorem fmScale_val (z d : RealNum) {kf : ℚ} (hkf : 0 < kf) : (fmScale (exactNumerics z) kf d).val = d.val / kf := by
  have unit : ((exactNumerics z).mul (exactNumerics z).fullTurn (.rat kf)).val = kf := by simp
  rw [fmScale, exact_div_val z d (unit.trans_ne (by exact_mod_cast hkf.ne')), unit]

/-- The output word of a number depends on the real number alone (44_quantizer.md R93, 45_commands.md R110). -/
theorem quant_val_congr (z : RealNum) (t : QTie) {x x' : RealNum} (h : x.val = x'.val) :
    (quant (exactNumerics z) t x).val = (quant (exactNumerics z) t x').val := by
  rw [quant_val, quant_val, scaledUnit_exact_val, scaledUnit_exact_val, h]

/-- Settles O47: the angle is that of the complex argument, which a positive factor does not change. -/
theorem angleIgnoresMagnitude : Obligations.AngleIgnoresMagnitude := by
  intro z y x turns r
  have turns_eq : turns = realTurns z.val y.val x.val := exact_angle_val z y x
  refine ⟨fun away => ?_, fun c y' x' hc hy hx => ?_⟩
  · obtain ⟨lower, upper⟩ := realTurns_mem (zero := z.val) away
    rw [turns_eq]
    exact ⟨lower, upper, realTurns_points away⟩
  · have same : ((exactNumerics z).angle y' x').val = turns := by
      rw [turns_eq, exact_angle_val, hy, hx, realTurns_scale hc]
    refine ⟨same, fun kf t hkf => quant_val_congr z t ?_⟩
    rw [fmScale_val z _ hkf, fmScale_val z _ hkf, same]

/-- The angle of `s·conj(prev)` in the exact format. -/
theorem phaseStep_val (z : RealNum) (prev s : Cplx) :
    (phaseStep (exactNumerics z) prev s).val = realTurns z.val
      (s.im.val * prev.re.val - s.re.val * prev.im.val) (s.re.val * prev.re.val + s.im.val * prev.im.val) := by
  simp only [phaseStep, Numerics.cmul, Numerics.conj, exact_angle_val, exact_add_val, exact_sub_val, exact_mul_val,
    exact_neg_val]
  congr 1 <;> ring

/-- Settles O48: either way `p` is the sample `FMDEM` compares with. -/
theorem fmdemMeasuresThePhaseStep : Obligations.FmdemMeasuresThePhaseStep := by
  intro z f s p hkf hp
  have previous : fmPrevious f = p := by
    rcases hp with h | ⟨h, rfl⟩ <;> simp [fmPrevious, h, Cplx.one]
  refine ⟨rfl, ?_⟩
  rw [fmDem, previous, fmScale_val z _ hkf, phaseStep_val]

/-! ## Rounding -/

theorem roundNearest_near (t : QTie) (r : ℝ) : |(roundNearest t r : ℝ) - r| ≤ 1 / 2 := by
  have below := Int.floor_le r
  have above := Int.lt_floor_add_one r
  rw [abs_le]
  rcases roundNearest_cases t r with ⟨e, h⟩ | ⟨e, h⟩ <;> rw [e] <;> push_cast <;> constructor <;> linarith

/-- Off the half-way points the tie rule is not asked. -/
theorem roundNearest_of_no_tie (t t' : QTie) {r : ℝ} (off : ∀ m : ℤ, r ≠ m + 1 / 2) :
    roundNearest t r = roundNearest t' r := by
  rcases lt_or_gt_of_ne (off ⌊r⌋) with h | h
  · simp only [roundNearest, if_pos h]
  · simp only [roundNearest, if_neg h.not_gt, if_pos h]

theorem roundNearest_halfAway_of_nonneg {r : ℝ} (h : 0 ≤ r) : roundNearest .halfAway r = ⌊r + 1 / 2⌋ := by
  have below := Int.floor_le r
  have above := Int.lt_floor_add_one r
  have up : tieGoesUp .halfAway ⌊r⌋ = true := decide_eq_true (Int.floor_nonneg.mpr h)
  simp only [roundNearest, up, if_true]
  split_ifs <;> refine (Int.floor_eq_iff.mpr ⟨?_, ?_⟩).symm <;> push_cast <;> linarith

theorem roundNearest_halfAway_of_neg {r : ℝ} (h : r < 0) : roundNearest .halfAway r = -⌊-r + 1 / 2⌋ := by
  have below := Int.floor_le r
  have above := Int.lt_floor_add_one r
  have down : tieGoesUp .halfAway ⌊r⌋ = false := decide_eq_false (not_le.mpr (Int.floor_lt.mpr (by exact_mod_cast h)))
  simp only [roundNearest, down, Bool.false_eq_true, if_false]
  split_ifs <;> refine neg_eq_iff_eq_neg.mp (Int.floor_eq_iff.mpr ⟨?_, ?_⟩).symm <;> push_cast <;> linarith

theorem roundNearest_halfAway_neg (r : ℝ) : roundNearest .halfAway (-r) = -roundNearest .halfAway r := by
  rcases lt_trichotomy r 0 with h | rfl | h
  · rw [roundNearest_halfAway_of_neg h, roundNearest_halfAway_of_nonneg (neg_nonneg.mpr h.le), neg_neg]
  · have zero : roundNearest .halfAway (0 : ℝ) = 0 := by
      rw [roundNearest_halfAway_of_nonneg le_rfl]
      norm_num
    rw [neg_zero, zero, neg_zero]
  · rw [roundNearest_halfAway_of_neg (neg_neg_of_pos h), roundNearest_halfAway_of_nonneg h.le, neg_neg]

/-- Settles O51: rounding takes a neighbour within 1/2, the tie rule decides half-way points alone, and the default one
takes the neighbour away from 0 on either side. -/
theorem roundNearestHalfAway : Obligations.RoundNearestHalfAway :=
  fun t r => ⟨roundNearest_near t r, roundNearest_of_no_tie t .halfAway, roundNearest_halfAway_of_nonneg,
    roundNearest_halfAway_of_neg, roundNearest_halfAway_neg r⟩

theorem roundNearest_intCast (t : QTie) (m : ℤ) : roundNearest t (m : ℝ) = m := by
  simp [roundNearest]

/-! ## The quantizer -/

/-- Where nothing is rounded the word is that of the real number: clamped, scaled, rounded to the nearest integer. The
model's own bound on the integer then changes nothing (44_quantizer.md R93). -/
theorem quant_val_of_unrounded {N : Numerics} (unrounded : ∀ a, N.rnd a = a) (t : QTie) (x : RealNum) :
    (quant N t x).val = BitVec.ofInt 16 (roundNearest t (clampUnit x.val * 32767)) := by
  have scaled : (scaledUnit N x).val = clampUnit x.val * 32767 := by
    simp [scaledUnit, Numerics.mul, unrounded, RealNum.val_times, RealNum.val_clamped]
  have lower : -1 ≤ clampUnit x.val := by rw [clampUnit_eq]; exact le_max_left ..
  have upper : clampUnit x.val ≤ 1 := by rw [clampUnit_eq]; exact max_le (by norm_num) (min_le_left ..)
  rw [quant_val, scaled, quantInt_of_mem t (by linarith) (by linarith), enc16]

/-- Settles O49: the three cases of the clamp, the first two of which leave an integer to round. -/
theorem quantClampsBeforeScaling : Obligations.QuantClampsBeforeScaling := by
  intro z t x
  rw [quant_val_of_unrounded (exact_rnd z)]
  refine ⟨fun h => ?_, fun h => ?_, fun h h' => ?_⟩
  · have one : clampUnit x.val = 1 := by rw [clampUnit_eq, min_eq_left h]; norm_num
    have top := roundNearest_intCast t 32767
    rw [one, one_mul]
    push_cast at top
    rw [top]
    rfl
  · have minusOne : clampUnit x.val = -1 := by
      rw [clampUnit_eq, max_eq_left ((min_le_right ..).trans h)]
    have bottom := roundNearest_intCast t (-32767)
    push_cast at bottom
    rw [minusOne, neg_one_mul, bottom]
  · rw [clampUnit, if_neg h.not_gt, if_neg h'.not_gt]

/-- Settles O50: the bound on the integer, and that the word holds it. -/
theorem quantRangeIsSymmetric : Obligations.QuantRangeIsSymmetric := by
  intro N t x
  rw [quant_val, enc16_quantInt_toInt]
  exact quantInt_mem ..

/-! ## The bytes on `out` -/

/-- The two bytes of a word, low byte first, are the word. -/
theorem natOfBytesLE_pcmBytes (v : PcmWord) : natOfBytesLE (pcmBytes v) = v.toNat := by
  have low : (v.extractLsb' 0 8).toNat = v.toNat % 256 := by simp
  have high : (v.extractLsb' 8 8).toNat = v.toNat / 256 % 256 := by
    simp [Nat.shiftRight_eq_div_pow]
  have := v.isLt
  rw [pcmBytes, natOfBytesLE, natOfBytesLE, natOfBytesLE, low, high]
  omega

/-- Settles O52: written out or named, the two bytes are those of the sample's word. -/
theorem outputIsLittleEndian : Obligations.OutputIsLittleEndian := by
  intro v
  rw [OutSample.bytes_val, natOfBytesLE_pcmBytes, pcmBytes_eq]
  exact ⟨rfl, rfl⟩

/-- Settles O60: the loop of the `PUSH` is the run of the stages over its chunk, and the word of each number it ends
with is that of the clamped, scaled and rounded real number. -/
theorem outputBytesAreTheExactRounding : Obligations.OutputBytesAreTheExactRounding := by
  intro len s o exact_fmt mode objs ready N f r xs
  have unrounded : ∀ a, N.rnd a = a := fun a => by
    simp only [N, numericsOf_exact exact_fmt]
    rfl
  have words : (chunkLoop s.build o (iqWords (s.inQ.take len.toNat))).2 = xs.map (quant N s.build.qtie) := by
    rw [chunkLoop_eq_chunkByStages]
    rfl
  refine ⟨_, execPush_ready mode ready objs, ?_⟩
  rw [State.pushRun_outBytes, words, List.flatMap_map]
  simp only [pcmBytes_eq, quant_val_of_unrounded unrounded]
  rfl

end Sys2Proof.Machine
